-- ==== Sys2Proof/Word.lean ====
section
/-! DEFINITION. The words of the machine: a byte, a bus word (R63), a request word (R73) and a
16-bit touch register (R7, `REG_BITS`). -/

namespace Sys2Proof

/-- A byte, bit 0 the least significant (R8). -/
abbrev Byte := BitVec 8

/-- One LCD bus cycle: `CS[11:10] DI[9] RW[8] D[7:0]` (R63). -/
abbrev BusWord := BitVec 12

/-- One request of the host: `op[31:24]` and its fields (R73). -/
abbrev RequestWord := BitVec 32

/-- A raw, filtered or latched touch coordinate, `REG_BITS` = 16 bits (R7, R30, R31, R34). -/
abbrev TouchWord := BitVec 16

end Sys2Proof
end

