-- ==== Sys2Proof/Syntax.lean ====
section
/-! DEFINITION. The instructions: one constructor per row of spec/opcode_table.json. The first
eight are bus words (R65, R72), the others request words (R76): engine, touch, context and client
requests, environment events and handlers. -/

namespace Sys2Proof

/-- The two controller chips (R2). -/
inductive Chip where
  | zero
  | one
  deriving DecidableEq, Repr, Inhabited

/-- The colours of the client requests: `black` is a set bit, `white` a clear one (R74, D25). -/
inductive Color where
  | white
  | black
  deriving DecidableEq, Repr, Inhabited

/-- One instruction. A bus word carries its chip-select pattern `cs`; the two read cycles also carry
the byte that stands on the data lines of the word, which the cycle ignores (R72, R82). -/
inductive Instr where
  | cmdDisplayOn (cs : BitVec 2)
  | cmdDisplayOff (cs : BitVec 2)
  | cmdSetStartLine (cs : BitVec 2)
  | cmdSetPage (cs : BitVec 2) (page : BitVec 3)
  | cmdSetColumn (cs : BitVec 2) (col : BitVec 6)
  | statusRead (cs : BitVec 2) (d : Byte)
  | dataWrite (cs : BitVec 2) (d : Byte)
  | dataRead (cs : BitVec 2) (d : Byte)
  | waitReady (chip : Chip)
  | selectChip (chip : Chip)
  | gotoXY (x : Byte) (y : Byte)
  | readData
  | writeData (d : Byte)
  | doWriteCommand (cmd : Byte) (chip : Chip) (di : Bool) (rw : Bool)
  | toggleLowpass
  | snapshot
  | dint
  | eint
  | lpmWait
  | init (invert : Bool)
  | setDot (x : Byte) (y : Byte) (color : Color)
  | clearPage (page : Byte) (color : Color)
  | clearScreen (color : Color)
  | clearScreenUnsafe (color : Color)
  | scroll (delta : Byte)
  | dumpBuffer
  | getStartline
  | evConvDone (raw : BitVec 16)
  | evTimer
  | evButton
  | isrTimer
  | isrAdc
  | isrButton
  deriving DecidableEq, Repr

end Sys2Proof
end

