-- ==== Sys2Proof/Config.lean ====
section
/-! DEFINITION. The parameters of R7. Those with a value in the spec are definitions; the OPEN ones,
and the environment's free values, are constants without a body, so that no proof can see them. -/

namespace Sys2Proof

/-- The touch axes: `x` is the source's SamplingHorizontal, `y` its SamplingVertical (R27). -/
inductive Axis where
  | x
  | y
  deriving DecidableEq, Repr, Inhabited

/-- `WINDOW_CHECK` (R124): both last readings, or the current one only. -/
inductive WindowCheck where
  | pair
  | current
  deriving DecidableEq, Repr, Inhabited

/-- The inclusive window bounds `X_LO`, `X_HI`, `Y_LO`, `Y_HI` (R124). -/
structure Windows where
  xLo : Nat
  xHi : Nat
  yLo : Nat
  yHi : Nat
  deriving DecidableEq, Repr, Inhabited

/-- The mode flags `modeScroll`, `modeEraser`, `modeErase` (R40). -/
structure ModeFlags where
  scroll : Bool
  eraser : Bool
  erase : Bool
  deriving DecidableEq, Repr, Inhabited

/-- The parameters the ADC handler reads (R7, R124, R125, R135). -/
structure TouchParams where
  windows : Windows
  windowCheck : WindowCheck
  restartOnComplete : Bool
  settleThreshold : Nat
  deriving DecidableEq, Repr, Inhabited

/-- `WIDTH` (R7). -/
abbrev Config.width : Nat := 128

/-- `HEIGHT` (R7). -/
abbrev Config.height : Nat := 64

/-- `CHIP_COLS` (R7). -/
abbrev Config.chipCols : Nat := 64

/-- `NPAGES` (R7). -/
abbrev Config.npages : Nat := 8

/-- `SCREENS` (R7). -/
abbrev Config.screens : Nat := 4

/-- `PAGES_TOTAL` = 8 * SCREENS = 32 (R7). -/
abbrev Config.pagesTotal : Nat := 8 * Config.screens

/-- `STARTLINE_MAX` = (SCREENS - 1) * 64 = 192 (R7). -/
abbrev Config.startlineMax : Nat := (Config.screens - 1) * 64

/-- `T`, the debounce threshold (R7). -/
abbrev Config.settleThreshold : Nat := 30

/-- `ADC_BITS` (R7, D22). -/
abbrev Config.adcBits : Nat := 10

/-- `CS_ENCODE` (R7, R71, D3): one-hot. -/
def Config.csEncode : Chip → BitVec 2
  | .zero => 0b01
  | .one => 0b10

/-- `WINDOW_CHECK`, at its default (R7, R124, D18). -/
abbrev Config.windowCheck : WindowCheck := .pair

/-- `RESTART_ON_COMPLETE`, at its default (R7, R135, D21). -/
abbrev Config.restartOnComplete : Bool := false

/-- `X_LO`, `X_HI`, `Y_LO`, `Y_HI`: OPEN (R7, R124, I13; log 7). -/
opaque Config.windows : Windows

/-- `INIT_AXIS`: OPEN (R7, R27, I15; log 7). -/
opaque Config.initAxis : Axis

/-- `MUX_CONFIG`: OPEN and abstract (R7, R28, I16; log 7, log 9). -/
opaque Config.muxConfig : Axis → Nat

/-- The bytes of the status strip before the bound of R7: OPEN (R155, I23; log 7). -/
opaque Config.stripBytes : ModeFlags → Byte → List Byte

/-- `STATUS_STRIP`: a list of at most 64 bytes (R7, R155, D29). -/
def Config.statusStrip (modes : ModeFlags) (startline : Byte) : List Byte :=
  (Config.stripBytes modes startline).take 64

/-- `BUTTON_ACTION`: OPEN (R7, R157, I24; log 7). -/
opaque Config.buttonAction : ModeFlags → ModeFlags

/-- The environment's free bytes, one for each draw past the listed ones (R8 draw, R26, R88, R101,
R108; log 2). -/
opaque Config.freeByte : Nat → Byte

/-- The parameters the machine's own ADC handler runs with. -/
def Config.touchParams : TouchParams :=
  { windows := Config.windows
    windowCheck := Config.windowCheck
    restartOnComplete := Config.restartOnComplete
    settleThreshold := Config.settleThreshold }

end Sys2Proof
end

