-- ==== Sys2Proof/Decode.lean ====
section
/-! DEFINITION. Decoding of bus words (R63 to R72) and request words (R73 to R78), total on every word
and rejecting by name, and the encoder written from the same tables; `decodeTableWord` reads a word as
spec/opcode_table.json numbers its bits. -/

namespace Sys2Proof

/-- Why a word spells no instruction. -/
inductive Reject where
  /-- A command byte the source's table does not show (R70). -/
  | reservedCommand (c : Byte)
  /-- A request code that R76 does not list (R77). -/
  | reservedOp (op : Byte)
  /-- A request word with a nonzero bit that no field names (R73). -/
  | unnamedBits (op : Byte)
  deriving DecidableEq, Repr

/-- A word with its format: the two formats of R63 and R73, of fixed widths (R78). -/
inductive Code where
  | bus (w : BusWord)
  | request (w : RequestWord)
  deriving DecidableEq, Repr

/-- The kind of an instruction: a bus word, or R76's "kind" column. -/
inductive Kind where
  | busWord
  | engine
  | touch
  | context
  | client
  | event
  | handler
  deriving DecidableEq, Repr

/-- R76's "kind" column, and `busWord` for the rows of R65 and R72. -/
def Instr.kind : Instr → Kind
  | .cmdDisplayOn _ => .busWord
  | .cmdDisplayOff _ => .busWord
  | .cmdSetStartLine _ => .busWord
  | .cmdSetPage _ _ => .busWord
  | .cmdSetColumn _ _ => .busWord
  | .statusRead _ _ => .busWord
  | .dataWrite _ _ => .busWord
  | .dataRead _ _ => .busWord
  | .waitReady _ => .engine
  | .selectChip _ => .engine
  | .gotoXY _ _ => .engine
  | .readData => .engine
  | .writeData _ => .engine
  | .doWriteCommand _ _ _ _ => .engine
  | .toggleLowpass => .touch
  | .snapshot => .touch
  | .dint => .context
  | .eint => .context
  | .lpmWait => .context
  | .init _ => .client
  | .setDot _ _ _ => .client
  | .clearPage _ _ => .client
  | .clearScreen _ => .client
  | .clearScreenUnsafe _ => .client
  | .scroll _ => .client
  | .dumpBuffer => .client
  | .getStartline => .client
  | .evConvDone _ => .event
  | .evTimer => .event
  | .evButton => .event
  | .isrTimer => .handler
  | .isrAdc => .handler
  | .isrButton => .handler

/-- Whether a foreground program may contain the instruction: a bus word is no request, and event and
handler codes in a program are refused (R76). -/
def Instr.isRequest (i : Instr) : Bool :=
  match i.kind with
  | .busWord => false
  | .engine => true
  | .touch => true
  | .context => true
  | .client => true
  | .event => false
  | .handler => false

/-! ### Fields -/

/-- The chip a chip-select pattern selects, if it selects exactly one (R71, R83). -/
def chipOfSelect (cs : BitVec 2) : Option Chip :=
  if cs = Config.csEncode .zero then some .zero
  else if cs = Config.csEncode .one then some .one
  else none

/-- The command bytes of the source's table; every other one is reserved (R65, R70). -/
def commandListed (c : Byte) : Bool :=
  c == 0x3F || c == 0x3E || c == 0xC0 || c.extractLsb' 3 5 == 0b10111#5
    || c.extractLsb' 6 2 == 0b01#2

/-- A one-bit field as a flag. -/
def flagOfBit (b : BitVec 1) : Bool := b == 1#1

/-- A flag as a one-bit field. -/
def bitOfFlag (b : Bool) : BitVec 1 := BitVec.ofBool b

/-- A one-bit field as a chip number (R74). -/
def chipOfBit (b : BitVec 1) : Chip := if b = 1#1 then .one else .zero

/-- A chip number as a one-bit field (R74). -/
def bitOfChip : Chip → BitVec 1
  | .zero => 0#1
  | .one => 1#1

/-- A one-bit field as a colour: 1 = BLACK, 0 = WHITE (R74). -/
def colorOfBit (b : BitVec 1) : Color := if b = 1#1 then .black else .white

/-- A colour as a one-bit field (R74). -/
def bitOfColor : Color → BitVec 1
  | .white => 0#1
  | .black => 1#1

/-! ### Bus words -/

/-- The bus word of a cycle: `CS ++ DI ++ RW ++ D` (R63). -/
def busWord (cs : BitVec 2) (di rw : Bool) (d : Byte) : BusWord :=
  cs ++ bitOfFlag di ++ bitOfFlag rw ++ d

/-- The chip-select pattern of a bus word (R63). -/
def selectOf (w : BusWord) : BitVec 2 := w.extractLsb' 10 2

/-- A command byte (R65 to R70). -/
def decodeCommand (cs : BitVec 2) (c : Byte) : Except Reject Instr :=
  if c = 0x3F then .ok (.cmdDisplayOn cs)
  else if c = 0x3E then .ok (.cmdDisplayOff cs)
  else if c = 0xC0 then .ok (.cmdSetStartLine cs)
  else if c.extractLsb' 3 5 = 0b10111#5 then .ok (.cmdSetPage cs (c.extractLsb' 0 3))
  else if c.extractLsb' 6 2 = 0b01#2 then .ok (.cmdSetColumn cs (c.extractLsb' 0 6))
  else .error (.reservedCommand c)

/-- A bus word, by its cycle kind (DI, RW) (R64, R72). -/
def decodeBus (w : BusWord) : Except Reject Instr :=
  let cs := selectOf w
  let d := w.extractLsb' 0 8
  match flagOfBit (w.extractLsb' 9 1), flagOfBit (w.extractLsb' 8 1) with
  | false, false => decodeCommand cs d
  | false, true => .ok (.statusRead cs d)
  | true, false => .ok (.dataWrite cs d)
  | true, true => .ok (.dataRead cs d)

/-! ### Request words -/

/-- `i`, unless a bit of the low 24 that `named` does not cover is set (R73). -/
def withFields (op : Byte) (low named : BitVec 24) (i : Instr) : Except Reject Instr :=
  if low &&& ~~~named = 0 then .ok i else .error (.unnamedBits op)

/-- A request word, by its code alone (R73, R74, R76 to R78). -/
def decodeRequest (w : RequestWord) : Except Reject Instr :=
  let op : Byte := w.extractLsb' 24 8
  let low : BitVec 24 := w.extractLsb' 0 24
  let b0 : Byte := w.extractLsb' 0 8
  let b1 : Byte := w.extractLsb' 8 8
  let bit (n : Nat) : BitVec 1 := w.extractLsb' n 1
  if op = 0x01 then withFields op low 0x000001 (.waitReady (chipOfBit (bit 0)))
  else if op = 0x02 then withFields op low 0x000001 (.selectChip (chipOfBit (bit 0)))
  else if op = 0x03 then withFields op low 0x00FFFF (.gotoXY b1 b0)
  else if op = 0x04 then withFields op low 0x000000 .readData
  else if op = 0x05 then withFields op low 0x0000FF (.writeData b0)
  else if op = 0x06 then
    withFields op low 0x0007FF
      (.doWriteCommand b0 (chipOfBit (bit 8)) (flagOfBit (bit 9)) (flagOfBit (bit 10)))
  else if op = 0x10 then withFields op low 0x000000 .toggleLowpass
  else if op = 0x11 then withFields op low 0x000000 .snapshot
  else if op = 0x18 then withFields op low 0x000000 .dint
  else if op = 0x19 then withFields op low 0x000000 .eint
  else if op = 0x1A then withFields op low 0x000000 .lpmWait
  else if op = 0x20 then withFields op low 0x000001 (.init (flagOfBit (bit 0)))
  else if op = 0x21 then withFields op low 0x01FFFF (.setDot b1 b0 (colorOfBit (bit 16)))
  else if op = 0x22 then withFields op low 0x0100FF (.clearPage b0 (colorOfBit (bit 16)))
  else if op = 0x23 then withFields op low 0x010000 (.clearScreen (colorOfBit (bit 16)))
  else if op = 0x24 then withFields op low 0x010000 (.clearScreenUnsafe (colorOfBit (bit 16)))
  else if op = 0x25 then withFields op low 0x0000FF (.scroll b0)
  else if op = 0x26 then withFields op low 0x000000 .dumpBuffer
  else if op = 0x27 then withFields op low 0x000000 .getStartline
  else if op = 0xE1 then withFields op low 0x00FFFF (.evConvDone (w.extractLsb' 0 16))
  else if op = 0xE2 then withFields op low 0x000000 .evTimer
  else if op = 0xE3 then withFields op low 0x000000 .evButton
  else if op = 0xF1 then withFields op low 0x000000 .isrTimer
  else if op = 0xF2 then withFields op low 0x000000 .isrAdc
  else if op = 0xF3 then withFields op low 0x000000 .isrButton
  else .error (.reservedOp op)

/-- A word of either format. -/
def decode : Code → Except Reject Instr
  | .bus w => decodeBus w
  | .request w => decodeRequest w

/-! ### The encoder -/

/-- A request word with `op` and its low 24 bits (R73). -/
def requestWord (op : Byte) (low : BitVec 24) : RequestWord := op ++ low

/-- The word of an instruction, field by field from R65, R72, R74 and R76. -/
def encode : Instr → Code
  | .cmdDisplayOn cs => .bus (busWord cs false false 0x3F)
  | .cmdDisplayOff cs => .bus (busWord cs false false 0x3E)
  | .cmdSetStartLine cs => .bus (busWord cs false false 0xC0)
  | .cmdSetPage cs page => .bus (busWord cs false false (0b10111#5 ++ page))
  | .cmdSetColumn cs col => .bus (busWord cs false false (0b01#2 ++ col))
  | .statusRead cs d => .bus (busWord cs false true d)
  | .dataWrite cs d => .bus (busWord cs true false d)
  | .dataRead cs d => .bus (busWord cs true true d)
  | .waitReady chip => .request (requestWord 0x01 (0#23 ++ bitOfChip chip))
  | .selectChip chip => .request (requestWord 0x02 (0#23 ++ bitOfChip chip))
  | .gotoXY x y => .request (requestWord 0x03 (0#8 ++ x ++ y))
  | .readData => .request (requestWord 0x04 0)
  | .writeData d => .request (requestWord 0x05 (0#16 ++ d))
  | .doWriteCommand cmd chip di rw =>
    .request (requestWord 0x06 (0#13 ++ bitOfFlag rw ++ bitOfFlag di ++ bitOfChip chip ++ cmd))
  | .toggleLowpass => .request (requestWord 0x10 0)
  | .snapshot => .request (requestWord 0x11 0)
  | .dint => .request (requestWord 0x18 0)
  | .eint => .request (requestWord 0x19 0)
  | .lpmWait => .request (requestWord 0x1A 0)
  | .init invert => .request (requestWord 0x20 (0#23 ++ bitOfFlag invert))
  | .setDot x y color => .request (requestWord 0x21 (0#7 ++ bitOfColor color ++ x ++ y))
  | .clearPage page color => .request (requestWord 0x22 (0#7 ++ bitOfColor color ++ 0#8 ++ page))
  | .clearScreen color => .request (requestWord 0x23 (0#7 ++ bitOfColor color ++ 0#16))
  | .clearScreenUnsafe color => .request (requestWord 0x24 (0#7 ++ bitOfColor color ++ 0#16))
  | .scroll delta => .request (requestWord 0x25 (0#16 ++ delta))
  | .dumpBuffer => .request (requestWord 0x26 0)
  | .getStartline => .request (requestWord 0x27 0)
  | .evConvDone raw => .request (requestWord 0xE1 (0#8 ++ raw))
  | .evTimer => .request (requestWord 0xE2 0)
  | .evButton => .request (requestWord 0xE3 0)
  | .isrTimer => .request (requestWord 0xF1 0)
  | .isrAdc => .request (requestWord 0xF2 0)
  | .isrButton => .request (requestWord 0xF3 0)

/-- The request word of an instruction, if it has one. -/
def encodeRequest (i : Instr) : Option RequestWord :=
  match encode i with
  | .bus _ => none
  | .request w => some w

/-- The word opcode_table.json numbers: rows of at most 16 bits are bus words (12 bits, the rest 0),
rows of at most 32 bits are request words (R78). -/
def codeOfTable (nbits w : Nat) : Option Code :=
  if nbits ≤ 16 then if w < 2 ^ 12 then some (.bus (BitVec.ofNat 12 w)) else none
  else if nbits ≤ 32 then if w < 2 ^ 32 then some (.request (BitVec.ofNat 32 w)) else none
  else none

/-- What the decoder reads from an instruction whose bits are `w`, numbered as the opcode table does. -/
def decodeTableWord (nbits w : Nat) : Option Instr :=
  match codeOfTable nbits w with
  | none => none
  | some c =>
    match decode c with
    | .ok i => some i
    | .error _ => none

end Sys2Proof
end

