-- ==== Sys2Proof/Machine/State.lean ====
section
/-! DEFINITION. The state of the machine as plain data: the spec's four groups of registers (bus
engine, devices, touch sampler, host context), the client state, and the model's own record of what
stands outside the block (request list, agenda, drawn bytes, reply). Also the reasons a step stops,
and the state at power-on (R181). -/

namespace Sys2Proof.Machine

/-- Why the machine stops with a fault (R170; `noSuchAddress` is the model's own). -/
inductive Fault where
  /-- A command byte of R70 reaches a device (R84, R90). Raised by a bus cycle. Safe. -/
  | unmodelledCommand
  /-- A cycle whose chip-select pattern selects no chip or both, or is not the one the lines hold
  (R82, R91; log 23). Raised by a bus cycle. Safe. -/
  | unmodelledChipSelect
  /-- A command or data cycle to a busy device (R92). Raised by a bus cycle. Safe. -/
  | cycleWhileBusy
  /-- An engine or client request in the foreground with interrupts enabled (R116). Safe. -/
  | busWithInterruptsEnabled
  /-- `toggleLowPass` with interrupts enabled (R132). Safe. -/
  | sharedWriteWithInterruptsEnabled
  /-- `snapshot` with interrupts enabled (R133). Safe. -/
  | sharedReadWithInterruptsEnabled
  /-- A frame-buffer row past the last one, which only a `startline` that R39 excludes can reach
  (R45, R145; log 19). Raised by `setDot`, `dumpBuffer` and the button handler. Safe. -/
  | noSuchAddress
  deriving DecidableEq, Repr

/-- Why the machine refuses (R170; `notModelled` and `alreadyRefused` are the model's own). -/
inductive Refusal where
  /-- An instruction without a meaning. Raised by no arm. Safe. -/
  | notModelled (mnemonic : String)
  /-- A word that spells no request, or an event or handler code in a program (R73, R76, R77).
  Raised by the fetch. Safe. -/
  | badRequest
  /-- A conversion result the converter cannot produce (R121). Raised by EV_CONV_DONE. Safe. -/
  | badEvent
  /-- `doWriteCommand` with `rw = 1` (R113). Safe. -/
  | rawRead
  /-- `doWriteCommand` with `di = 0` and a reserved byte (R113). Safe. -/
  | reservedCommand
  /-- `clearPage` with a page of 8 or more (R148). Safe. -/
  | badPage
  /-- `scroll` by anything but 8 rows either way (R151). Safe. -/
  | badScrollDelta
  /-- A step of a machine whose `refused` register is set (R37; log 13). Safe. -/
  | alreadyRefused
  deriving DecidableEq, Repr

/-- A byte space: its cells by rising address, none equal to what an unlisted address reads as. -/
abbrev Memory := List Host.Cell

/-- The bus control lines (R15). -/
structure Lines where
  cs : BitVec 2
  di : Bool
  rw : Bool
  dport : Byte
  ddir : Bool
  deriving DecidableEq, Repr

/-- The hardware cursor `cur` with its stale flags and the chip last addressed (R16, R17, R18). -/
structure Cache where
  x : BitVec 8
  y : BitVec 6
  page : BitVec 3
  pageStale : Bool
  colStale : Bool
  lastColChip : Chip
  deriving DecidableEq, Repr

/-- One controller device (R21 to R25). `ready` is the model's own record of R88's "stays ready": the
device has answered a status read with busy = 0 and no command or data cycle came since (log 6). -/
structure Device where
  ram : Memory
  page : BitVec 3
  col : BitVec 6
  on : Bool
  start : BitVec 6
  latch : Byte
  ready : Bool
  deriving DecidableEq, Repr

/-- The pure computation that stands between bus cycles (R81; log 10). -/
inductive Note where
  /-- The engine's bookkeeping: `cur`, the stale flags and `lastColChip` become these. -/
  | cache (c : Cache)
  /-- `readData` returns the byte of its last data read, complemented when `invert = 1`, to its
  requester (R102). -/
  | deliver
  /-- The upper half of a split write at page 7 (R108): what it may do to page 7 of `chip` outside
  column `col`. -/
  | spill (chip : Chip) (col : BitVec 6)
  /-- `clearScreen` zeroes the virtual buffer (R149). -/
  | clearBuffer
  deriving DecidableEq, Repr

/-- What the engine does on the bus (R20, R81). -/
inductive BusOp where
  /-- `waitReady(k)`: status reads until the chip answers ready (R93). -/
  | wait (chip : Chip)
  /-- One bus cycle, by its bus word; the chip-select lines are driven to the word's pattern first
  (R82, R94). -/
  | cycle (w : BusWord)
  /-- A data write to `chip` of the byte last read, merged: `(a & keep) | bits`; the read and the
  write are complemented when `invert = 1` (R106, R107). -/
  | merge (chip : Chip) (keep bits : Byte)
  deriving DecidableEq, Repr

/-- An entry of the engine sequencer (R20; log 10). -/
inductive EngineOp where
  | bus (b : BusOp)
  | note (n : Note)
  deriving DecidableEq, Repr

/-- The converter's phase (R29). -/
inductive AdcPhase where
  | idle
  | converting
  | done
  deriving DecidableEq, Repr

/-- The touch sampler's registers (R27 to R34). `rawX`, `rawY` are `rawLast[X]`, `rawLast[Y]`; `xx`,
`yy` are `filt[X]`, `filt[Y]`. -/
structure Touch where
  axis : Axis
  mux : Nat
  adc : AdcPhase
  adcMem : BitVec Config.adcBits
  rawX : TouchWord
  rawY : TouchWord
  xx : TouchWord
  yy : TouchWord
  lowPassEnabled : Bool
  settleCounter : BitVec 8
  firstX : TouchWord
  firstY : TouchWord
  deriving DecidableEq, Repr

/-- The executing context `ctx` (R36). -/
inductive Context where
  | fg
  | isrTimer
  | isrAdc
  | isrButton
  deriving DecidableEq, Repr

/-- The three interrupt sources (R164). -/
inductive Source where
  | timer
  | adc
  | button
  deriving DecidableEq, Repr, Inhabited

/-- The host context (R36, R37), with the low-power wait and the resume point that R167 saves
(log 15). `faults` and `refused` are R37's outcome registers (log 13). -/
structure HostCtx where
  gie : Bool
  timerIfg : Bool
  adcIfg : Bool
  btnIfg : Bool
  wake : Bool
  ctx : Context
  pc : Nat
  lpm : Bool
  savedPc : Nat
  savedLpm : Bool
  savedGie : Bool
  faults : List Fault
  refused : Bool
  deriving DecidableEq, Repr

/-- The client state (R38 to R40). -/
structure Client where
  buf : Memory
  startline : BitVec 8
  modes : ModeFlags
  deriving DecidableEq, Repr

/-- What a snapshot returns (R133). -/
structure SnapshotData where
  xx : TouchWord
  yy : TouchWord
  valid : Bool
  settleCounter : BitVec 8
  firstX : TouchWord
  firstY : TouchWord
  lowPassEnabled : Bool
  deriving DecidableEq, Repr

/-- A result returned to a requester (R102, R133, R156). -/
inductive Reply where
  | byte (b : Byte)
  | snapshot (d : SnapshotData)
  | startline (v : BitVec 8)
  deriving DecidableEq, Repr

/-- An environment event (R121, R122, R165). -/
inductive EnvEvent where
  | convDone (raw : BitVec 16)
  | timer
  | button
  deriving DecidableEq, Repr

/-- Who moves at a step (R167, R171; log 1): the running context (the engine operation in progress,
or the foreground's next request), an interrupt that is taken, or the environment. -/
inductive Turn where
  | run
  | interrupt (src : Source)
  | event (e : EnvEvent)
  deriving DecidableEq, Repr

/-- What stands outside the block: the foreground's request list (R75; log 3), who moves at the next
steps (log 1), the environment's next drawn bytes and the count of the free ones taken (log 2), and
the result last returned to a requester (log 12). -/
structure Env where
  program : List RequestWord
  agenda : List Turn
  draws : List Byte
  drawn : Nat
  reply : Option Reply
  deriving DecidableEq, Repr

/-- The whole machine. `statusIn` and `dataIn` are the bytes that the last status read and the last data
read returned (R82, R93, R102; log 12). -/
structure State where
  lines : Lines
  cache : Cache
  invert : Bool
  seq : List EngineOp
  statusIn : Byte
  dataIn : Byte
  dev0 : Device
  dev1 : Device
  touch : Touch
  host : HostCtx
  client : Client
  env : Env
  deriving DecidableEq, Repr

/-- A device at power-on: the spec draws every field (R181); the model names zero (log 4, log 5). -/
def Device.reset : Device :=
  { ram := [], page := 0, col := 0, on := false, start := 0, latch := 0, ready := false }

/-- The machine at power-on (R181). Where R181 says "any", the value is the model's (log 4, log 5). -/
def State.reset : State :=
  { lines := { cs := 0, di := false, rw := false, dport := 0, ddir := false }
    cache := { x := 0, y := 0, page := 0, pageStale := true, colStale := true, lastColChip := .zero }
    invert := false
    seq := []
    statusIn := 0
    dataIn := 0
    dev0 := Device.reset
    dev1 := Device.reset
    touch :=
      { axis := Config.initAxis, mux := Config.muxConfig Config.initAxis, adc := .idle, adcMem := 0
        rawX := 0, rawY := 0, xx := 0, yy := 0, lowPassEnabled := false, settleCounter := 0
        firstX := 0, firstY := 0 }
    host :=
      { gie := false, timerIfg := false, adcIfg := false, btnIfg := false, wake := false, ctx := .fg
        pc := 0, lpm := false, savedPc := 0, savedLpm := false, savedGie := false, faults := []
        refused := false }
    client := { buf := [], startline := 0, modes := { scroll := false, eraser := false, erase := false } }
    env := { program := [], agenda := [], draws := [], drawn := 0, reply := none } }

end Sys2Proof.Machine
end

