-- ==== Sys2Proof/Machine/Operands.lean ====
section
/-! DEFINITION. Operand forms: the geometry of the display and of the frame buffer (R12, R47, R48),
the masks of the split write (R105), colours, the signed scroll delta (R74). -/

namespace Sys2Proof.Machine

/-- `chip(x) = x div 64` (R12). -/
def chipOf (x : Nat) : Chip := if x / Config.chipCols = 0 then .zero else .one

/-- `col(x) = x mod 64` (R12). -/
def colOf (x : Nat) : BitVec 6 := BitVec.ofNat 6 (x % Config.chipCols)

/-- `page(y) = y div 8` (R12). -/
def pageOf (y : Nat) : BitVec 3 := BitVec.ofNat 3 (y / 8)

/-- `yoff(y) = y mod 8` (R12). -/
def yoff (y : Nat) : Nat := y % 8

/-- The cell of display RAM at a page and a column (R45, R47). -/
def ramAddr (page : BitVec 3) (col : BitVec 6) : Nat := 64 * page.toNat + col.toNat

/-- The cell of the frame buffer at a row and a column (R45, R48). -/
def bufAddr (row col : Nat) : Nat := Config.width * row + col

/-- `loMask = (1 << o) - 1` (R105). -/
def loMask (o : Nat) : Byte := BitVec.ofNat 8 (2 ^ o - 1)

/-- The fill byte of a colour (R148, D25). -/
def fillByte : Color → Byte
  | .black => 0xFF
  | .white => 0x00

/-- A data byte as it goes on the bus, complemented when `invert = 1` (R19, R104). -/
def onBus (invert : Bool) (d : Byte) : Byte := if invert then ~~~d else d

/-- A buffer byte with bit `b` set (BLACK) or cleared (WHITE) (R143). -/
def paintBit (color : Color) (b : Nat) (old : Byte) : Byte :=
  match color with
  | .black => old ||| (1#8 <<< b)
  | .white => old &&& ~~~(1#8 <<< b)

/-- The 8-row window that starts at bit `b` of `cell` and runs on into `nxt` (R143, R146). -/
def windowByte (b : Nat) (cell nxt : Byte) : Byte := (cell >>> b) ||| (nxt <<< (8 - b))

/-- The scroll delta as a signed number: `sext_16` of a byte (R74, R151). -/
def signedDelta (delta : Byte) : Int := delta.toInt

/-- The command byte `0xB8 | p` (R66). -/
def setPageByte (p : BitVec 3) : Byte := 0b10111#5 ++ p

/-- The command byte `0x40 | c` (R67). -/
def setColumnByte (c : BitVec 6) : Byte := 0b01#2 ++ c

end Sys2Proof.Machine
end

