-- ==== Sys2Proof/Machine/Flags.lean ====
section
/-! DEFINITION. Flags and counters: the status byte of a device (R26), the stale flags after a raw
cycle (R112), the window check, settle counter and validity of the touch sampler (R35, R124, R126,
R127), the filter (R129). -/

namespace Sys2Proof.Machine

/-- A device's status byte from a drawn one: bit 7 busy, cleared while the device is known to be
ready; bit 5 `1 - on`; the other bits as drawn (R26, R88). -/
def statusByte (dev : Device) (drawn : Byte) : Byte :=
  bitOfFlag (drawn.msb && !dev.ready) ++ drawn.extractLsb' 6 1 ++ bitOfFlag (!dev.on)
    ++ drawn.extractLsb' 0 5

/-- The stale flags after a raw cycle with `rw = 0` (R112). -/
def staleAfterRaw (di : Bool) (cmd : Byte) (c : Cache) : Cache :=
  if di then { c with colStale := true }
  else if cmd.extractLsb' 3 5 = 0b10111#5 then { c with pageStale := true }
  else if cmd.extractLsb' 6 2 = 0b01#2 then { c with colStale := true }
  else c

/-- The other axis (R125). -/
def otherAxis : Axis → Axis
  | .x => .y
  | .y => .x

/-- `inX` (R124). -/
def inX (w : Windows) (v : Nat) : Bool := decide (w.xLo ≤ v) && decide (v ≤ w.xHi)

/-- `inY` (R124). -/
def inY (w : Windows) (v : Nat) : Bool := decide (w.yLo ≤ v) && decide (v ≤ w.yHi)

/-- `window(a, raw)`, the readings `rawX` and `rawY` being those after the new one is stored (R124). -/
def windowOk (p : TouchParams) (a : Axis) (rawX rawY raw : TouchWord) : Bool :=
  match p.windowCheck with
  | .pair => inX p.windows rawX.toNat && inY p.windows rawY.toNat
  | .current =>
    match a with
    | .x => inX p.windows raw.toNat
    | .y => inY p.windows raw.toNat

/-- The settle counter after a sample: 0 out of the window, else one more, at most `T + 2`
(R126, R127). -/
def settleNext (p : TouchParams) (ok : Bool) (counter : BitVec 8) : BitVec 8 :=
  if ok then BitVec.ofNat 8 (min (counter.toNat + 1) (p.settleThreshold + 2)) else 0

/-- The filter step: `(3 * previous + raw) div 4` when the low-pass filter is enabled, else the raw
reading (R129). -/
def filterStep (lowPass : Bool) (previous raw : TouchWord) : TouchWord :=
  if lowPass then BitVec.ofNat 16 ((3 * previous.toNat + raw.toNat) / 4) else raw

/-- `valid = (settleCounter ≥ T + 2)` (R35). -/
def validOf (threshold : Nat) (counter : BitVec 8) : Bool :=
  decide (threshold + 2 ≤ counter.toNat)

end Sys2Proof.Machine
end

