-- ==== Sys2Proof/Machine/Ops.lean ====
section
/-! DEFINITION. The named operations every meaning is built from: byte spaces, the devices, draws of
the environment, one bus cycle (R81 to R92), the context guard (R116), taking an interrupt and
returning from it (R167 to R169), starting and ending an engine operation (R81), and the outcome
registers (R37). -/

namespace Sys2Proof.Machine

/-- What a step or a meaning answers. -/
abbrev Result := Host.Outcome State Fault Refusal

/-- Continue from a next state. -/
def onNext (r : Result) (f : State → Result) : Result :=
  match r with
  | .next s => f s
  | .fault e => .fault e
  | .refused e => .refused e

/-! ### Byte spaces -/

/-- What an unlisted address reads as: 0 (R38 for the frame buffer; the model's choice for display
RAM, log 5). -/
def Memory.blank : Byte := 0

/-- The byte at an address. -/
def Memory.read : Memory → Nat → Byte
  | [], _ => Memory.blank
  | (b, v) :: m, a => if a = b then v else Memory.read m a

/-- The space with a byte stored, in canonical form (one whole byte or nothing: R52). -/
def Memory.write : Memory → Nat → Byte → Memory
  | [], a, v => if v = Memory.blank then [] else [(a, v)]
  | (b, w) :: m, a, v =>
    if a < b then if v = Memory.blank then (b, w) :: m else (a, v) :: (b, w) :: m
    else if a = b then if v = Memory.blank then m else (a, v) :: m
    else (b, w) :: Memory.write m a v

/-- The canonical form, the model's own (log 5): addresses strictly rising, no cell equal to what an unlisted one
reads as. -/
abbrev Memory.wf (m : Memory) : Prop :=
  m.Pairwise (fun a b => a.1 < b.1) ∧ ∀ c ∈ m, c.2 ≠ Memory.blank

/-- Every listed key is below `size`, the number of the space's bytes (R45; the keys are the model's: log 5). -/
abbrev Memory.within (size : Nat) (m : Memory) : Prop := ∀ c ∈ m, c.1 < size

/-! ### Devices -/

/-- `dev[k]` (R21 to R25). -/
def State.dev (s : State) : Chip → Device
  | .zero => s.dev0
  | .one => s.dev1

/-- `dev[k] <- d`. -/
def State.setDev (s : State) (k : Chip) (d : Device) : State :=
  match k with
  | .zero => { s with dev0 := d }
  | .one => { s with dev1 := d }

/-- The display byte the device's address registers point at (R45, R86). -/
def Device.current (d : Device) : Byte := d.ram.read (ramAddr d.page d.col)

/-! ### Draws of the environment (R8, log 2) -/

/-- The next drawn byte: the environment's next listed one, else a free value. -/
def drawnByte (s : State) : Byte :=
  match s.env.draws with
  | b :: _ => b
  | [] => Config.freeByte s.env.drawn

/-- The state after one draw. -/
def afterDraw (s : State) : State :=
  match s.env.draws with
  | _ :: bs => { s with env := { s.env with draws := bs } }
  | [] => { s with env := { s.env with drawn := s.env.drawn + 1 } }

/-! ### One bus cycle -/

/-- The chip-select lines driven to a pattern. -/
def driveSelect (cs : BitVec 2) (s : State) : State := { s with lines := { s.lines with cs := cs } }

/-- `selectChip(k)` (R94). -/
def selectLines (k : Chip) (s : State) : State := driveSelect (Config.csEncode k) s

/-- The lines of a cycle: DI, RW, and the data port driven in a write, released in a read (R82). -/
def driveLines (di rw : Bool) (d : Byte) (s : State) : State :=
  { s with
    lines :=
      { s.lines with
        di := di
        rw := rw
        ddir := !rw
        dport := if rw then s.lines.dport else d } }

/-- `DeviceCommand`: the register a command byte names (R84). After the cycle the device may be busy. -/
def deviceCommand (d : Device) (c : Byte) : Option Device :=
  if c = 0x3F then some { d with on := true, ready := false }
  else if c = 0x3E then some { d with on := false, ready := false }
  else if c = 0xC0 then some { d with start := 0, ready := false }
  else if c.extractLsb' 3 5 = 0b10111#5 then
    some { d with page := c.extractLsb' 0 3, ready := false }
  else if c.extractLsb' 6 2 = 0b01#2 then some { d with col := c.extractLsb' 0 6, ready := false }
  else none

/-- `DeviceDataWrite`: the byte is stored and the column advances modulo 64 (R85, R87). -/
def deviceDataWrite (d : Device) (v : Byte) : Device :=
  { d with ram := d.ram.write (ramAddr d.page d.col) v, col := d.col + 1, ready := false }

/-- `DeviceDataRead`: the latch is reloaded and the column advances modulo 64 (R86, R87); the byte
returned is the old latch. -/
def deviceDataRead (d : Device) : Device :=
  { d with latch := d.current, col := d.col + 1, ready := false }

/-- `DeviceStatus(k)`: the status byte of R88, and the device stays ready after a ready answer. -/
def statusCycle (k : Chip) (s : State) : State :=
  let d := s.dev k
  let b := statusByte d (drawnByte s)
  let s1 := (afterDraw s).setDev k { d with ready := d.ready || !b.msb }
  { s1 with statusIn := b }

/-- A command or data cycle needs a chip that is not busy (R92): one that answered ready is not (R88);
otherwise the environment says (log 6). -/
def whenNotBusy (k : Chip) (s : State) (f : State → Result) : Result :=
  if (s.dev k).ready then f s
  else if (drawnByte s).msb then .fault .cycleWhileBusy
  else f (afterDraw s)

/-- A command-write cycle (R84, R90). -/
def commandCycle (k : Chip) (c : Byte) (s : State) : Result :=
  match deviceCommand (s.dev k) c with
  | some d => .next (s.setDev k d)
  | none => .fault .unmodelledCommand

/-- A data-write cycle (R85). -/
def dataWriteCycle (k : Chip) (v : Byte) (s : State) : Result :=
  .next (s.setDev k (deviceDataWrite (s.dev k) v))

/-- A data-read cycle: the byte returned is the latch before it (R86). -/
def dataReadCycle (k : Chip) (s : State) : Result :=
  .next { (s.setDev k (deviceDataRead (s.dev k))) with dataIn := (s.dev k).latch }

/-- What the selected chip does with a cycle, the lines being driven (R82, R64). -/
def chipCycle (k : Chip) (di rw : Bool) (d : Byte) (s : State) : Result :=
  match di, rw with
  | false, false => whenNotBusy k s (commandCycle k d)
  | false, true => .next (statusCycle k s)
  | true, false => whenNotBusy k s (dataWriteCycle k d)
  | true, true => whenNotBusy k s (dataReadCycle k)

/-- `Bus(k, di, rw, d)` for the chip that the pattern `cs` selects (R82, R83). A pattern that selects
no chip or both, or that is not the one the lines hold, has no meaning (R82, R91; log 23). -/
def busCycle (cs : BitVec 2) (di rw : Bool) (d : Byte) (s : State) : Result :=
  match chipOfSelect cs with
  | none => .fault .unmodelledChipSelect
  | some k =>
    if s.lines.cs = cs then chipCycle k di rw d (driveLines di rw d s)
    else .fault .unmodelledChipSelect

/-! ### Interrupts (R164 to R169) -/

/-- The pending flag of a source (R164). -/
def pending (src : Source) (s : State) : Bool :=
  match src with
  | .timer => s.host.timerIfg
  | .adc => s.host.adcIfg
  | .button => s.host.btnIfg

/-- The context of a source's handler (R36, R164). -/
def handlerContext : Source → Context
  | .timer => .isrTimer
  | .adc => .isrAdc
  | .button => .isrButton

/-- Whether an interrupt may be taken: between two foreground steps, with `gie = 1` and the flag set
(R166, R167); no engine operation is then in progress (R192; log 24). -/
def takeable (src : Source) (s : State) : Bool :=
  s.host.ctx == .fg && s.host.gie && pending src s && s.seq.isEmpty

/-- Taking an interrupt: save the resume point, `gie <- 0`, `ctx <- ISR_src` (R167). -/
def takeInterrupt (src : Source) (s : State) : State :=
  { s with
    host :=
      { s.host with
        savedPc := s.host.pc
        savedLpm := s.host.lpm
        savedGie := s.host.gie
        gie := false
        ctx := handlerContext src } }

/-- Returning from one: `ctx <- FG`, restore the resume point, `gie <- 1` (R167, R169). -/
def returnFromInterrupt (s : State) : State :=
  { s with
    host :=
      { s.host with
        ctx := .fg
        pc := s.host.savedPc
        lpm := s.host.savedLpm
        gie := true } }

/-! ### Requests -/

/-- A request that issues no bus cycle is complete: `pc <- pc + 1` (R11, R37). -/
def advance (s : State) : State := { s with host := { s.host with pc := s.host.pc + 1 } }

/-- The engine has emptied `seq`: the foreground's request is complete (R81), or the button handler
has run to completion and returns (R167). -/
def finish (s : State) : State :=
  match s.host.ctx with
  | .fg => advance s
  | .isrTimer => returnFromInterrupt s
  | .isrAdc => returnFromInterrupt s
  | .isrButton => returnFromInterrupt s

/-- The context guard: the foreground with `gie = 0`, or the button handler (R116; log 27). -/
def busAllowed (s : State) : Bool :=
  match s.host.ctx with
  | .fg => !s.host.gie
  | .isrTimer => false
  | .isrAdc => false
  | .isrButton => true

/-- A meaning behind the context guard (R116). -/
def guarded (s : State) (f : State → Result) : Result :=
  if busAllowed s then f s else .fault .busWithInterruptsEnabled

/-- Start an engine operation: `seq` holds its cycles and waits; an operation that issues no cycle is
complete (R81). -/
def issue (ops : List EngineOp) (s : State) : State :=
  match ops with
  | [] => finish s
  | op :: rest => { s with seq := op :: rest }

/-- Whether a foreground request may touch the shared registers: `ctx = FG` and `gie = 0`
(R132, R133). -/
def sharedAllowed (s : State) : Bool := s.host.ctx == .fg && !s.host.gie

/-! ### Outcome registers (R37, R170, R172; log 13) -/

/-- The state a step leaves behind: the next state, or the state it started from with the fault or the
refusal recorded and nothing else changed (R172). -/
def afterOutcome (s : State) : Result → State
  | .next t => t
  | .fault f =>
    { s with host := { s.host with faults := if f ∈ s.host.faults then s.host.faults else f :: s.host.faults } }
  | .refused _ => { s with host := { s.host with refused := true } }

end Sys2Proof.Machine
end

