-- ==== Sys2Proof/Machine/BusCycles.lean ====
section
/-! DEFINITION. The meanings of the eight bus words: one bus cycle each, put to the chip that the
word's chip-select pattern selects (R81 to R92). A bus word moves neither `pc` nor `seq`: those belong
to the operation it is a step of. -/

namespace Sys2Proof.Machine

/-- CMD_DISPLAY_ON: `dev[k].on <- 1` (R84). -/
def execCmdDisplayOn (cs : BitVec 2) (s : State) : Result := busCycle cs false false 0x3F s

/-- CMD_DISPLAY_OFF: `dev[k].on <- 0` (R84). -/
def execCmdDisplayOff (cs : BitVec 2) (s : State) : Result := busCycle cs false false 0x3E s

/-- CMD_SET_START_LINE: `dev[k].start <- 0` (R84). -/
def execCmdSetStartLine (cs : BitVec 2) (s : State) : Result := busCycle cs false false 0xC0 s

/-- CMD_SET_PAGE: `dev[k].page <- page` (R66, R84). -/
def execCmdSetPage (cs : BitVec 2) (page : BitVec 3) (s : State) : Result :=
  busCycle cs false false (setPageByte page) s

/-- CMD_SET_COLUMN: `dev[k].col <- col` (R67, R84). -/
def execCmdSetColumn (cs : BitVec 2) (col : BitVec 6) (s : State) : Result :=
  busCycle cs false false (setColumnByte col) s

/-- STATUS_READ: the device answers with its status byte (R88). -/
def execStatusRead (cs : BitVec 2) (d : Byte) (s : State) : Result := busCycle cs false true d s

/-- DATA_WRITE: the byte is stored at the device's page and column, and the column advances (R85). -/
def execDataWrite (cs : BitVec 2) (d : Byte) (s : State) : Result := busCycle cs true false d s

/-- DATA_READ: the latch is returned and reloaded, and the column advances (R86). -/
def execDataRead (cs : BitVec 2) (d : Byte) (s : State) : Result := busCycle cs true true d s

end Sys2Proof.Machine
end

