-- ==== Sys2Proof/Machine/Engine.lean ====
section
/-! DEFINITION. The engine operations as plans: the bus cycles, waits and bookkeeping an operation
leaves in `seq` (R20, R81), computed from the cache it starts with. Each plan also gives the cache its
bookkeeping leaves. Sequences of the spec's pseudocode are sequences of plans. -/

namespace Sys2Proof.Machine

/-- A plan: from the cache at its start, the entries it puts in `seq` and the cache they leave. -/
abbrev Plan := Cache → List EngineOp × Cache

/-- One plan, then another. -/
def planThen (p q : Plan) : Plan := fun c =>
  ((p c).1 ++ (q (p c).2).1, (q (p c).2).2)

/-- The plan that does nothing. -/
def planNone : Plan := fun c => ([], c)

/-- Entries that leave the bookkeeping alone. -/
def planOps (ops : List EngineOp) : Plan := fun c => (ops, c)

/-- The bookkeeping becomes `f` of itself. -/
def planCache (f : Cache → Cache) : Plan := fun c => ([.note (.cache (f c))], f c)

/-- A plan for each element of a list, in order. -/
def planEach {α : Type} (f : α → Plan) : List α → Plan
  | [] => planNone
  | a :: rest => planThen (f a) (planEach f rest)

/-! ### Cycles -/

/-- The bus word of a cycle to chip `k` (R63, R82). -/
def chipWord (k : Chip) (di rw : Bool) (d : Byte) : BusWord := busWord (Config.csEncode k) di rw d

/-- `waitReady(k)` (R93). -/
def waitOp (k : Chip) : EngineOp := .bus (.wait k)

/-- `Bus(k, di, rw, d)` (R82). -/
def cycleOp (k : Chip) (di rw : Bool) (d : Byte) : EngineOp := .bus (.cycle (chipWord k di rw d))

/-- A cycle behind its busy wait (R57, R95). -/
def waitedCycle (k : Chip) (di rw : Bool) (d : Byte) : List EngineOp := [waitOp k, cycleOp k di rw d]

/-- `writeCommand(c, k)` (R80, R95). -/
def writeCommand (c : Byte) (k : Chip) : List EngineOp := waitedCycle k false false c

/-! ### Addressing -/

/-- The page commands of `gotoXY`: to chip 0, then to chip 1, if the page differs from the cached one
or the cache is stale (R96, R98). -/
def pageCommands (p : BitVec 3) (c : Cache) : List EngineOp :=
  if p ≠ c.page ∨ c.pageStale = true then
    writeCommand (setPageByte p) .zero ++ writeCommand (setPageByte p) .one
  else []

/-- The cursor at `(x, y)` with its page addressed (R96). -/
def cacheAt (x y : Nat) (c : Cache) : Cache :=
  { c with x := BitVec.ofNat 8 x, y := BitVec.ofNat 6 y, page := pageOf y, pageStale := false }

/-- The column of `x` addressed too (R96). -/
def cacheHomed (x y : Nat) (c : Cache) : Cache :=
  { cacheAt x y c with lastColChip := chipOf x, colStale := false }

/-- `gotoXY(x, y)` (R96); out of range it does nothing (R97). -/
def gotoPlan (x y : Nat) : Plan := fun c =>
  if x ≥ Config.width ∨ y ≥ Config.height then ([], c)
  else
    (pageCommands (pageOf y) c ++ [.note (.cache (cacheAt x y c))]
      ++ writeCommand (setColumnByte (colOf x)) (chipOf x)
      ++ [.note (.cache (cacheHomed x y c))],
      cacheHomed x y c)

/-- `rehome()` (R100). -/
def rehomePlan : Plan := fun c =>
  if c.colStale = true ∨ c.pageStale = true ∨ chipOf c.x.toNat ≠ c.lastColChip then
    gotoPlan c.x.toNat c.y.toNat c
  else ([], c)

/-! ### Data read -/

/-- The two data reads of `readData` and its column re-address; the second read's byte is the one
that counts (R102). -/
def readOps (c : Cache) : List EngineOp :=
  let k := chipOf c.x.toNat
  waitedCycle k true true 0 ++ waitedCycle k true true 0
    ++ writeCommand (setColumnByte (colOf c.x.toNat)) k

/-- `readData()` with the cursor on the display (R102). -/
def readPlan : Plan := planThen rehomePlan (fun c => (readOps c, c))

/-! ### Data write -/

/-- The cursor one column on (R104). -/
def cacheNext (c : Cache) : Cache := { c with x := c.x + 1 }

/-- The aligned write of a byte: one data cycle, and the cursor moves on (R104). -/
def alignedPlan (invert : Bool) (d : Byte) : Plan := fun c =>
  (waitedCycle (chipOf c.x.toNat) true false (onBus invert d) ++ [.note (.cache (cacheNext c))],
    cacheNext c)

/-- A half of the split write: read, merge, write back to the same byte (R106, R107). -/
def halfPlan (k : Chip) (keep bits : Byte) : Plan :=
  planThen readPlan (planOps [waitOp k, .bus (.merge k keep bits)])

/-- The cursor restore of a split write (R109). -/
def restorePlan (x y : Nat) (page : BitVec 3) : Plan := fun c =>
  if x + 1 < Config.width then gotoPlan (x + 1) y c
  else
    planCache
      (fun c =>
        { c with x := 128, y := BitVec.ofNat 6 y, page := page, pageStale := true }) c

/-- The split write's upper half and cursor restore below page 7 (R107, R109). -/
def splitUpperPlan (x y : Nat) (page : BitVec 3) (o : Nat) (d : Byte) : Plan :=
  planThen (gotoPlan x (y + 8))
    (planThen (halfPlan (chipOf x) (~~~(loMask o)) (d >>> (8 - o))) (restorePlan x y page))

/-- The split write's upper half and cursor restore at page 7 (R108, R109). -/
def splitLastPlan (x y : Nat) : Plan :=
  planThen (planOps [.note (.spill (chipOf x) (colOf x))])
    (planCache
      (fun c =>
        { c with x := BitVec.ofNat 8 (x + 1), y := BitVec.ofNat 6 y, page := 7, colStale := true }))

/-- `splitWrite(d)` (R105 to R109). -/
def splitPlan (d : Byte) : Plan := fun c =>
  let x := c.x.toNat
  let y := c.y.toNat
  let o := yoff y
  planThen (halfPlan (chipOf x) (loMask o) (d <<< o))
    (if c.page.toNat < 7 then splitUpperPlan x y c.page o d else splitLastPlan x y) c

/-- `writeData(d)` (R104); past the last column it does nothing (R114). -/
def writePlan (invert : Bool) (d : Byte) : Plan := fun c =>
  if c.x.toNat ≥ Config.width then ([], c)
  else
    planThen rehomePlan
      (if yoff c.y.toNat = 0 then alignedPlan invert d else splitPlan d) c

/-- A raw cycle with `rw = 0` and its effect on the stale flags (R111, R112). -/
def rawPlan (cmd : Byte) (k : Chip) (di : Bool) : Plan :=
  planThen (planOps (waitedCycle k di false cmd)) (planCache (staleAfterRaw di cmd))

/-! ### Client sequences -/

/-- `clearPage(page, color)` for an existing page (R148). -/
def clearPagePlan (invert : Bool) (page : Nat) (color : Color) : Plan :=
  planThen (gotoPlan 0 (8 * page))
    (planEach (writePlan invert) (List.replicate Config.width (fillByte color)))

/-- `clearScreenUnsafe(color)` (R150). -/
def clearScreenPlan (invert : Bool) (color : Color) : Plan :=
  planEach (fun page => clearPagePlan invert page color) (List.range Config.npages)

/-- The 128 bytes of a buffer row (R48). -/
def bufRow (buf : Memory) (row : Nat) : List Byte :=
  (List.range Config.width).map (fun x => buf.read (bufAddr row x))

/-- `renderStatusStrip()`: raw bytes to chip 0, page 0, from column 0 (R155). -/
def stripPlan (client : Client) : Plan :=
  planThen (gotoPlan 0 0)
    (planEach (fun b => rawPlan b .zero true) (Config.statusStrip client.modes client.startline))

/-- `dumpBuffer()` (R153). -/
def dumpPlan (invert : Bool) (client : Client) : Plan :=
  planThen
    (planEach
      (fun p =>
        planThen (gotoPlan 0 (8 * p))
          (planEach (writePlan invert) (bufRow client.buf (client.startline.toNat / 8 + p))))
      (List.range Config.npages))
    (stripPlan client)

/-- The bus cycles of `init` (R141). -/
def initPlan (invert : Bool) : Plan :=
  planThen
    (planOps
      (writeCommand 0x3F .zero ++ writeCommand 0x3F .one ++ writeCommand 0xC0 .zero
        ++ writeCommand 0xC0 .one))
    (planThen (clearScreenPlan invert .white) (gotoPlan 0 0))

/-! ### Running the entries of `seq` -/

/-- The upper half of a split write at page 7 (R108): the environment draws whether another byte of
page 7 of the same chip changes, which one, and to what; a draw of the written column itself changes
nothing. The device's column is not known afterwards: it is drawn too (log 18). -/
def spillInto (k : Chip) (col : BitVec 6) (s : State) : State :=
  let choice := drawnByte s
  let s1 := afterDraw s
  let value := drawnByte s1
  let s2 := afterDraw s1
  let s3 := afterDraw s2
  let d := s3.dev k
  let c : BitVec 6 := choice.extractLsb' 0 6
  let ram :=
    if choice.extractLsb' 6 1 = 1#1 ∧ c ≠ col then d.ram.write (ramAddr 7 c) value else d.ram
  s3.setDev k { d with ram := ram, col := (drawnByte s2).extractLsb' 0 6 }

/-- What a piece of pure computation does (R81, R102, R108, R149). -/
def runNote (n : Note) (s : State) : State :=
  match n with
  | .cache c => { s with cache := c }
  | .deliver => { s with env := { s.env with reply := some (.byte (onBus s.invert s.dataIn)) } }
  | .spill k col => spillInto k col s
  | .clearBuffer => { s with client := { s.client with buf := [] } }

/-- The pure computation before the next cycle: what it leaves, the next thing to do on the bus, and
what follows that (R81). -/
def runNotes : List EngineOp → State → State × Option (BusOp × List EngineOp)
  | [], s => (s, none)
  | .bus b :: rest, s => (s, some (b, rest))
  | .note n :: rest, s => runNotes rest (runNote n s)

/-- The bus word of a bus operation (R82, R88, R106, R107). -/
def busOpWord (b : BusOp) (s : State) : BusWord :=
  match b with
  | .wait k => chipWord k false true 0
  | .cycle w => w
  | .merge k keep bits => chipWord k true false (onBus s.invert ((onBus s.invert s.dataIn &&& keep) ||| bits))

/-- Where the sequencer stands after a cycle: trailing pure computation belongs to the last cycle's
step, and an empty `seq` ends the operation (R81). -/
def leave (rest : List EngineOp) (s : State) : State :=
  match runNotes rest s with
  | (s1, none) => finish { s1 with seq := [] }
  | (_, some _) => { s with seq := rest }

/-- The sequencer after the cycle of `b`: a busy wait stays at the head until it is answered ready
(R93). -/
def afterBusOp (b : BusOp) (rest : List EngineOp) (s : State) : State :=
  match b with
  | .wait k => if s.statusIn.msb then { s with seq := .bus (.wait k) :: rest } else leave rest s
  | .cycle _ => leave rest s
  | .merge _ _ _ => leave rest s

end Sys2Proof.Machine
end

