-- ==== Sys2Proof/Machine/EngineRequests.lean ====
section
/-! DEFINITION. The meanings of the engine requests (R93 to R118). Each runs behind the context guard
and puts its bus cycles into `seq`; the step that issues it performs the first of them (R81). -/

namespace Sys2Proof.Machine

/-- WAIT_READY: status reads of the chip until one answers ready (R93). -/
def execWaitReady (k : Chip) (s : State) : Result :=
  guarded s fun s => .next (issue [waitOp k] s)

/-- SELECT_CHIP: `cs <- CS_ENCODE(k)`, with no bus cycle (R94). -/
def execSelectChip (k : Chip) (s : State) : Result :=
  guarded s fun s => .next (finish (selectLines k s))

/-- GOTO_XY (R96); out of range a silent no-op (R97). -/
def execGotoXY (x y : Byte) (s : State) : Result :=
  guarded s fun s => .next (issue (gotoPlan x.toNat y.toNat s.cache).1 s)

/-- READ_DATA (R102); past the last column it returns any byte and does nothing else (R101). -/
def execReadData (s : State) : Result :=
  guarded s fun s =>
    if s.cache.x.toNat ≥ Config.width then
      let s1 := afterDraw s
      .next (finish { s1 with env := { s1.env with reply := some (.byte (drawnByte s)) } })
    else .next (issue ((readPlan s.cache).1 ++ [.note .deliver]) s)

/-- WRITE_DATA: an aligned write, or a split write (R104 to R109); past the last column a silent
no-op (R114). -/
def execWriteData (d : Byte) (s : State) : Result :=
  guarded s fun s => .next (issue (writePlan s.invert d s.cache).1 s)

/-- DO_WRITE_COMMAND: a raw command or data byte, never complemented (R111, R112); raw reads and
reserved command bytes are refused (R113). -/
def execDoWriteCommand (cmd : Byte) (k : Chip) (di rw : Bool) (s : State) : Result :=
  guarded s fun s =>
    if rw then .refused .rawRead
    else if !di && !commandListed cmd then .refused .reservedCommand
    else .next (issue (rawPlan cmd k di s.cache).1 s)

end Sys2Proof.Machine
end

