-- ==== Sys2Proof/Machine/FrameBuffer.lean ====
section
/-! DEFINITION. The client requests on the frame buffer and the display (R141 to R156), and the button
handler (R157). -/

namespace Sys2Proof.Machine

/-- Whether the eight rows the visible window shows exist (R39, R48; log 19). -/
def windowExists (client : Client) : Bool :=
  decide (client.startline.toNat / 8 + Config.npages ≤ Config.pagesTotal)

/-- The state `init` starts its bus cycles from: `startline`, the buffer and `invert` set, the lines
driven as outputs (R141). -/
def initState (invert : Bool) (s : State) : State :=
  { s with
    lines := { s.lines with ddir := true }
    invert := invert
    client := { s.client with buf := [], startline := 0 } }

/-- INIT (R141). -/
def execInit (invert : Bool) (s : State) : Result :=
  guarded s fun s => .next (issue (initPlan invert s.cache).1 (initState invert s))

/-- The pixels `setDot` draws: strictly inside the display's first row and column (R144). -/
def dotInBounds (x y : Nat) : Bool :=
  decide (0 < x) && decide (x < Config.width) && decide (0 < y) && decide (y < Config.height)

/-- The buffer after `setDot` paints bit `b` of a cell (R143, R145). -/
def paintedBuf (buf : Memory) (row x b : Nat) (color : Color) : Memory :=
  buf.write (bufAddr row x) (paintBit color b (buf.read (bufAddr row x)))

/-- The byte `setDot` writes: the buffer's 8-row window from the pixel down, rows past the last one
read as 0 (R143, R146). -/
def dotByte (buf : Memory) (row x b : Nat) : Byte :=
  windowByte b (buf.read (bufAddr row x))
    (if row + 1 < Config.pagesTotal then buf.read (bufAddr (row + 1) x) else 0)

/-- The bus cycles of `setDot`: the cursor at the pixel, then the window byte (R143, R146). -/
def dotPlan (invert : Bool) (x y : Nat) (d : Byte) : Plan :=
  planThen (gotoPlan x y) (writePlan invert d)

/-- SET_DOT (R143 to R146); out of bounds a silent no-op (R144). -/
def execSetDot (x y : Byte) (color : Color) (s : State) : Result :=
  guarded s fun s =>
    if dotInBounds x.toNat y.toNat then
      let row := y.toNat / 8 + s.client.startline.toNat / 8
      let b := y.toNat % 8
      if row < Config.pagesTotal then
        let buf := paintedBuf s.client.buf row x.toNat b color
        .next
          (issue (dotPlan s.invert x.toNat y.toNat (dotByte buf row x.toNat b) s.cache).1
            { s with client := { s.client with buf := buf } })
      else .fault .noSuchAddress
    else .next (finish s)

/-- CLEAR_PAGE; a page of 8 or more is refused (R148). -/
def execClearPage (page : Byte) (color : Color) (s : State) : Result :=
  guarded s fun s =>
    if page.toNat ≥ Config.npages then .refused .badPage
    else .next (issue (clearPagePlan s.invert page.toNat color s.cache).1 s)

/-- CLEAR_SCREEN: every page, then the whole buffer (R149). -/
def execClearScreen (color : Color) (s : State) : Result :=
  guarded s fun s =>
    .next (issue ((clearScreenPlan s.invert color s.cache).1 ++ [.note .clearBuffer]) s)

/-- CLEAR_SCREEN_UNSAFE: every page; the buffer is untouched (R150). -/
def execClearScreenUnsafe (color : Color) (s : State) : Result :=
  guarded s fun s => .next (issue (clearScreenPlan s.invert color s.cache).1 s)

/-- `startline + delta`, if it stays within the bounds (R151). -/
def scrolledTo (startline delta : Byte) : Option (BitVec 8) :=
  let n := (startline.toNat : Int) + signedDelta delta
  if n < 0 ∨ n > (Config.startlineMax : Int) then none else some (BitVec.ofInt 8 n)

/-- SCROLL: a step of 8 rows and a repaint; at a bound a no-op; any other delta is refused (R151). -/
def execScroll (delta : Byte) (s : State) : Result :=
  guarded s fun s =>
    if signedDelta delta ≠ 8 ∧ signedDelta delta ≠ -8 then .refused .badScrollDelta
    else
      match scrolledTo s.client.startline delta with
      | none => .next (finish s)
      | some n =>
        let client := { s.client with startline := n }
        .next (issue (dumpPlan s.invert client s.cache).1 { s with client := client })

/-- DUMP_BUFFER: the visible window, then the status strip (R153, R155). -/
def execDumpBuffer (s : State) : Result :=
  guarded s fun s =>
    if windowExists s.client then .next (issue (dumpPlan s.invert s.client s.cache).1 s)
    else .fault .noSuchAddress

/-- GET_STARTLINE: the scroll offset, in any context (R156). -/
def execGetStartline (s : State) : Result :=
  .next (advance { s with env := { s.env with reply := some (.startline s.client.startline) } })

/-- The button handler up to its repaint: the flag cleared, the mode flags changed (R157). -/
def buttonHandler (s : State) : State :=
  { s with
    host := { s.host with btnIfg := false }
    client := { s.client with modes := Config.buttonAction s.client.modes } }

/-- ISR_BUTTON: taken, its repaint put into `seq`; it returns when `seq` is empty (R157, R167, R168).
Where it cannot be taken nothing happens (R166; log 14). -/
def execIsrButton (s : State) : Result :=
  if takeable .button s then
    let s1 := buttonHandler (takeInterrupt .button s)
    if windowExists s1.client then .next (issue (dumpPlan s1.invert s1.client s1.cache).1 s1)
    else .fault .noSuchAddress
  else .next s

end Sys2Proof.Machine
end

