-- ==== Sys2Proof/Machine/HostContext.lean ====
section
/-! DEFINITION. The context requests (R173 to R175) and the button press (R165). -/

namespace Sys2Proof.Machine

/-- DINT: `gie <- 0` (R173). -/
def execDint (s : State) : Result :=
  .next (advance { s with host := { s.host with gie := false } })

/-- EINT: `gie <- 1` (R174). -/
def execEint (s : State) : Result :=
  .next (advance { s with host := { s.host with gie := true } })

/-- LPM_WAIT: `gie <- 1`, then hold until `wake = 1`, then `wake <- 0` (R175). While it holds, `pc`
stays and `lpm` says so; the foreground's next step tries again (R169; log 15). -/
def execLpmWait (s : State) : Result :=
  if s.host.wake then
    .next (advance { s with host := { s.host with gie := true, wake := false, lpm := false } })
  else .next { s with host := { s.host with gie := true, lpm := true } }

/-- EV_BUTTON: `btnIfg <- 1`; a press while it is set is lost (R165). -/
def execEvButton (s : State) : Result := .next { s with host := { s.host with btnIfg := true } }

end Sys2Proof.Machine
end

