-- ==== Sys2Proof/Machine/TouchSampler.lean ====
section
/-! DEFINITION. The touch sampler: conversion start and completion (R119 to R122), the ADC handler's
debounce and filter transition (R123 to R131, R135), and the foreground's toggle and snapshot (R132,
R133). The timer and ADC handlers run to completion within the step that takes them (R123, R167). -/

namespace Sys2Proof.Machine

/-- `rawLast[a] <- raw` (R30, R125). -/
def storeRaw (a : Axis) (raw : TouchWord) (t : Touch) : Touch :=
  match a with
  | .x => { t with rawX := raw }
  | .y => { t with rawY := raw }

/-- `first[a] <- raw` (R34, R128). -/
def storeFirst (a : Axis) (raw : TouchWord) (t : Touch) : Touch :=
  match a with
  | .x => { t with firstX := raw }
  | .y => { t with firstY := raw }

/-- `filt[a]` becomes the filter step of itself and `raw` (R31, R129). -/
def storeFiltered (a : Axis) (raw : TouchWord) (t : Touch) : Touch :=
  match a with
  | .x => { t with xx := filterStep t.lowPassEnabled t.xx raw }
  | .y => { t with yy := filterStep t.lowPassEnabled t.yy raw }

/-- Step 2 of the ADC handler for an in-window sample, the counter being already advanced: discard,
latch or filter (R125, R128 to R130). -/
def acceptSample (p : TouchParams) (a : Axis) (raw : TouchWord) (t : Touch) : Touch :=
  if t.settleCounter.toNat < p.settleThreshold then t
  else if t.settleCounter.toNat ≤ p.settleThreshold + 1 then storeFirst a raw t
  else storeFiltered a raw t

/-- Steps 1 and 2 of the ADC handler (R125): store the reading, check the window, count, and accept an
in-window sample. -/
def takeSample (p : TouchParams) (t : Touch) : Touch :=
  let raw : TouchWord := t.adcMem.setWidth 16
  let t1 := storeRaw t.axis raw t
  let ok := windowOk p t.axis t1.rawX t1.rawY raw
  let t2 := { t1 with settleCounter := settleNext p ok t1.settleCounter }
  if ok then acceptSample p t.axis raw t2 else t2

/-- Step 3 of the ADC handler, unconditional: the other axis, its multiplexer setting, and the
converter idle, or converting again under `RESTART_ON_COMPLETE` (R125, R135). -/
def switchAxis (p : TouchParams) (t : Touch) : Touch :=
  { t with
    axis := otherAxis t.axis
    mux := Config.muxConfig (otherAxis t.axis)
    adc := if p.restartOnComplete then .converting else .idle }

/-- The ADC handler on the touch registers (R125). -/
def adcTransition (p : TouchParams) (t : Touch) : Touch := switchAxis p (takeSample p t)

/-- The body of the ADC handler (R125). -/
def adcHandler (s : State) : State :=
  { s with
    touch := adcTransition Config.touchParams s.touch
    host := { s.host with adcIfg := false, wake := true } }

/-- The body of the timer handler: a conversion starts if the converter is idle; otherwise the tick is
lost (R120). -/
def timerHandler (s : State) : State :=
  { s with
    touch := if s.touch.adc = .idle then { s.touch with adc := .converting } else s.touch
    host := { s.host with timerIfg := false } }

/-- ISR_TIMER: taken, run and returned from in one step (R120, R167). Where it cannot be taken nothing
happens (R166; log 14). -/
def execIsrTimer (s : State) : Result :=
  if takeable .timer s then
    .next (returnFromInterrupt (timerHandler (takeInterrupt .timer s)))
  else .next s

/-- ISR_ADC: taken, run and returned from in one step (R123, R125, R167). Where it cannot be taken
nothing happens (R166; log 14). -/
def execIsrAdc (s : State) : Result :=
  if takeable .adc s then
    .next (returnFromInterrupt (adcHandler (takeInterrupt .adc s)))
  else .next s

/-- EV_CONV_DONE: a running conversion completes (R121). A result the converter cannot produce is
refused; while no conversion runs the event is not enabled and nothing happens (log 14, log 16). -/
def execEvConvDone (raw : BitVec 16) (s : State) : Result :=
  if raw.toNat ≥ 2 ^ Config.adcBits then .refused .badEvent
  else if s.touch.adc = .converting then
    .next
      { s with
        touch := { s.touch with adcMem := raw.setWidth Config.adcBits, adc := .done }
        host := { s.host with adcIfg := true } }
  else .next s

/-- EV_TIMER: `timerIfg <- 1` (R122). -/
def execEvTimer (s : State) : Result := .next { s with host := { s.host with timerIfg := true } }

/-- TOGGLE_LOWPASS, with interrupts disabled (R132). -/
def execToggleLowpass (s : State) : Result :=
  if sharedAllowed s then
    .next
      (advance { s with touch := { s.touch with lowPassEnabled := !s.touch.lowPassEnabled } })
  else .fault .sharedWriteWithInterruptsEnabled

/-- What a snapshot returns (R133, R35). -/
def snapshotOf (t : Touch) : SnapshotData :=
  { xx := t.xx
    yy := t.yy
    valid := validOf Config.settleThreshold t.settleCounter
    settleCounter := t.settleCounter
    firstX := t.firstX
    firstY := t.firstY
    lowPassEnabled := t.lowPassEnabled }

/-- SNAPSHOT, with interrupts disabled (R133). -/
def execSnapshot (s : State) : Result :=
  if sharedAllowed s then
    .next (advance { s with env := { s.env with reply := some (.snapshot (snapshotOf s.touch)) } })
  else .fault .sharedReadWithInterruptsEnabled

end Sys2Proof.Machine
end

