-- ==== Sys2Proof/Machine/Dispatch.lean ====
section
/-! DEFINITION. One arm per instruction, each a direct call of its meaning. -/

namespace Sys2Proof.Machine

/-- The meaning of an instruction. -/
def exec (i : Instr) (s : State) : Host.Outcome State Fault Refusal :=
  match i with
  | .cmdDisplayOn cs => Sys2Proof.Machine.execCmdDisplayOn cs s
  | .cmdDisplayOff cs => Sys2Proof.Machine.execCmdDisplayOff cs s
  | .cmdSetStartLine cs => Sys2Proof.Machine.execCmdSetStartLine cs s
  | .cmdSetPage cs page => Sys2Proof.Machine.execCmdSetPage cs page s
  | .cmdSetColumn cs col => Sys2Proof.Machine.execCmdSetColumn cs col s
  | .statusRead cs d => Sys2Proof.Machine.execStatusRead cs d s
  | .dataWrite cs d => Sys2Proof.Machine.execDataWrite cs d s
  | .dataRead cs d => Sys2Proof.Machine.execDataRead cs d s
  | .waitReady chip => Sys2Proof.Machine.execWaitReady chip s
  | .selectChip chip => Sys2Proof.Machine.execSelectChip chip s
  | .gotoXY x y => Sys2Proof.Machine.execGotoXY x y s
  | .readData => Sys2Proof.Machine.execReadData s
  | .writeData d => Sys2Proof.Machine.execWriteData d s
  | .doWriteCommand cmd chip di rw => Sys2Proof.Machine.execDoWriteCommand cmd chip di rw s
  | .toggleLowpass => Sys2Proof.Machine.execToggleLowpass s
  | .snapshot => Sys2Proof.Machine.execSnapshot s
  | .dint => Sys2Proof.Machine.execDint s
  | .eint => Sys2Proof.Machine.execEint s
  | .lpmWait => Sys2Proof.Machine.execLpmWait s
  | .init invert => Sys2Proof.Machine.execInit invert s
  | .setDot x y color => Sys2Proof.Machine.execSetDot x y color s
  | .clearPage page color => Sys2Proof.Machine.execClearPage page color s
  | .clearScreen color => Sys2Proof.Machine.execClearScreen color s
  | .clearScreenUnsafe color => Sys2Proof.Machine.execClearScreenUnsafe color s
  | .scroll delta => Sys2Proof.Machine.execScroll delta s
  | .dumpBuffer => Sys2Proof.Machine.execDumpBuffer s
  | .getStartline => Sys2Proof.Machine.execGetStartline s
  | .evConvDone raw => Sys2Proof.Machine.execEvConvDone raw s
  | .evTimer => Sys2Proof.Machine.execEvTimer s
  | .evButton => Sys2Proof.Machine.execEvButton s
  | .isrTimer => Sys2Proof.Machine.execIsrTimer s
  | .isrAdc => Sys2Proof.Machine.execIsrAdc s
  | .isrButton => Sys2Proof.Machine.execIsrButton s

end Sys2Proof.Machine
end

