-- ==== Sys2Proof/Machine/Sequencer.lean ====
section
/-! DEFINITION. How the machine moves: the engine performs the next bus cycle of `seq` (R81), the
foreground fetches its next request (R75, R76), an interrupt is taken (R167), the environment acts
(R171). Each move runs decoded instructions through `exec`. Also where an instruction is placed for the
next step to run it. -/

namespace Sys2Proof.Machine

/-! ### The engine -/

/-- One bus cycle by its word: the chip-select lines take the word's pattern (R82, R94) and the word's
instruction runs. A command byte that spells no instruction reaches the device as R90 says, if a chip is
selected (R91; log 23). R90 and R92 both name a fault where that chip is busy; that R90's is answered, with
no draw of the busy bit, is the model's choice (log 28). -/
def runBusWord (w : BusWord) (s : State) : Result :=
  match decodeBus w with
  | .ok i => exec i (driveSelect (selectOf w) s)
  | .error _ =>
    match chipOfSelect (selectOf w) with
    | none => .fault .unmodelledChipSelect
    | some _ => .fault .unmodelledCommand

/-- One engine step: the pure computation before the next cycle, and that cycle (R81). -/
def engineStep (s : State) : Result :=
  match runNotes s.seq s with
  | (s1, none) => .next (finish { s1 with seq := [] })
  | (s1, some (b, rest)) =>
    onNext (runBusWord (busOpWord b s1) s1) fun s2 => .next (afterBusOp b rest s2)

/-- The step that issues an instruction: its meaning, and the first cycle of the engine operation it
started, if it started one (R81). -/
def issueStep (i : Instr) (s : State) : Result :=
  onNext (exec i s) fun t => if t.seq.isEmpty then .next t else engineStep t

/-! ### The foreground -/

/-- The request word the foreground fetches next, if its list has one (R75). -/
def nextWord (s : State) : Option RequestWord := s.env.program[s.host.pc]?

/-- The foreground runs its next request. A word that spells no request, or an event or handler code,
is refused (R73, R76, R77); past the end of the list the run is over and nothing happens (R75; log 3). -/
def requestStep (s : State) : Result :=
  match nextWord s with
  | none => .next s
  | some w =>
    match decodeRequest w with
    | .error _ => .refused .badRequest
    | .ok i => if i.isRequest then issueStep i s else .refused .badRequest

/-- The running context moves: the engine operation in progress (R81), else the foreground's next
request; a handler with nothing left to do returns (R167; log 20). -/
def runStep (s : State) : Result :=
  if s.seq.isEmpty then
    if s.host.ctx = .fg then requestStep s else .next (returnFromInterrupt s)
  else engineStep s

/-! ### The other agents -/

/-- The instruction that names a source's handler (R164). -/
def handlerInstr : Source → Instr
  | .timer => .isrTimer
  | .adc => .isrAdc
  | .button => .isrButton

/-- The instruction that names an environment event (R76). -/
def eventInstr : EnvEvent → Instr
  | .convDone raw => .evConvDone raw
  | .timer => .evTimer
  | .button => .evButton

/-- An interrupt is taken, if it may be (R166, R167; log 14). -/
def interruptStep (src : Source) (s : State) : Result :=
  if takeable src s then issueStep (handlerInstr src) s else .next s

/-- One move of the machine, by whose turn it is (R171). -/
def move (t : Turn) (s : State) : Result :=
  match t with
  | .run => runStep s
  | .interrupt src => interruptStep src s
  | .event e => exec (eventInstr e) s

/-- Whose turn is next: the agenda's first; past its end nothing comes from outside and the running
context moves (log 1). -/
def nextTurn (s : State) : Turn :=
  match s.env.agenda with
  | [] => .run
  | t :: _ => t

/-- The state with the agenda's first turn taken off. -/
def popTurn (s : State) : State := { s with env := { s.env with agenda := s.env.agenda.tail } }

/-- What a machine whose outcome registers are set answers: they are never cleared (R37; log 13). -/
def halted (s : State) : Option Result :=
  match s.host.faults with
  | f :: _ => some (.fault f)
  | [] => if s.host.refused then some (.refused .alreadyRefused) else none

/-- One step: the move of whoever's turn it is, unless the machine has stopped. -/
def machineStep (s : State) : Result :=
  match halted s with
  | some r => r
  | none => move (nextTurn s) (popTurn s)

/-! ### Placing an instruction (log 3, log 21) -/

/-- The machine not stopped, and the next turn given to `t`. -/
def giveTurn (t : Turn) (s : State) : State :=
  { s with
    host := { s.host with faults := [], refused := false }
    env := { s.env with agenda := t :: s.env.agenda } }

/-- A bus word as the engine's next cycle, the busy wait before it answered. -/
def placeBusWord (w : BusWord) (s : State) : State :=
  let s1 := giveTurn .run { s with seq := [.bus (.cycle w)] }
  match chipOfSelect (selectOf w) with
  | none => s1
  | some k => s1.setDev k { s1.dev k with ready := true }

/-- A request list with `w` at index `pc`. -/
def programWith (program : List RequestWord) (pc : Nat) (w : RequestWord) : List RequestWord :=
  (program ++ List.replicate (pc + 1 - program.length) 0).set pc w

/-- A request word as the foreground's next request. -/
def placeRequest (w : RequestWord) (s : State) : State :=
  giveTurn .run
    { s with
      seq := []
      host := { s.host with ctx := .fg }
      env := { s.env with program := programWith s.env.program s.host.pc w } }

/-- An environment event as the next thing that happens. -/
def placeEvent (e : EnvEvent) (s : State) : State := giveTurn (.event e) s

/-- The pending flag of a source set (R164). -/
def setPending (src : Source) (h : HostCtx) : HostCtx :=
  match src with
  | .timer => { h with timerIfg := true }
  | .adc => { h with adcIfg := true }
  | .button => { h with btnIfg := true }

/-- An interrupt that can be taken, as the next thing that happens. -/
def placeInterrupt (src : Source) (s : State) : State :=
  giveTurn (.interrupt src)
    { s with seq := [], host := setPending src { s.host with ctx := .fg, gie := true } }

/-- An instruction placed where the next step takes it from: a bus word in `seq`, a request in the
request list, an event or an interrupt on the agenda. -/
def placeCode (c : Code) (s : State) : State :=
  match c with
  | .bus w => placeBusWord w s
  | .request w =>
    match decodeRequest w with
    | .ok (.evConvDone raw) => placeEvent (.convDone raw) s
    | .ok .evTimer => placeEvent .timer s
    | .ok .evButton => placeEvent .button s
    | .ok .isrTimer => placeInterrupt .timer s
    | .ok .isrAdc => placeInterrupt .adc s
    | .ok .isrButton => placeInterrupt .button s
    | _ => placeRequest w s

end Sys2Proof.Machine
end

