-- ==== Sys2Proof/Machine/Step.lean ====
section
/-! DEFINITION. One step of the machine, and where the host places an instruction for it. -/

namespace Sys2Proof.Machine

/-- One step (R81, R167, R171). -/
def step (s : State) : Host.Outcome State Fault Refusal := machineStep s

/-- The state with an instruction placed where the next step runs it from (log 3, log 21). -/
def State.withFetchWord (s : State) (nbits w : Nat) : State :=
  match codeOfTable nbits w with
  | none => s
  | some c => placeCode c s

end Sys2Proof.Machine
end

