-- ==== Sys2Proof/Machine/Display.lean ====
section
/-! DEFINITION. What can be observed of the display: the bytes of display RAM, their logical values
(R103), the pixel a viewer sees (R89), and the rows of the frame buffer (R48). Nothing here is read by a
meaning. -/

namespace Sys2Proof.Machine

/-- The byte of display RAM of chip `k` at a page and a column (R21, R45). -/
def ramByte (s : State) (k : Chip) (page : BitVec 3) (col : BitVec 6) : Byte :=
  (s.dev k).ram.read (ramAddr page col)

/-- The logical byte `L(k, p, c)` (R103). -/
def logicalByte (s : State) (k : Chip) (page : BitVec 3) (col : BitVec 6) : Byte :=
  onBus s.invert (ramByte s k page col)

/-- The logical byte under display column `x` in a page (R47, R103). -/
def columnByte (s : State) (x : Nat) (page : BitVec 3) : Byte :=
  logicalByte s (chipOf x) page (colOf x)

/-- The display column that column `c` of chip `k` shows (R2, R47). -/
def displayColumn (k : Chip) (c : BitVec 6) : Nat :=
  match k with
  | .zero => c.toNat
  | .one => Config.chipCols + c.toNat

/-- The logical display pixel at column `x`, row `y` (R47, R103, R147). -/
def logicalPixel (s : State) (x y : Nat) : Bool := (columnByte s x (pageOf y)).getLsbD (yoff y)

/-- The byte of the frame buffer at a row and a column (R38, R45). -/
def bufByte (s : State) (row col : Nat) : Byte := s.client.buf.read (bufAddr row col)

/-- The pixel shown at display row `y` of column `x`: nothing while the chip is OFF, else the RAM bit
that its start line maps to the row (R89). -/
def shownPixel (s : State) (x y : Nat) : Option Bool :=
  let d := s.dev (chipOf x)
  let l := (y + d.start.toNat) % 64
  if d.on then some ((ramByte s (chipOf x) (pageOf l) (colOf x)).getLsbD (yoff l)) else none

end Sys2Proof.Machine
end

