-- ==== Sys2Proof/Safety.lean ====
section
/-! DEFINITION. What counts as a safe run, in the terms the claims use: when the engine may start, what
a run of the engine is, the invariants of the machine, and the fairness premises of R178. -/

namespace Sys2Proof.Machine

/-! ### Running the engine -/

/-- `n` engine steps (R81). -/
def engineRun : Nat → State → Result
  | 0, s => .next s
  | n + 1, s => onNext (engineStep s) (engineRun n)

/-- The engine operation in progress in `t` runs to its end, `seq` empty, in a state where `P` holds. -/
def RunsTo (t : State) (P : State → Prop) : Prop :=
  ∃ n u, engineRun n t = .next u ∧ u.seq = [] ∧ P u

/-- The first `n` bytes the environment draws have bit 7 clear: each is a ready answer to a status read
(a bounded form of R178's premise F1). -/
def AnswersReady (n : Nat) (s : State) : Prop :=
  n ≤ s.env.draws.length ∧ ∀ b ∈ s.env.draws.take n, b.msb = false

/-- Enough ready answers for every request of R76. -/
def ChipsAnswer (s : State) : Prop := AnswersReady 4096 s

/-- The foreground may start an engine operation: it runs with `gie = 0` and the engine is idle
(R116, R192). -/
def EngineFree (s : State) : Prop :=
  s.seq = [] ∧ s.host.ctx = .fg ∧ s.host.gie = false

/-- The number of bus operations in a list of `seq` entries (R81, R118). -/
def busOpCount : List EngineOp → Nat
  | [] => 0
  | .bus _ :: rest => busOpCount rest + 1
  | .note _ :: rest => busOpCount rest

/-- The command and data cycles of a list of `seq` entries, as bus words, a merged write standing for
itself as `none` (R142, R118). -/
def cycleTrace : List EngineOp → List (Option BusWord)
  | [] => []
  | .bus (.wait _) :: rest => cycleTrace rest
  | .bus (.cycle w) :: rest => some w :: cycleTrace rest
  | .bus (.merge _ _ _) :: rest => none :: cycleTrace rest
  | .note _ :: rest => cycleTrace rest

/-- What an engine operation of the foreground leaves alone: the touch registers, the request list and the
agenda, and of the host context everything but `pc`, which moves on by one (R41, R81). -/
def EngineFrame (s u : State) : Prop :=
  u.touch = s.touch ∧ u.host = { s.host with pc := s.host.pc + 1 }
    ∧ u.env.program = s.env.program ∧ u.env.agenda = s.env.agenda

/-- What an engine operation that is no client request and returns nothing leaves alone besides: the client
state, `invert` and the last reply. -/
def ClientFrame (s u : State) : Prop :=
  u.client = s.client ∧ u.invert = s.invert ∧ u.env.reply = s.env.reply

/-- The same device registers and display RAM. -/
def SameDevice (d e : Device) : Prop :=
  e.ram = d.ram ∧ e.page = d.page ∧ e.col = d.col ∧ e.on = d.on ∧ e.start = d.start
    ∧ e.latch = d.latch

/-- The device registers that no addressing and no data write touches. -/
def DeviceFrame (d e : Device) : Prop := e.on = d.on ∧ e.start = d.start ∧ e.latch = d.latch

/-- What one bus cycle to chip `k` leaves alone: the other device, the bookkeeping, `seq`, `invert`, the
touch registers, the host context, the client state, the request list, the agenda and the reply
(R82, R83). -/
def CycleFrame (k : Chip) (s t : State) : Prop :=
  (∀ j, j ≠ k → t.dev j = s.dev j) ∧ t.cache = s.cache ∧ t.seq = s.seq ∧ t.invert = s.invert
    ∧ t.touch = s.touch ∧ t.host = s.host ∧ t.client = s.client
    ∧ t.env.program = s.env.program ∧ t.env.agenda = s.env.agenda ∧ t.env.reply = s.env.reply

/-- Chip `k` is not busy for the next command or data cycle: it is known to be ready (R88), or its busy bit
is drawn 0 (R92; log 6). -/
def NotBusy (k : Chip) (s : State) : Prop :=
  (s.dev k).ready = true ∨ (drawnByte s).msb = false

/-- The lines after a write cycle (R82). -/
def writeLines (s : State) (di : Bool) (d : Byte) : Lines :=
  { cs := s.lines.cs, di := di, rw := false, dport := d, ddir := true }

/-- The lines after a read cycle (R82). -/
def readLines (s : State) (di : Bool) : Lines :=
  { cs := s.lines.cs, di := di, rw := true, dport := s.lines.dport, ddir := false }

/-- The display shows the visible window of a frame buffer, but for the bytes of the status strip at the
left of chip 0's page 0, which stand there as the strip gives them (R153 to R155). -/
def ShowsBuffer (client : Client) (u : State) : Prop :=
  let strip := Config.statusStrip client.modes client.startline
  (∀ k p c, ¬(k = .zero ∧ p = 0 ∧ c.toNat < strip.length) →
      logicalByte u k p c
        = client.buf.read (bufAddr (client.startline.toNat / 8 + p.toNat) (displayColumn k c)))
    ∧ ∀ c : BitVec 6, c.toNat < strip.length → ramByte u .zero 0 c = strip.getD c.toNat 0

/-- The cursor a repaint leaves: home, its column stale if the strip has any byte (R155). -/
def StripCursor (client : Client) (c : Cache) : Prop :=
  c = { x := 0
        y := 0
        page := 0
        pageStale := false
        colStale := !(Config.statusStrip client.modes client.startline).isEmpty
        lastColChip := .zero }

/-- The fields of every request code: the bits of the low 24 that R76 names (R73, R74). -/
def requestFields : List (Byte × BitVec 24) :=
  [ (0x01, 0x000001), (0x02, 0x000001), (0x03, 0x00FFFF), (0x04, 0), (0x05, 0x0000FF)
  , (0x06, 0x0007FF), (0x10, 0), (0x11, 0), (0x18, 0), (0x19, 0), (0x1A, 0), (0x20, 0x000001) ]
  ++ [ (0x21, 0x01FFFF), (0x22, 0x0100FF), (0x23, 0x010000), (0x24, 0x010000), (0x25, 0x0000FF)
  , (0x26, 0), (0x27, 0), (0xE1, 0x00FFFF), (0xE2, 0), (0xE3, 0), (0xF1, 0), (0xF2, 0), (0xF3, 0) ]

/-- The waits and cycles of a list of entries, in order, without the bookkeeping between them. -/
def busOpsOf : List EngineOp → List BusOp
  | [] => []
  | .bus b :: rest => b :: busOpsOf rest
  | .note _ :: rest => busOpsOf rest

/-- Write cycles, each by its chip, DI and byte, each right behind a busy wait on its chip (R57, R95). -/
def behindWaits : List (Chip × Bool × Byte) → List BusOp
  | [] => []
  | (k, di, d) :: rest => .wait k :: .cycle (chipWord k di false d) :: behindWaits rest

/-- The write cycles of one page fill: its addressing and its 128 bytes (R142, R148). -/
def pageFillTrace (page : BitVec 3) (d : Byte) : List (Chip × Bool × Byte) :=
  [ (.zero, false, setPageByte page), (.one, false, setPageByte page), (.zero, false, 0x40) ]
  ++ List.replicate 64 (.zero, true, d)
  ++ [ (.one, false, 0x40) ]
  ++ List.replicate 64 (.one, true, d)

/-- The foreground runs these requests one after another from `s` and stands at `u`, the engine idle after
each (R75, R81). -/
def RunsRequests : List Instr → State → State → Prop
  | [], s, u => u = s
  | i :: rest, s, u =>
    ∃ t n v, exec i s = .next t ∧ engineRun n t = .next v ∧ v.seq = [] ∧ RunsRequests rest v u

/-! ### Runs of the touch sampler -/

/-- `rawLast[a]` (R30). -/
def rawOf (t : Touch) : Axis → TouchWord
  | .x => t.rawX
  | .y => t.rawY

/-- `filt[a]` (R31). -/
def filtOf (t : Touch) : Axis → TouchWord
  | .x => t.xx
  | .y => t.yy

/-- `first[a]` (R34). -/
def firstOf (t : Touch) : Axis → TouchWord
  | .x => t.firstX
  | .y => t.firstY

/-- The touch registers after ADC handler runs on these conversion results (R119, R125). -/
def samplesRun (p : TouchParams) : List (BitVec Config.adcBits) → Touch → Touch
  | [], t => t
  | raw :: rest, t => samplesRun p rest (adcTransition p { t with adcMem := raw })

/-- Every one of these samples is judged in window (R124). -/
def AllInWindow (p : TouchParams) : List (BitVec Config.adcBits) → Touch → Prop
  | [], _ => True
  | raw :: rest, t =>
    windowOk p t.axis (storeRaw t.axis (raw.setWidth 16) t).rawX
        (storeRaw t.axis (raw.setWidth 16) t).rawY (raw.setWidth 16) = true
      ∧ AllInWindow p rest (adcTransition p { t with adcMem := raw })

/-- The filter applied `n` times to a held sample (R136). -/
def filterRun (b : TouchWord) : Nat → TouchWord → TouchWord
  | 0, f => f
  | n + 1, f => filterRun b n (filterStep true f b)

/-! ### Non-interference -/

/-- A state with other touch registers. -/
def withTouch (x : Touch) (s : State) : State := { s with touch := x }

/-- An outcome with other touch registers in its next state. -/
def outcomeWithTouch (x : Touch) (r : Result) : Result :=
  match r with
  | .next t => .next (withTouch x t)
  | .fault e => .fault e
  | .refused e => .refused e

/-! ### Cursor agreement (R99) -/

/-- The bookkeeping of the engine beside the devices' address registers. -/
structure Addressing where
  cache : Cache
  page0 : BitVec 3
  page1 : BitVec 3
  col0 : BitVec 6
  col1 : BitVec 6
  deriving DecidableEq, Repr

/-- The addressing of a state. -/
def addressing (s : State) : Addressing :=
  { cache := s.cache
    page0 := s.dev0.page
    page1 := s.dev1.page
    col0 := s.dev0.col
    col1 := s.dev1.col }

/-- The column register of a chip. -/
def Addressing.col (a : Addressing) : Chip → BitVec 6
  | .zero => a.col0
  | .one => a.col1

/-- The addressing with a chip's column register at `c`. -/
def Addressing.setCol (a : Addressing) (k : Chip) (c : BitVec 6) : Addressing :=
  match k with
  | .zero => { a with col0 := c }
  | .one => { a with col1 := c }

/-- The addressing with a chip's page register at `p`. -/
def Addressing.setPage (a : Addressing) (k : Chip) (p : BitVec 3) : Addressing :=
  match k with
  | .zero => { a with page0 := p }
  | .one => { a with page1 := p }

/-- The cursor invariant (R99). -/
def Agrees (a : Addressing) : Prop :=
  (a.cache.pageStale = false → a.page0 = a.cache.page ∧ a.page1 = a.cache.page)
    ∧ (a.cache.colStale = false → a.cache.x.toNat < Config.width →
        chipOf a.cache.x.toNat = a.cache.lastColChip →
        a.col (chipOf a.cache.x.toNat) = colOf a.cache.x.toNat)

/-- What a bus word does to the address registers (R84 to R87). -/
def addressAfterWord (w : BusWord) (a : Addressing) : Addressing :=
  match chipOfSelect (selectOf w), decodeBus w with
  | some k, .ok (.cmdSetPage _ p) => a.setPage k p
  | some k, .ok (.cmdSetColumn _ c) => a.setCol k c
  | some k, .ok (.dataWrite _ _) => a.setCol k (a.col k + 1)
  | some k, .ok (.dataRead _ _) => a.setCol k (a.col k + 1)
  | _, _ => a

/-- The cursor invariant holds once the entries of `seq` have run: whatever column a split write at page
7 leaves the device at (R99, R108). -/
def AgreesAfter : List EngineOp → Addressing → Prop
  | [], a => Agrees a
  | .bus (.wait _) :: rest, a => AgreesAfter rest a
  | .bus (.cycle w) :: rest, a => AgreesAfter rest (addressAfterWord w a)
  | .bus (.merge k _ _) :: rest, a => AgreesAfter rest (a.setCol k (a.col k + 1))
  | .note (.cache c) :: rest, a => AgreesAfter rest { a with cache := c }
  | .note .deliver :: rest, a => AgreesAfter rest a
  | .note (.spill k _) :: rest, a => ∀ c, AgreesAfter rest (a.setCol k c)
  | .note .clearBuffer :: rest, a => AgreesAfter rest a

/-- The cursor invariant of the machine: it holds whenever the engine is idle, and will hold when the
operation in progress ends (R99). -/
def CursorInv (s : State) : Prop := AgreesAfter s.seq (addressing s)

/-! ### Busy waits (R57, R90 to R92) -/

/-- Every entry of `seq` that puts a command or data cycle on the bus spells an instruction, selects one
chip, and finds that chip known to be ready: `r` says which chips are. -/
def Waited : (Chip → Bool) → List EngineOp → Prop
  | _, [] => True
  | r, .note _ :: rest => Waited r rest
  | r, .bus (.wait k) :: rest => Waited (fun j => r j || j == k) rest
  | r, .bus (.cycle w) :: rest =>
    ∃ k i, chipOfSelect (selectOf w) = some k ∧ decodeBus w = .ok i ∧ r k = true
      ∧ Waited (fun j => r j && j != k) rest
  | r, .bus (.merge k _ _) :: rest => r k = true ∧ Waited (fun j => r j && j != k) rest

/-- The engine's cycles are all behind their busy waits (R57, R95). -/
def WaitedInv (s : State) : Prop := Waited (fun k => (s.dev k).ready) s.seq

/-! ### Ranges and forms -/

/-- Every byte space is in the model's canonical form, with its keys below the number of bytes R45 gives the space
(the form and the keys are the model's: log 5). -/
def MemoryInv (s : State) : Prop :=
  (Memory.wf s.dev0.ram ∧ Memory.within 512 s.dev0.ram)
    ∧ (Memory.wf s.dev1.ram ∧ Memory.within 512 s.dev1.ram)
    ∧ (Memory.wf s.client.buf ∧ Memory.within 4096 s.client.buf)

/-- `startline` is a multiple of 8, bounded to [0, 192] (R39). -/
def StartlineInv (s : State) : Prop :=
  s.client.startline.toNat % 8 = 0 ∧ s.client.startline.toNat ≤ Config.startlineMax

/-- A legal cursor: `x` at most 128, `page = y div 8` (R16). -/
def CursorLegal (c : Cache) : Prop :=
  c.x.toNat ≤ Config.width ∧ c.page = pageOf c.y.toNat

/-- The cursor is legal, and so is every one the operation in progress will set (R16). -/
def CursorRangeInv (s : State) : Prop :=
  CursorLegal s.cache ∧ ∀ c, EngineOp.note (.cache c) ∈ s.seq → CursorLegal c

/-- The touch registers' legal values: the counter at most `T + 2` (R33), every raw, filtered and
latched coordinate a conversion result's size (R129). -/
def TouchInv (s : State) : Prop :=
  s.touch.settleCounter.toNat ≤ Config.settleThreshold + 2
    ∧ s.touch.rawX.toNat < 2 ^ Config.adcBits ∧ s.touch.rawY.toNat < 2 ^ Config.adcBits
    ∧ s.touch.xx.toNat < 2 ^ Config.adcBits ∧ s.touch.yy.toNat < 2 ^ Config.adcBits
    ∧ s.touch.firstX.toNat < 2 ^ Config.adcBits ∧ s.touch.firstY.toNat < 2 ^ Config.adcBits

/-- While an engine operation runs its context keeps interrupts out; between steps the context is the
foreground or the button handler, the latter with `gie = 0` and an operation to finish
(R116, R168, R192). -/
def ContextInv (s : State) : Prop :=
  (s.host.ctx = .fg ∨ (s.host.ctx = .isrButton ∧ s.host.gie = false ∧ s.seq ≠ []))
    ∧ (s.seq ≠ [] → s.host.gie = false)

/-! ### Runs and fairness (R178) -/

/-- An infinite run of the machine: its states, and whose turn it is at each step. -/
def IsRun (state : Nat → State) (turn : Nat → Turn) : Prop :=
  ∀ n, move (turn n) (state n) = .next (state (n + 1))

/-- F1: every chip that is being polled eventually answers ready (R178). -/
def ChipsBecomeReady (state : Nat → State) : Prop :=
  ∀ n k rest, (state n).seq = .bus (.wait k) :: rest → ∃ m, n ≤ m ∧ ((state m).dev k).ready = true

/-- F2: the timer expires infinitely often, and a conversion result eventually follows every conversion
start (R178). -/
def EnvironmentActs (state : Nat → State) (turn : Nat → Turn) : Prop :=
  (∀ n, ∃ m, n ≤ m ∧ turn m = .event .timer)
    ∧ ∀ n, (state n).touch.adc = .converting →
        ∃ m raw, n ≤ m ∧ raw.toNat < 2 ^ Config.adcBits ∧ turn m = .event (.convDone raw)

/-- F3: an interrupt that stays takeable is eventually taken (R178). -/
def InterruptsTaken (state : Nat → State) (turn : Nat → Turn) : Prop :=
  ∀ n src, (∀ m, n ≤ m → takeable src (state m) = true) → ∃ m, n ≤ m ∧ turn m = .interrupt src

end Sys2Proof.Machine
end

