-- ==== Sys2Proof/WellFormed.lean ====
section
/-! DEFINITION. Which instructions carry only operands the spec gives a meaning: the checks are those
the spec makes on an instruction's operands alone, before it looks at any state. An instruction that
fails one still decodes; running it faults or is refused under the name the spec gives the check. -/

namespace Sys2Proof

/-- `WellFormed i`: the operands of `i` are ones the spec gives a meaning: a bus word selects one
chip (R71); a raw command writes, and writes a listed byte (R113); a page exists (R148); a scroll
moves by 8 rows either way (R151); a conversion result fits the converter (R121). -/
def WellFormed : Instr → Bool
  | .cmdDisplayOn cs => (chipOfSelect cs).isSome
  | .cmdDisplayOff cs => (chipOfSelect cs).isSome
  | .cmdSetStartLine cs => (chipOfSelect cs).isSome
  | .cmdSetPage cs _ => (chipOfSelect cs).isSome
  | .cmdSetColumn cs _ => (chipOfSelect cs).isSome
  | .statusRead cs _ => (chipOfSelect cs).isSome
  | .dataWrite cs _ => (chipOfSelect cs).isSome
  | .dataRead cs _ => (chipOfSelect cs).isSome
  | .waitReady _ => true
  | .selectChip _ => true
  | .gotoXY _ _ => true
  | .readData => true
  | .writeData _ => true
  | .doWriteCommand cmd _ di rw => !rw && (di || commandListed cmd)
  | .toggleLowpass => true
  | .snapshot => true
  | .dint => true
  | .eint => true
  | .lpmWait => true
  | .init _ => true
  | .setDot _ _ _ => true
  | .clearPage page _ => decide (page.toNat < Config.npages)
  | .clearScreen _ => true
  | .clearScreenUnsafe _ => true
  | .scroll delta => delta == 8 || delta == 0xF8
  | .dumpBuffer => true
  | .getStartline => true
  | .evConvDone raw => decide (raw.toNat < 2 ^ Config.adcBits)
  | .evTimer => true
  | .evButton => true
  | .isrTimer => true
  | .isrAdc => true
  | .isrButton => true

end Sys2Proof
end

