-- ==== Sys2Proof/Certificates/Slice0/Obligations.lean ====
section
/-! DEFINITION. What the model is claimed to do, stated from the numbered rules of the spec. -/

open Sys2Proof Sys2Proof.Machine

/-! ### Encoding -/

/-- Decoding the word of any instruction gives that instruction back, with every operand at every value its
field admits (R63, R65, R72 to R74, R76). -/
def Obligations.DecodeOfEncodeIsTheInstruction : Prop :=
  ∀ i : Instr, decode (encode i) = .ok i

/-- A word has one meaning: a word that decodes to an instruction is the word of that instruction. -/
def Obligations.EncodeOfDecodeIsTheWord : Prop :=
  ∀ (c : Code) (i : Instr), decode c = .ok i → encode i = c

/-- R70, R73, R76, R77: a request word spells a request exactly when R76 lists its code and every bit that the
code's row does not name is 0; the foreground refuses any other word, and an event or handler code, as a
bad request; a command byte has a meaning exactly when it is one of the bytes of R65. -/
def Obligations.WordsWithNoMeaningAreRefused : Prop :=
  (∀ w : RequestWord, (∃ i, decodeRequest w = .ok i)
      ↔ ∃ named, (w.extractLsb' 24 8, named) ∈ requestFields ∧ w.extractLsb' 0 24 &&& ~~~named = 0)
    ∧ (∀ (s : State) (w : RequestWord), halted s = none → nextTurn s = .run → s.seq = [] →
        s.host.ctx = .fg → nextWord s = some w →
        (∀ i, decodeRequest w = .ok i → i.kind = .event ∨ i.kind = .handler) →
        step s = .refused .badRequest)
    ∧ ∀ (cs : BitVec 2) (c : Byte), (∃ i, decodeBus (busWord cs false false c) = .ok i)
        ↔ c = 0x3E ∨ c = 0x3F ∨ (0x40 ≤ c.toNat ∧ c.toNat ≤ 0x7F)
          ∨ (0xB8 ≤ c.toNat ∧ c.toNat ≤ 0xBF) ∨ c = 0xC0

/-- Words written out from the spec's tables and vectors decode to what the spec says they are (BV1, BV2,
BV4, BV10, RQ1 to RQ4, RQ8, R76). -/
def Obligations.WrittenOutWordsDecode : Prop :=
  decodeBus 0x8BC = .ok (.cmdSetPage 0b10 4)
    ∧ decodeBus 0x43F = .ok (.cmdDisplayOn 0b01)
    ∧ decodeBus 0xA01 = .ok (.dataWrite 0b10 0x01)
    ∧ decodeBus 0x700 = .ok (.dataRead 0b01 0)
    ∧ decodeRequest 0x03004020 = .ok (.gotoXY 64 32)
    ∧ decodeRequest 0x21010A0D = .ok (.setDot 10 13 .black)
    ∧ decodeRequest 0x0600027E = .ok (.doWriteCommand 0x7E .zero true false)
    ∧ decodeRequest 0x250000F8 = .ok (.scroll 0xF8)
    ∧ decodeRequest 0x06000400 = .ok (.doWriteCommand 0 .zero false true)
    ∧ decodeRequest 0x11000000 = .ok .snapshot
    ∧ decodeRequest 0x1A000000 = .ok .lpmWait
    ∧ decodeRequest 0xE1000200 = .ok (.evConvDone 512)
    ∧ decodeRequest 0xF2000000 = .ok .isrAdc

/-! ### Bus cycles -/

/-- R84: each command cycle to a chip that is not busy (log 6) completes and writes the one device register its byte
names; nothing else of the devices changes, and the lines carry the byte. -/
def Obligations.CommandCyclesWriteTheirRegister : Prop :=
  ∀ (cs : BitVec 2) (k : Chip) (s : State), chipOfSelect cs = some k → s.lines.cs = cs →
    NotBusy k s →
    (∃ t, exec (.cmdDisplayOn cs) s = .next t ∧ CycleFrame k s t ∧ t.lines = writeLines s false 0x3F
        ∧ SameDevice { s.dev k with on := true } (t.dev k))
      ∧ (∃ t, exec (.cmdDisplayOff cs) s = .next t ∧ CycleFrame k s t
        ∧ t.lines = writeLines s false 0x3E ∧ SameDevice { s.dev k with on := false } (t.dev k))
      ∧ (∃ t, exec (.cmdSetStartLine cs) s = .next t ∧ CycleFrame k s t
        ∧ t.lines = writeLines s false 0xC0 ∧ SameDevice { s.dev k with start := 0 } (t.dev k))
      ∧ (∀ page, ∃ t, exec (.cmdSetPage cs page) s = .next t ∧ CycleFrame k s t
        ∧ t.lines = writeLines s false (0b10111#5 ++ page)
        ∧ SameDevice { s.dev k with page := page } (t.dev k))
      ∧ (∀ col, ∃ t, exec (.cmdSetColumn cs col) s = .next t ∧ CycleFrame k s t
        ∧ t.lines = writeLines s false (0b01#2 ++ col)
        ∧ SameDevice { s.dev k with col := col } (t.dev k))

/-- R85, R87: a data write to a chip that is not busy (log 6) completes, stores its byte at the device's page and
column and in no other byte of display RAM, and advances the column modulo 64. -/
def Obligations.DataWriteCycleStoresItsByte : Prop :=
  ∀ (cs : BitVec 2) (d : Byte) (k : Chip) (s : State), chipOfSelect cs = some k → s.lines.cs = cs →
    NotBusy k s → MemoryInv s →
    ∃ t, exec (.dataWrite cs d) s = .next t ∧ CycleFrame k s t ∧ t.lines = writeLines s true d
      ∧ (∀ j p c, ramByte t j p c
          = if j = k ∧ p = (s.dev k).page ∧ c = (s.dev k).col then d else ramByte s j p c)
      ∧ (t.dev k).col.toNat = ((s.dev k).col.toNat + 1) % 64 ∧ (t.dev k).page = (s.dev k).page
      ∧ DeviceFrame (s.dev k) (t.dev k)

/-- R86, R87: a data read of a chip that is not busy (log 6) completes, returns the latch as it was, reloads the
latch from the byte the device points at, and advances the column modulo 64; display RAM does not change. So
the second of two data reads returns the byte the device pointed at before the first, a dummy read. -/
def Obligations.DataReadCycleReturnsTheLatch : Prop :=
  ∀ (cs : BitVec 2) (d : Byte) (k : Chip) (s : State), chipOfSelect cs = some k → s.lines.cs = cs →
    NotBusy k s →
    ∃ t, exec (.dataRead cs d) s = .next t ∧ CycleFrame k s t ∧ t.lines = readLines s true
      ∧ t.dataIn = (s.dev k).latch
      ∧ (t.dev k).latch = ramByte s k (s.dev k).page (s.dev k).col
      ∧ (t.dev k).col.toNat = ((s.dev k).col.toNat + 1) % 64 ∧ (t.dev k).page = (s.dev k).page
      ∧ (t.dev k).on = (s.dev k).on ∧ (t.dev k).start = (s.dev k).start
      ∧ (∀ j p c, ramByte t j p c = ramByte s j p c)
      ∧ ∀ e u, exec (.dataRead cs e) t = .next u →
          u.dataIn = ramByte s k (s.dev k).page (s.dev k).col

/-- R88: a status read completes whether the chip is busy or not; bit 5 of the byte is `1 - on`; the device
does not change; once it has answered ready, it answers ready until a cycle makes it busy. -/
def Obligations.StatusReadCycleAnswers : Prop :=
  ∀ (cs : BitVec 2) (d : Byte) (k : Chip) (s : State), chipOfSelect cs = some k → s.lines.cs = cs →
    ∃ t, exec (.statusRead cs d) s = .next t ∧ CycleFrame k s t ∧ t.lines = readLines s false
      ∧ t.statusIn.getLsbD 5 = !(s.dev k).on
      ∧ t.statusIn.msb = ((drawnByte s).msb && !(s.dev k).ready)
      ∧ SameDevice (s.dev k) (t.dev k)
      ∧ (t.statusIn.msb = false → NotBusy k t)

/-- R90 to R92: what the engine can never do faults: a cycle whose chip-select pattern selects no chip or both,
a reserved command byte put to a chip, and a command or data cycle to a chip that is busy. Where two of these
meet, the order is the model's choice: the chip-select fault comes before the other two (log 23), and the
fault of a reserved byte before that of a busy chip (log 28). That a chip is busy when it is not known to be
ready and its busy bit is drawn 1 is the model's reading of R88 and R92 (log 6). -/
def Obligations.CyclesWithNoMeaningFault : Prop :=
  (∀ (w : BusWord) (s : State), selectOf w ≠ 0b01 → selectOf w ≠ 0b10 →
      runBusWord w s = .fault .unmodelledChipSelect
        ∧ ∀ i, decodeBus w = .ok i → exec i s = .fault .unmodelledChipSelect)
    ∧ (∀ (k : Chip) (c : Byte) (s : State), commandListed c = false →
        runBusWord (chipWord k false false c) s = .fault .unmodelledCommand)
    ∧ ∀ (w : BusWord) (k : Chip) (i : Instr) (s : State), chipOfSelect (selectOf w) = some k →
        decodeBus w = .ok i → (∀ cs d, i ≠ .statusRead cs d) → ¬ NotBusy k s →
        runBusWord w s = .fault .cycleWhileBusy

/-- R89: with the chip ON and its start line 0, the pixel shown at `(x, y)` is bit `yoff(y)` of its display
byte; a chip that is OFF shows nothing. -/
def Obligations.DisplayShowsItsRam : Prop :=
  ∀ (s : State) (x y : Nat), x < 128 → y < 64 →
    ((s.dev (chipOf x)).on = false → shownPixel s x y = none)
      ∧ ((s.dev (chipOf x)).on = true → (s.dev (chipOf x)).start = 0 →
          shownPixel s x y
            = some ((ramByte s (chipOf x) (pageOf y) (colOf x)).getLsbD (y % 8)))

/-! ### Engine requests -/

/-- R93: `waitReady` completes as soon as one status read answers ready, having changed nothing but the
lines; a poll that is answered busy leaves the wait at the head of `seq`, without limit. -/
def Obligations.WaitReadyPollsUntilReady : Prop :=
  (∀ (k : Chip) (s : State), EngineFree s →
      ((s.dev k).ready = true ∨ ∃ b ∈ s.env.draws, b.msb = false) →
      ∃ t, exec (.waitReady k) s = .next t ∧ RunsTo t fun u =>
        EngineFrame s u ∧ ClientFrame s u ∧ u.cache = s.cache
          ∧ SameDevice s.dev0 u.dev0 ∧ SameDevice s.dev1 u.dev1
          ∧ u.lines = { readLines s false with cs := Config.csEncode k })
    ∧ ∀ (k : Chip) (rest : List EngineOp) (s : State), s.seq = .bus (.wait k) :: rest →
        ¬ NotBusy k s →
        ∃ t, engineStep s = .next t ∧ t.seq = s.seq ∧ t.cache = s.cache ∧ t.host = s.host
          ∧ t.client = s.client ∧ t.touch = s.touch
          ∧ SameDevice s.dev0 t.dev0 ∧ SameDevice s.dev1 t.dev1

/-- R94: `selectChip` drives the chip-select lines and nothing else. -/
def Obligations.SelectChipDrivesTheLines : Prop :=
  ∀ (k : Chip) (s : State), EngineFree s →
    exec (.selectChip k) s
      = .next
          { s with
            lines := { s.lines with cs := Config.csEncode k }
            host := { s.host with pc := s.host.pc + 1 } }

/-- R96, R98: `gotoXY` in range. It issues the page commands, to chip 0 and then to chip 1, only where the
page differs from the cursor's or the page is stale, then the column command to the chip that owns the
column; it leaves the cursor there with no stale flag. -/
def Obligations.GotoXYAddressesTheCursor : Prop :=
  ∀ (x y : Byte) (s : State), EngineFree s → ChipsAnswer s → x.toNat < 128 → y.toNat < 64 →
    let p := pageOf y.toNat
    let k := chipOf x.toNat
    let paged : Bool := p ≠ s.cache.page ∨ s.cache.pageStale = true
    ∃ t, exec (.gotoXY x y) s = .next t
      ∧ cycleTrace t.seq
          = (if paged then
              [ some (chipWord .zero false false (0b10111#5 ++ p))
              , some (chipWord .one false false (0b10111#5 ++ p)) ]
            else [])
            ++ [some (chipWord k false false (0b01#2 ++ colOf x.toNat))]
      ∧ RunsTo t fun u =>
        EngineFrame s u ∧ ClientFrame s u
          ∧ u.cache = { x := x, y := y.setWidth 6, page := p, pageStale := false, colStale := false
                        lastColChip := k }
          ∧ u.dev0.page = (if paged then p else s.dev0.page)
          ∧ u.dev1.page = (if paged then p else s.dev1.page)
          ∧ (∀ j, (u.dev j).col = if j = k then colOf x.toNat else (s.dev j).col)
          ∧ DeviceFrame s.dev0 u.dev0 ∧ DeviceFrame s.dev1 u.dev1
          ∧ ∀ j p c, ramByte u j p c = ramByte s j p c

/-- R97, R114, R144, R151: `gotoXY` off the display, `writeData` past the last column, `setDot` on the first row
or column or off the display, and `scroll` past a bound are complete at once, with no bus cycle and no
change. -/
def Obligations.OutOfRangeRequestsDoNothing : Prop :=
  ∀ (s : State), EngineFree s →
    let done : Result := .next { s with host := { s.host with pc := s.host.pc + 1 } }
    (∀ x y : Byte, 128 ≤ x.toNat ∨ 64 ≤ y.toNat → exec (.gotoXY x y) s = done)
      ∧ (∀ d : Byte, 128 ≤ s.cache.x.toNat → exec (.writeData d) s = done)
      ∧ (∀ (x y : Byte) (color : Color),
          x.toNat = 0 ∨ 128 ≤ x.toNat ∨ y.toNat = 0 ∨ 64 ≤ y.toNat →
          exec (.setDot x y color) s = done)
      ∧ (192 < s.client.startline.toNat + 8 → exec (.scroll 8) s = done)
      ∧ (s.client.startline.toNat < 8 → exec (.scroll 0xF8) s = done)

/-- R102, R103: `readData` returns the logical byte under the cursor, leaves the cursor and all display RAM
unchanged, and leaves the devices addressed where the cursor says. -/
def Obligations.ReadDataReturnsTheLogicalByte : Prop :=
  ∀ s : State, EngineFree s → ChipsAnswer s → CursorInv s → CursorRangeInv s →
    s.cache.x.toNat < 128 →
    let k := chipOf s.cache.x.toNat
    let c := colOf s.cache.x.toNat
    ∃ t, exec .readData s = .next t ∧ RunsTo t fun u =>
      EngineFrame s u ∧ u.client = s.client ∧ u.invert = s.invert
        ∧ u.env.reply = some (.byte (logicalByte s k s.cache.page c))
        ∧ u.cache = { s.cache with pageStale := false, colStale := false, lastColChip := k }
        ∧ u.dev0.page = s.cache.page ∧ u.dev1.page = s.cache.page ∧ (u.dev k).col = c
        ∧ (u.dev k).latch = ramByte s k s.cache.page (c + 1)
        ∧ (∀ j, j ≠ k → (u.dev j).col = (s.dev j).col ∧ (u.dev j).latch = (s.dev j).latch)
        ∧ (∀ j, (u.dev j).on = (s.dev j).on ∧ (u.dev j).start = (s.dev j).start)
        ∧ ∀ j p c, ramByte u j p c = ramByte s j p c

/-- R101: past the last column `readData` returns a drawn byte, issues no cycle and changes nothing. -/
def Obligations.ReadDataPastTheLastColumn : Prop :=
  ∀ s : State, EngineFree s → 128 ≤ s.cache.x.toNat →
    ∃ t, exec .readData s = .next t ∧ t.env.reply = some (.byte (drawnByte s)) ∧ t.seq = []
      ∧ EngineFrame s t ∧ t.client = s.client ∧ t.invert = s.invert ∧ t.cache = s.cache
      ∧ t.lines = s.lines ∧ t.dev0 = s.dev0 ∧ t.dev1 = s.dev1

/-- R104: `writeData` at a page-aligned row stores the byte, complemented when `invert = 1`, at the cursor's
page and column and in no other byte, and moves the cursor on one column. -/
def Obligations.WriteDataAlignedStoresTheByte : Prop :=
  ∀ (d : Byte) (s : State), EngineFree s → ChipsAnswer s → CursorInv s →
    CursorRangeInv s → MemoryInv s → s.cache.x.toNat < 128 → s.cache.y.toNat % 8 = 0 →
    let k := chipOf s.cache.x.toNat
    let c := colOf s.cache.x.toNat
    ∃ t, exec (.writeData d) s = .next t ∧ RunsTo t fun u =>
      EngineFrame s u ∧ ClientFrame s u
        ∧ u.cache = { s.cache with x := s.cache.x + 1, pageStale := false, colStale := false
                                   lastColChip := k }
        ∧ u.dev0.page = s.cache.page ∧ u.dev1.page = s.cache.page ∧ (u.dev k).col = c + 1
        ∧ (∀ j, j ≠ k → (u.dev j).col = (s.dev j).col)
        ∧ DeviceFrame s.dev0 u.dev0 ∧ DeviceFrame s.dev1 u.dev1
        ∧ ∀ j p b, ramByte u j p b
            = if j = k ∧ p = s.cache.page ∧ b = c then (if s.invert then ~~~d else d)
              else ramByte s j p b

/-- R105 to R107, R109, R110: the split write above page 7 writes bit `i` of the byte to row `y + i` of the
cursor's column, keeps the other bits of the two bytes it touches and every other byte of display RAM, and
moves the cursor on one column. -/
def Obligations.WriteDataSplitWritesEightRows : Prop :=
  ∀ (d : Byte) (s : State), EngineFree s → ChipsAnswer s → CursorInv s →
    CursorRangeInv s → MemoryInv s → s.cache.x.toNat < 128 → s.cache.y.toNat % 8 ≠ 0 →
    s.cache.page.toNat < 7 →
    let x := s.cache.x.toNat
    let y := s.cache.y.toNat
    let p := s.cache.page
    ∃ t, exec (.writeData d) s = .next t ∧ RunsTo t fun u =>
      EngineFrame s u ∧ ClientFrame s u
        ∧ u.cache.x.toNat = x + 1 ∧ u.cache.y = s.cache.y ∧ u.cache.page = p
        ∧ u.cache.colStale = false ∧ u.cache.pageStale = decide (x = 127)
        ∧ (∀ j, (u.dev j).on = (s.dev j).on ∧ (u.dev j).start = (s.dev j).start)
        ∧ (∀ i, i < 8 → logicalPixel u x (y + i) = d.getLsbD i)
        ∧ (∀ i, i < y % 8 → (columnByte u x p).getLsbD i = (columnByte s x p).getLsbD i)
        ∧ (∀ i, y % 8 ≤ i → i < 8 →
            (columnByte u x (p + 1)).getLsbD i = (columnByte s x (p + 1)).getLsbD i)
        ∧ ∀ j q c, ¬(j = chipOf x ∧ c = colOf x ∧ (q = p ∨ q = p + 1)) →
            ramByte u j q c = ramByte s j q c

/-- R105, R106, R108 to R110: the split write at page 7 writes the rows down to 63, keeps the rows above them
in its byte, may change at most one other byte, in page 7 of the same chip, and leaves the column stale. -/
def Obligations.WriteDataSplitAtPageSeven : Prop :=
  ∀ (d : Byte) (s : State), EngineFree s → ChipsAnswer s → CursorInv s →
    CursorRangeInv s → MemoryInv s → s.cache.x.toNat < 128 → s.cache.y.toNat % 8 ≠ 0 →
    s.cache.page = 7 →
    let x := s.cache.x.toNat
    let y := s.cache.y.toNat
    ∃ t, exec (.writeData d) s = .next t ∧ RunsTo t fun u =>
      EngineFrame s u ∧ ClientFrame s u
        ∧ u.cache.x.toNat = x + 1 ∧ u.cache.y = s.cache.y ∧ u.cache.page = 7
        ∧ u.cache.colStale = true ∧ u.cache.pageStale = false
        ∧ (∀ j, (u.dev j).on = (s.dev j).on ∧ (u.dev j).start = (s.dev j).start)
        ∧ (∀ i, i < 8 - y % 8 → logicalPixel u x (y + i) = d.getLsbD i)
        ∧ (∀ i, i < y % 8 → (columnByte u x 7).getLsbD i = (columnByte s x 7).getLsbD i)
        ∧ ∃ other : BitVec 6, ∀ j q c,
            ¬(j = chipOf x ∧ q = 7 ∧ (c = colOf x ∨ c = other)) → ramByte u j q c = ramByte s j q c

/-- R115: a `gotoXY` to a page-aligned row and then `n` writes put byte `j` at display column `x + j` of the
page, across the chip boundary, and change no other byte of display RAM. -/
def Obligations.StreamedBytesLandInTheirColumns : Prop :=
  ∀ (x y : Byte) (l : List Byte) (s : State), EngineFree s → ChipsAnswer s → CursorInv s →
    MemoryInv s → y.toNat < 64 → y.toNat % 8 = 0 → x.toNat < 128 → x.toNat + l.length ≤ 128 →
    ∃ u, RunsRequests (.gotoXY x y :: l.map .writeData) s u
      ∧ u.cache.x.toNat = x.toNat + l.length
      ∧ ∀ k p c, logicalByte u k p c
          = if p = pageOf y.toNat ∧ x.toNat ≤ displayColumn k c
                ∧ displayColumn k c < x.toNat + l.length then
              l.getD (displayColumn k c - x.toNat) 0
            else logicalByte s k p c

/-- R111, R112: a raw data byte is stored where the chip's own registers point, never complemented, and
marks the column stale; the cursor itself does not move. -/
def Obligations.RawDataByteBypassesTheCursor : Prop :=
  ∀ (cmd : Byte) (k : Chip) (s : State), EngineFree s → ChipsAnswer s → MemoryInv s →
    ∃ t, exec (.doWriteCommand cmd k true false) s = .next t ∧ RunsTo t fun u =>
      EngineFrame s u ∧ ClientFrame s u ∧ u.cache = { s.cache with colStale := true }
        ∧ (∀ j, j ≠ k → SameDevice (s.dev j) (u.dev j))
        ∧ (u.dev k).page = (s.dev k).page ∧ (u.dev k).col = (s.dev k).col + 1
        ∧ DeviceFrame (s.dev k) (u.dev k)
        ∧ ∀ j p c, ramByte u j p c
            = if j = k ∧ p = (s.dev k).page ∧ c = (s.dev k).col then cmd else ramByte s j p c

/-- R111, R112: a raw command writes the register its byte names; a Set page marks the page stale and a Set
column the column; the power and start-line commands mark nothing. -/
def Obligations.RawCommandMarksWhatItMoves : Prop :=
  ∀ (k : Chip) (s : State), EngineFree s → ChipsAnswer s →
    (∀ page : BitVec 3, ∃ t, exec (.doWriteCommand (0b10111#5 ++ page) k false false) s = .next t
        ∧ RunsTo t fun u =>
          EngineFrame s u ∧ ClientFrame s u ∧ u.cache = { s.cache with pageStale := true }
            ∧ SameDevice { s.dev k with page := page } (u.dev k)
            ∧ ∀ j, j ≠ k → SameDevice (s.dev j) (u.dev j))
      ∧ (∀ col : BitVec 6, ∃ t, exec (.doWriteCommand (0b01#2 ++ col) k false false) s = .next t
        ∧ RunsTo t fun u =>
          EngineFrame s u ∧ ClientFrame s u ∧ u.cache = { s.cache with colStale := true }
            ∧ SameDevice { s.dev k with col := col } (u.dev k)
            ∧ ∀ j, j ≠ k → SameDevice (s.dev j) (u.dev j))
      ∧ ∀ cmd : Byte, cmd = 0x3E ∨ cmd = 0x3F ∨ cmd = 0xC0 →
        ∃ t, exec (.doWriteCommand cmd k false false) s = .next t ∧ RunsTo t fun u =>
          EngineFrame s u ∧ ClientFrame s u ∧ u.cache = s.cache
            ∧ SameDevice
                (if cmd = 0xC0 then { s.dev k with start := 0 }
                 else { s.dev k with on := decide (cmd = 0x3F) })
                (u.dev k)
            ∧ ∀ j, j ≠ k → SameDevice (s.dev j) (u.dev j)

/-- R113, R148, R151: behind the context guard, a raw read, a raw reserved command byte, a page that does not
exist and a scroll by anything but 8 rows either way are refused. -/
def Obligations.OperandsWithNoMeaningAreRefused : Prop :=
  ∀ s : State, EngineFree s →
    (∀ (cmd : Byte) (k : Chip) (di : Bool),
        exec (.doWriteCommand cmd k di true) s = .refused .rawRead)
      ∧ (∀ (cmd : Byte) (k : Chip), commandListed cmd = false →
        exec (.doWriteCommand cmd k false false) s = .refused .reservedCommand)
      ∧ (∀ (page : Byte) (color : Color), 8 ≤ page.toNat →
        exec (.clearPage page color) s = .refused .badPage)
      ∧ ∀ delta : Byte, delta.toInt ≠ 8 → delta.toInt ≠ -8 →
        exec (.scroll delta) s = .refused .badScrollDelta

/-- R116: every engine request, and every client request but the accessor of R156, runs only in the foreground
with `gie = 0` or inside the button handler; in the foreground with `gie = 1` it faults, so no cycle is
issued. -/
def Obligations.BusRequestsNeedInterruptsDisabled : Prop :=
  ∀ (i : Instr) (s : State), i.kind = .engine ∨ (i.kind = .client ∧ i ≠ .getStartline) →
    (s.host.ctx = .fg → s.host.gie = true → exec i s = .fault .busWithInterruptsEnabled)
      ∧ (¬(s.host.ctx = .fg ∧ s.host.gie = false) → s.host.ctx ≠ .isrButton →
          ∀ t, exec i s ≠ .next t)

/-! ### Touch sampler -/

/-- R120, R167: the timer handler clears its flag and starts a conversion if the converter is idle, else the
tick is lost; it returns to the foreground with `gie = 1` and touches nothing else. (The fields that hold the
saved resume point are the model's: log 15.) -/
def Obligations.TimerHandlerStartsAConversion : Prop :=
  ∀ s : State, takeable .timer s = true →
    exec .isrTimer s
      = .next
          { s with
            touch := { s.touch with
                       adc := if s.touch.adc = .idle then .converting else s.touch.adc }
            host := { s.host with
                      timerIfg := false
                      savedPc := s.host.pc
                      savedLpm := s.host.lpm
                      savedGie := true } }

/-- R123, R125, R167: what every run of the ADC handler does, whatever the sample: the reading stored, the axis and
the multiplexer switched, the converter idle, `wake` set, the foreground restored with `gie = 1`; the bus
engine, the devices, the client state and the request list are not touched. (The fields that hold the saved
resume point are the model's: log 15.) -/
def Obligations.AdcHandlerAlwaysSwitchesTheAxis : Prop :=
  ∀ s : State, takeable .adc s = true →
    ∃ t, exec .isrAdc s = .next t
      ∧ rawOf t.touch s.touch.axis = s.touch.adcMem.setWidth 16
      ∧ rawOf t.touch (otherAxis s.touch.axis) = rawOf s.touch (otherAxis s.touch.axis)
      ∧ filtOf t.touch (otherAxis s.touch.axis) = filtOf s.touch (otherAxis s.touch.axis)
      ∧ firstOf t.touch (otherAxis s.touch.axis) = firstOf s.touch (otherAxis s.touch.axis)
      ∧ t.touch.axis = otherAxis s.touch.axis
      ∧ t.touch.mux = Config.muxConfig (otherAxis s.touch.axis)
      ∧ t.touch.adc = .idle ∧ t.touch.adcMem = s.touch.adcMem
      ∧ t.touch.lowPassEnabled = s.touch.lowPassEnabled
      ∧ t.host = { s.host with
                   adcIfg := false
                   wake := true
                   savedPc := s.host.pc
                   savedLpm := s.host.lpm
                   savedGie := true }
      ∧ t = { s with touch := t.touch, host := t.host }

/-- R124, R126 to R130: what a run of the ADC handler makes of its sample. Out of window, the settle counter
restarts and no coordinate changes; in window, the counter advances to at most `T + 2` = 32, and the sample
is discarded, latched or filtered by the value it reaches. -/
def Obligations.AdcHandlerJudgesItsSample : Prop :=
  ∀ s t : State, takeable .adc s = true → exec .isrAdc s = .next t →
    let a := s.touch.axis
    let n := t.touch.settleCounter.toNat
    let inWindow : Prop :=
      (Config.windows.xLo ≤ (rawOf t.touch .x).toNat ∧ (rawOf t.touch .x).toNat ≤ Config.windows.xHi)
        ∧ Config.windows.yLo ≤ (rawOf t.touch .y).toNat
        ∧ (rawOf t.touch .y).toNat ≤ Config.windows.yHi
    (¬ inWindow → n = 0 ∧ t.touch.lowPassEnabled = s.touch.lowPassEnabled
        ∧ ∀ b, filtOf t.touch b = filtOf s.touch b ∧ firstOf t.touch b = firstOf s.touch b)
      ∧ (inWindow → n = min (s.touch.settleCounter.toNat + 1) 32
          ∧ (n < 30 → ∀ b, filtOf t.touch b = filtOf s.touch b ∧ firstOf t.touch b = firstOf s.touch b)
          ∧ (30 ≤ n → n ≤ 31 → firstOf t.touch a = s.touch.adcMem.setWidth 16
              ∧ firstOf t.touch (otherAxis a) = firstOf s.touch (otherAxis a)
              ∧ ∀ b, filtOf t.touch b = filtOf s.touch b)
          ∧ (31 < n → (∀ b, firstOf t.touch b = firstOf s.touch b)
              ∧ filtOf t.touch (otherAxis a) = filtOf s.touch (otherAxis a)
              ∧ (filtOf t.touch a).toNat
                  = if s.touch.lowPassEnabled then
                      (3 * (filtOf s.touch a).toNat + s.touch.adcMem.toNat) / 4
                    else s.touch.adcMem.toNat))

/-- R135: the variant that restarts on completion leaves the converter converting on the new axis. -/
def Obligations.RestartVariantConvertsAtOnce : Prop :=
  ∀ (p : TouchParams) (t : Touch),
    (adcTransition p t).adc = (if p.restartOnComplete then .converting else .idle)
      ∧ (adcTransition p t).axis = otherAxis t.axis

/-- R136: a held sample `B` under the low-pass filter: above it the value falls and reaches `B` exactly;
below `B - 3` it rises; from `B - 3` to `B` it stays. -/
def Obligations.FilterConvergesToAHeldSample : Prop :=
  ∀ f b : TouchWord, f.toNat < 2 ^ 14 → b.toNat < 2 ^ 14 →
    (b.toNat < f.toNat →
        (filterStep true f b).toNat < f.toNat ∧ b.toNat ≤ (filterStep true f b).toNat)
      ∧ (f.toNat + 3 < b.toNat →
          f.toNat < (filterStep true f b).toNat ∧ (filterStep true f b).toNat ≤ b.toNat)
      ∧ (b.toNat ≤ f.toNat + 3 → f.toNat ≤ b.toNat → filterStep true f b = f)
      ∧ (b.toNat < f.toNat → ∃ n, filterRun b n f = b)

/-- R137: in a run of in-window samples from `settleCounter = 0`, the samples numbered `T` and `T + 1` are
latched, each for its own axis, and no other sample of the run changes a latch: a shorter run latches nothing,
one of exactly `T` samples latches its last alone, and a longer one leaves the two latches as they are. -/
def Obligations.FirstTouchIsLatchedOnce : Prop :=
  ∀ (p : TouchParams) (l : List (BitVec Config.adcBits)) (t : Touch), 1 ≤ p.settleThreshold →
    p.settleThreshold ≤ 253 → t.settleCounter = 0 → AllInWindow p l t →
    let a := (samplesRun p (l.take (p.settleThreshold - 1)) t).axis
    (l.length < p.settleThreshold → ∀ b, firstOf (samplesRun p l t) b = firstOf t b)
      ∧ (l.length = p.settleThreshold →
          firstOf (samplesRun p l t) a = (l.getD (p.settleThreshold - 1) 0).setWidth 16
            ∧ firstOf (samplesRun p l t) (otherAxis a) = firstOf t (otherAxis a))
      ∧ (p.settleThreshold + 1 ≤ l.length →
          firstOf (samplesRun p l t) a = (l.getD (p.settleThreshold - 1) 0).setWidth 16
            ∧ firstOf (samplesRun p l t) (otherAxis a) = (l.getD p.settleThreshold 0).setWidth 16)

/-- R138: a run of fewer than `T + 2` in-window samples from `settleCounter = 0` emits no coordinate and
leaves the reading not valid. -/
def Obligations.ShortRunsEmitNoCoordinate : Prop :=
  ∀ (p : TouchParams) (l : List (BitVec Config.adcBits)) (t : Touch), p.settleThreshold ≤ 253 →
    t.settleCounter = 0 → AllInWindow p l t → l.length < p.settleThreshold + 2 →
    (samplesRun p l t).xx = t.xx ∧ (samplesRun p l t).yy = t.yy
      ∧ validOf p.settleThreshold (samplesRun p l t).settleCounter = false

/-- R121, R122, R165: a timer expiry and a button press set their pending flags, in any state, and do nothing
else; a conversion result is taken while a conversion runs; one the converter cannot produce is refused. (That
it is refused also while no conversion runs, where R121 does not let the event occur, is the model's reading:
log 16.) -/
def Obligations.EnvironmentEventsAreDelivered : Prop :=
  ∀ s : State,
    exec .evTimer s = .next { s with host := { s.host with timerIfg := true } }
      ∧ exec .evButton s = .next { s with host := { s.host with btnIfg := true } }
      ∧ ∀ raw : BitVec 16,
        (raw.toNat < 1024 → s.touch.adc = .converting →
            exec (.evConvDone raw) s
              = .next
                  { s with
                    touch := { s.touch with adcMem := raw.setWidth 10, adc := .done }
                    host := { s.host with adcIfg := true } })
          ∧ (1024 ≤ raw.toNat → exec (.evConvDone raw) s = .refused .badEvent)

/-- R132, R133, R35: with interrupts disabled the toggle flips `lowPassEnabled`, and the snapshot returns the
shared registers and the validity and writes nothing; otherwise each faults. -/
def Obligations.SharedRegistersNeedInterruptsDisabled : Prop :=
  ∀ s : State,
    (s.host.ctx = .fg → s.host.gie = false →
        exec .toggleLowpass s
            = .next
                { s with
                  touch := { s.touch with lowPassEnabled := !s.touch.lowPassEnabled }
                  host := { s.host with pc := s.host.pc + 1 } }
          ∧ exec .snapshot s
            = .next
                { s with
                  host := { s.host with pc := s.host.pc + 1 }
                  env := { s.env with
                           reply := some (.snapshot
                             { xx := s.touch.xx
                               yy := s.touch.yy
                               valid := decide (32 ≤ s.touch.settleCounter.toNat)
                               settleCounter := s.touch.settleCounter
                               firstX := s.touch.firstX
                               firstY := s.touch.firstY
                               lowPassEnabled := s.touch.lowPassEnabled }) } })
      ∧ (s.host.ctx ≠ .fg ∨ s.host.gie = true →
          exec .toggleLowpass s = .fault .sharedWriteWithInterruptsEnabled
            ∧ exec .snapshot s = .fault .sharedReadWithInterruptsEnabled)

/-- R134: over one step of the machine, only the ADC handler changes the raw, filtered and latched readings
and the settle counter, and only the toggle request changes `lowPassEnabled`: a step that changes it is the
foreground's, with the engine idle, and the toggle is the request it runs. -/
def Obligations.TouchRegistersHaveOneWriter : Prop :=
  ∀ s t : State, step s = .next t →
    (nextTurn s ≠ .interrupt .adc →
        t.touch.rawX = s.touch.rawX ∧ t.touch.rawY = s.touch.rawY ∧ t.touch.xx = s.touch.xx
          ∧ t.touch.yy = s.touch.yy ∧ t.touch.firstX = s.touch.firstX
          ∧ t.touch.firstY = s.touch.firstY ∧ t.touch.settleCounter = s.touch.settleCounter)
      ∧ (t.touch.lowPassEnabled ≠ s.touch.lowPassEnabled →
          nextTurn s = .run ∧ s.seq = [] ∧ s.host.ctx = .fg
            ∧ ∃ w, nextWord s = some w ∧ decodeRequest w = .ok .toggleLowpass)

/-- R131: over one step of the machine the axis changes exactly when the ADC handler is taken, and always
then; a conversion starts only in the timer handler, from an idle converter. -/
def Obligations.AxisAlternatesWithEachHandlerRun : Prop :=
  ∀ s t : State, step s = .next t →
    (t.touch.axis
        = if nextTurn s = .interrupt .adc ∧ takeable .adc s = true then otherAxis s.touch.axis
          else s.touch.axis)
      ∧ (t.touch.adc = .converting → s.touch.adc ≠ .converting →
          s.touch.adc = .idle ∧ nextTurn s = .interrupt .timer)

/-! ### Host context -/

/-- R173 to R175: `dint` and `eint` write `gie` and nothing else; the low-power wait enables interrupts and,
with `wake = 1`, consumes it and completes, else holds with `pc` in place. -/
def Obligations.ContextRequestsWriteGie : Prop :=
  ∀ s : State,
    exec .dint s = .next { s with host := { s.host with gie := false, pc := s.host.pc + 1 } }
      ∧ exec .eint s = .next { s with host := { s.host with gie := true, pc := s.host.pc + 1 } }
      ∧ (s.host.wake = true → ∃ waiting,
          exec .lpmWait s
            = .next { s with host := { s.host with gie := true
                                                   wake := false
                                                   lpm := waiting
                                                   pc := s.host.pc + 1 } })
      ∧ (s.host.wake = false → ∃ waiting,
          exec .lpmWait s = .next { s with host := { s.host with gie := true, lpm := waiting } })

/-- R166 to R168, R192: no handler is taken while `gie = 0`, inside another handler, while its flag is clear,
or while an engine operation is in progress; the flags stay set. (That a turn given to such a handler passes
without effect is the model's choice: logs 1, 14, 24.) -/
def Obligations.NoHandlerWithoutGie : Prop :=
  ∀ (src : Source) (s : State), halted s = none → nextTurn s = .interrupt src →
    s.host.gie = false ∨ s.host.ctx ≠ .fg ∨ pending src s = false ∨ s.seq ≠ [] →
    step s = .next { s with env := { s.env with agenda := s.env.agenda.tail } }

/-- R157, R167 to R169: the button handler clears its flag, applies the button action, repaints the display
behind `gie = 0`, and returns to the foreground where it was, with `gie = 1`. (The fields that hold the saved
resume point are the model's: log 15.) -/
def Obligations.ButtonHandlerRepaintsAndReturns : Prop :=
  ∀ s : State, takeable .button s = true → ChipsAnswer s → CursorInv s → MemoryInv s →
    StartlineInv s →
    let client := { s.client with modes := Config.buttonAction s.client.modes }
    ∃ t, exec .isrButton s = .next t ∧ t.host.ctx = .isrButton ∧ t.host.gie = false
      ∧ RunsTo t fun u =>
        u.host = { s.host with btnIfg := false
                               savedPc := s.host.pc
                               savedLpm := s.host.lpm
                               savedGie := true }
          ∧ u.client = client ∧ u.touch = s.touch ∧ u.invert = s.invert
          ∧ u.env.program = s.env.program ∧ u.env.agenda = s.env.agenda
          ∧ u.env.reply = s.env.reply
          ∧ ShowsBuffer client u ∧ StripCursor client u.cache
          ∧ DeviceFrame s.dev0 u.dev0 ∧ DeviceFrame s.dev1 u.dev1

/-! ### Client requests -/

/-- R141, R142: `init` from any state whose cursor agrees with the devices clears the buffer and the display,
sets `invert`, turns both chips on with start line 0, and homes the cursor; it changes no touch register and
no mode flag. -/
def Obligations.InitLeavesTheInitialState : Prop :=
  ∀ (i : Bool) (s : State), EngineFree s → ChipsAnswer s → CursorInv s → MemoryInv s →
    ∃ t, exec (.init i) s = .next t ∧ RunsTo t fun u =>
      EngineFrame s u ∧ u.env.reply = s.env.reply ∧ u.invert = i ∧ u.client.startline = 0
        ∧ u.client.modes = s.client.modes ∧ (∀ r c, bufByte u r c = 0)
        ∧ (∀ k, (u.dev k).on = true ∧ (u.dev k).start = 0 ∧ (u.dev k).page = 0 ∧ (u.dev k).col = 0
            ∧ (u.dev k).latch = (s.dev k).latch)
        ∧ (∀ k p c, ramByte u k p c = if i then 0xFF else 0x00)
        ∧ u.cache = { x := 0, y := 0, page := 0, pageStale := false, colStale := false
                      lastColChip := .zero }

/-- R142: `init` with the page stale, as at power-on, puts the listed bus trace into `seq`, cycle by cycle: 1063
command and data cycles, each right behind a busy wait on its own chip. (That a request's whole list stands in
`seq` when it is issued is the model's form of R20: log 10.) -/
def Obligations.InitTraceFromPowerOn : Prop :=
  ∀ (i : Bool) (s : State), EngineFree s → s.cache.pageStale = true →
    let trace : List (Chip × Bool × Byte) :=
      [ (.zero, false, 0x3F), (.one, false, 0x3F), (.zero, false, 0xC0), (.one, false, 0xC0) ]
        ++ (List.range 8).flatMap
            (fun p => pageFillTrace (BitVec.ofNat 3 p) (if i then 0xFF else 0x00))
        ++ [ (.zero, false, 0xB8), (.one, false, 0xB8), (.zero, false, 0x40) ]
    ∃ t, exec (.init i) s = .next t
      ∧ busOpsOf t.seq = behindWaits trace
      ∧ cycleTrace t.seq = trace.map (fun c => some (chipWord c.1 c.2.1 false c.2.2))
      ∧ busOpCount t.seq = 2 * 1063

/-- R143, R145, R147: `setDot` inside the bounds sets or clears one bit of the buffer, changes no other bit of
it, and leaves that pixel of the display equal to it, with the cursor one column on. -/
def Obligations.SetDotPaintsBufferAndPixel : Prop :=
  ∀ (x y : Byte) (color : Color) (s : State), EngineFree s → ChipsAnswer s → CursorInv s →
    MemoryInv s → StartlineInv s → 0 < x.toNat → x.toNat < 128 → 0 < y.toNat → y.toNat < 64 →
    let row := y.toNat / 8 + s.client.startline.toNat / 8
    let black := decide (color = .black)
    ∃ t, exec (.setDot x y color) s = .next t ∧ RunsTo t fun u =>
      EngineFrame s u ∧ u.invert = s.invert ∧ u.env.reply = s.env.reply
        ∧ u.client.startline = s.client.startline ∧ u.client.modes = s.client.modes
        ∧ (∀ j, j < 8 → (bufByte u row x.toNat).getLsbD j
            = if j = y.toNat % 8 then black else (bufByte s row x.toNat).getLsbD j)
        ∧ (∀ r c, c < 128 → ¬(r = row ∧ c = x.toNat) → bufByte u r c = bufByte s r c)
        ∧ logicalPixel u x.toNat y.toNat = black
        ∧ u.cache.x.toNat = x.toNat + 1 ∧ u.cache.y.toNat = y.toNat
        ∧ (∀ j, (u.dev j).on = (s.dev j).on ∧ (u.dev j).start = (s.dev j).start)

/-- R146: after `setDot`, the display rows from the pixel down to at most seven further equal the buffer's
visible rows in that column, and no other pixel changes, but for the one byte of page 7, in another column of
the same chip, that R108 allows. -/
def Obligations.SetDotWritesTheBufferWindow : Prop :=
  ∀ (x y : Byte) (color : Color) (s : State), EngineFree s → ChipsAnswer s → CursorInv s →
    MemoryInv s → StartlineInv s → 0 < x.toNat → x.toNat < 128 → 0 < y.toNat → y.toNat < 64 →
    ∃ t, exec (.setDot x y color) s = .next t ∧ RunsTo t fun u =>
      (∀ i, i < 8 → y.toNat + i < 64 →
          logicalPixel u x.toNat (y.toNat + i)
            = (bufByte u ((s.client.startline.toNat + y.toNat + i) / 8) x.toNat).getLsbD
                ((y.toNat + i) % 8))
        ∧ ∃ other : Option (BitVec 6),
            (y.toNat < 57 → other = none) ∧ other ≠ some (colOf x.toNat)
              ∧ ∀ i j, i < 128 → j < 64 →
                  ¬(i = x.toNat ∧ y.toNat ≤ j ∧ j < y.toNat + 8) →
                  ¬(chipOf i = chipOf x.toNat ∧ j / 8 = 7 ∧ some (colOf i) = other) →
                  logicalPixel u i j = logicalPixel s i j

/-- R158: painting a pixel black and then white leaves its bit clear and every other bit of the buffer as it
was, so the byte is restored if the bit was clear before. -/
def Obligations.SetDotBlackThenWhiteClearsTheBit : Prop :=
  ∀ (x y : Byte) (s u t : State), MemoryInv s → 0 < x.toNat → x.toNat < 128 → 0 < y.toNat →
    y.toNat < 64 → RunsRequests [.setDot x y .black] s u → exec (.setDot x y .white) u = .next t →
    let row := y.toNat / 8 + s.client.startline.toNat / 8
    (∀ j, j < 8 → (bufByte t row x.toNat).getLsbD j
        = if j = y.toNat % 8 then false else (bufByte s row x.toNat).getLsbD j)
      ∧ (∀ r c, c < 128 → ¬(r = row ∧ c = x.toNat) → bufByte t r c = bufByte s r c)
      ∧ ((bufByte s row x.toNat).getLsbD (y.toNat % 8) = false →
          bufByte t row x.toNat = bufByte s row x.toNat)

/-- R148: `clearPage` fills the 128 logical bytes of its page, changes no other byte of display RAM and not the
buffer, and leaves the cursor past the page's last column. -/
def Obligations.ClearPageFillsItsPage : Prop :=
  ∀ (page : Byte) (color : Color) (s : State), EngineFree s → ChipsAnswer s → CursorInv s →
    MemoryInv s → page.toNat < 8 →
    ∃ t, exec (.clearPage page color) s = .next t ∧ RunsTo t fun u =>
      EngineFrame s u ∧ ClientFrame s u
        ∧ (∀ k p c, logicalByte u k p c
            = if p.toNat = page.toNat then (if color = .black then 0xFF else 0x00)
              else logicalByte s k p c)
        ∧ u.cache.x.toNat = 128 ∧ u.cache.y.toNat = 8 * page.toNat
        ∧ u.cache.page.toNat = page.toNat ∧ u.cache.pageStale = false ∧ u.cache.colStale = false
        ∧ DeviceFrame s.dev0 u.dev0 ∧ DeviceFrame s.dev1 u.dev1

/-- R149, R150: both screen clears fill every logical byte of the display; `clearScreen` zeroes the whole
buffer too, whatever the colour, and `clearScreenUnsafe` leaves it alone. -/
def Obligations.ClearScreenFillsTheDisplay : Prop :=
  ∀ (color : Color) (s : State), EngineFree s → ChipsAnswer s → CursorInv s → MemoryInv s →
    let filled (u : State) : Prop :=
      EngineFrame s u ∧ u.invert = s.invert ∧ u.env.reply = s.env.reply
        ∧ (∀ k p c, logicalByte u k p c = if color = .black then 0xFF else 0x00)
        ∧ u.cache.x.toNat = 128 ∧ u.cache.y.toNat = 56 ∧ u.cache.page = 7
        ∧ DeviceFrame s.dev0 u.dev0 ∧ DeviceFrame s.dev1 u.dev1
    (∃ t, exec (.clearScreen color) s = .next t ∧ RunsTo t fun u =>
        filled u ∧ (∀ r c, bufByte u r c = 0) ∧ u.client.startline = s.client.startline
          ∧ u.client.modes = s.client.modes)
      ∧ ∃ t, exec (.clearScreenUnsafe color) s = .next t ∧ RunsTo t fun u =>
        filled u ∧ u.client = s.client

/-- R151: `scroll` by 8 rows either way inside the bounds moves `startline` and repaints the display. -/
def Obligations.ScrollMovesAndRepaints : Prop :=
  ∀ (delta : Byte) (n : BitVec 8) (s : State), EngineFree s → ChipsAnswer s → CursorInv s →
    MemoryInv s → StartlineInv s → delta = 8 ∨ delta = 0xF8 →
    (n.toNat : Int) = s.client.startline.toNat + delta.toInt → n.toNat ≤ 192 →
    ∃ t, exec (.scroll delta) s = .next t ∧ RunsTo t fun u =>
      EngineFrame s u ∧ u.invert = s.invert ∧ u.env.reply = s.env.reply
        ∧ u.client = { s.client with startline := n }
        ∧ ShowsBuffer u.client u ∧ StripCursor u.client u.cache
        ∧ DeviceFrame s.dev0 u.dev0 ∧ DeviceFrame s.dev1 u.dev1

/-- R152: `scroll +8` and then `scroll -8` from below the upper bound restore `startline`. -/
def Obligations.ScrollUpThenDownRestoresStartline : Prop :=
  ∀ s u t : State, StartlineInv s → s.client.startline.toNat < 192 →
    RunsRequests [.scroll 8] s u → exec (.scroll 0xF8) u = .next t →
    t.client.startline = s.client.startline

/-- R153 to R155: `dumpBuffer` leaves the display showing the visible window of the buffer and the status
strip, and changes neither the buffer nor the scroll offset. -/
def Obligations.DumpBufferShowsTheWindow : Prop :=
  ∀ s : State, EngineFree s → ChipsAnswer s → CursorInv s → MemoryInv s → StartlineInv s →
    ∃ t, exec .dumpBuffer s = .next t ∧ RunsTo t fun u =>
      EngineFrame s u ∧ ClientFrame s u ∧ ShowsBuffer s.client u ∧ StripCursor s.client u.cache
        ∧ DeviceFrame s.dev0 u.dev0 ∧ DeviceFrame s.dev1 u.dev1

/-- R156: `getStartline` returns the scroll offset, with interrupts enabled or not, and writes nothing. -/
def Obligations.GetStartlineReturnsTheOffset : Prop :=
  ∀ s : State,
    exec .getStartline s
      = .next
          { s with
            host := { s.host with pc := s.host.pc + 1 }
            env := { s.env with reply := some (.startline s.client.startline) } }

/-- R159: what an engine or a client request, or a bus cycle, does, at once and in every later engine step,
does not depend on the touch registers and leaves them as they are. -/
def Obligations.RequestsIgnoreTheTouchRegisters : Prop :=
  (∀ (i : Instr) (s : State) (x : Touch),
      i.kind = .busWord ∨ i.kind = .engine ∨ i.kind = .client →
      exec i (withTouch x s) = outcomeWithTouch x (exec i s))
    ∧ ∀ (s : State) (x : Touch), engineStep (withTouch x s) = outcomeWithTouch x (engineStep s)

/-! ### The machine -/

/-- A step runs the decoded instruction: the foreground's next request, with the first engine step of the
operation it starts; the next bus cycle of an operation in progress; an environment event; an interrupt
that may be taken (R75, R76, R81, R167). (Whose turn it is, the model's agenda says: log 1; that the issuing
step also performs the first cycle: log 11.) -/
def Obligations.StepRunsTheDecodedInstruction : Prop :=
  ∀ s : State, halted s = none →
    (∀ w i, nextTurn s = .run → s.seq = [] → s.host.ctx = .fg → nextWord s = some w →
        decodeRequest w = .ok i → i.isRequest = true →
        step s
          = onNext (exec i (popTurn s)) fun t => if t.seq.isEmpty then .next t else engineStep t)
      ∧ (∀ b i rest, nextTurn s = .run → s.seq = .bus b :: rest → decodeBus (busOpWord b s) = .ok i →
          step s
            = onNext (exec i (driveSelect (selectOf (busOpWord b s)) (popTurn s)))
                fun t => .next (afterBusOp b rest t))
      ∧ (∀ e, nextTurn s = .event e → step s = exec (eventInstr e) (popTurn s))
      ∧ ∀ src, nextTurn s = .interrupt src → takeable src s = true →
          step s
            = onNext (exec (handlerInstr src) (popTurn s))
                fun t => if t.seq.isEmpty then .next t else engineStep t

/-- R99: every step keeps the cursor invariant: at the end of every engine operation the cursor and the
devices agree. -/
def Obligations.CursorAgreementIsKept : Prop :=
  ∀ s t : State, CursorInv s → step s = .next t → CursorInv t

/-- R57, R95: every step keeps every command and data cycle of the operation in progress behind a busy wait on
its own chip, with a listed command byte and one chip selected. -/
def Obligations.BusyWaitsAreKept : Prop :=
  ∀ s t : State, WaitedInv s → step s = .next t → WaitedInv t

/-- R90 to R92, R172: with its cycles behind their waits, the engine never reaches a fault of the devices; every
fault and refusal is raised at the start of a request of the foreground, no engine operation being in
progress, or refuses a conversion result. -/
def Obligations.FaultsComeBeforeAnyBusCycle : Prop :=
  ∀ s : State, WaitedInv s → StartlineInv s → halted s = none →
    step s ≠ .fault .unmodelledCommand ∧ step s ≠ .fault .unmodelledChipSelect
      ∧ step s ≠ .fault .cycleWhileBusy ∧ step s ≠ .fault .noSuchAddress
      ∧ (∀ f, step s = .fault f → s.seq = [] ∧ s.host.ctx = .fg ∧ nextTurn s = .run)
      ∧ ∀ r, step s = .refused r →
          (s.seq = [] ∧ s.host.ctx = .fg ∧ nextTurn s = .run)
            ∨ ∃ raw, nextTurn s = .event (.convDone raw) ∧ r = .badEvent

/-- Every step keeps the byte spaces in the canonical form of the model's lists, and their keys inside the numbers
of bytes that R45 gives the spaces. (The lists, their canonical form and the keys are the model's choice, none of
them a rule of the spec: log 5.) -/
def Obligations.MemoryFormIsKept : Prop :=
  ∀ s t : State, MemoryInv s → step s = .next t → MemoryInv t

/-- R16, R33, R39, R129: every step keeps the registers in the ranges the spec gives them: the scroll offset,
the cursor, the settle counter and the touch coordinates. -/
def Obligations.RegisterRangesAreKept : Prop :=
  ∀ s t : State, step s = .next t →
    (StartlineInv s → StartlineInv t) ∧ (CursorRangeInv s → CursorRangeInv t)
      ∧ (TouchInv s → TouchInv t)

/-- R116, R168, R192: every step keeps interrupts out of an engine operation: while one is in progress
`gie = 0`, and the context is the foreground or the button handler. -/
def Obligations.EngineOperationsExcludeHandlers : Prop :=
  ∀ s t : State, ContextInv s → step s = .next t → ContextInv t

/-- The state at power-on meets every invariant (R181). (The values it names where R181 says "any" and the form of
its byte spaces are the model's: logs 4, 5.) -/
def Obligations.PowerOnMeetsTheInvariants : Prop :=
  CursorInv State.reset ∧ WaitedInv State.reset ∧ MemoryInv State.reset ∧ StartlineInv State.reset
    ∧ CursorRangeInv State.reset ∧ TouchInv State.reset ∧ ContextInv State.reset

/-- R181: the registers at power-on, where the spec gives a value. -/
def Obligations.PowerOnValues : Prop :=
  State.reset.cache
      = { x := 0, y := 0, page := 0, pageStale := true, colStale := true, lastColChip := .zero }
    ∧ State.reset.invert = false ∧ State.reset.seq = []
    ∧ State.reset.touch.axis = Config.initAxis
    ∧ State.reset.touch.mux = Config.muxConfig Config.initAxis ∧ State.reset.touch.adc = .idle
    ∧ State.reset.touch.rawX = 0 ∧ State.reset.touch.rawY = 0 ∧ State.reset.touch.xx = 0
    ∧ State.reset.touch.yy = 0 ∧ State.reset.touch.lowPassEnabled = false
    ∧ State.reset.touch.settleCounter = 0 ∧ State.reset.touch.firstX = 0
    ∧ State.reset.touch.firstY = 0 ∧ State.reset.host.gie = false
    ∧ State.reset.host.timerIfg = false ∧ State.reset.host.adcIfg = false
    ∧ State.reset.host.btnIfg = false ∧ State.reset.host.wake = false
    ∧ State.reset.host.ctx = .fg ∧ State.reset.host.pc = 0 ∧ State.reset.host.faults = []
    ∧ State.reset.host.refused = false ∧ (∀ r c, bufByte State.reset r c = 0)
    ∧ State.reset.client.startline = 0
    ∧ State.reset.client.modes = { scroll := false, eraser := false, erase := false }

/-- R37, R172: the outcome registers. A step that answers a next state finds them empty and leaves them so: a
machine whose fault or refusal is recorded moves no more. What a stop leaves behind is the state of the step
with the fault or the refusal recorded, in addition to what was recorded before, and nothing else changed, so
`pc` is still at the request. (That the outcome is answered by the step and recorded by `afterOutcome` is the
model's form: log 13.) -/
def Obligations.OutcomeRegistersAreNeverCleared : Prop :=
  (∀ s t : State, step s = .next t →
      s.host.faults = [] ∧ s.host.refused = false ∧ t.host.faults = [] ∧ t.host.refused = false)
    ∧ ∀ s : State,
      let u := afterOutcome s (step s)
      (∀ f, f ∈ s.host.faults → f ∈ u.host.faults) ∧ (s.host.refused = true → u.host.refused = true)
        ∧ (∀ f, step s = .fault f →
            (∀ g, g ∈ u.host.faults ↔ g = f ∨ g ∈ s.host.faults)
              ∧ u = { s with host := { s.host with faults := u.host.faults } }
              ∧ ∀ t, step u ≠ .next t)
        ∧ ∀ r, step s = .refused r →
            u = { s with host := { s.host with refused := true } } ∧ ∀ t, step u ≠ .next t
end

