-- ==== Sys2Proof/Laws/Encode.lean ====
section
/-! SUPPORT. The fields of an encoded word, read back one by one. -/

namespace Sys2Proof

/-- The low part of a concatenation. -/
theorem extract_append_low {m n : Nat} (a : BitVec m) (b : BitVec n) {s l : Nat} (h : s + l ≤ n) :
    (a ++ b).extractLsb' s l = b.extractLsb' s l := by
  apply BitVec.eq_of_getElem_eq
  intro i hi
  simp [BitVec.getLsbD_append]
  intro h'; omega

/-- The high part of a concatenation. -/
theorem extract_append_high {m n : Nat} (a : BitVec m) (b : BitVec n) {s l : Nat} (h : n ≤ s) :
    (a ++ b).extractLsb' s l = a.extractLsb' (s - n) l := by
  apply BitVec.eq_of_getElem_eq
  intro i hi
  simp only [BitVec.getElem_extractLsb', BitVec.getLsbD_append]
  rw [if_neg (by omega)]
  congr 1; omega

/-- A whole word read back. -/
theorem extract_all {n : Nat} (a : BitVec n) : a.extractLsb' 0 n = a := by
  apply BitVec.eq_of_getElem_eq
  intro i hi
  simp

@[simp] theorem flagOfBit_bitOfFlag (b : Bool) : flagOfBit (bitOfFlag b) = b := by cases b <;> rfl
@[simp] theorem chipOfBit_bitOfChip (k : Chip) : chipOfBit (bitOfChip k) = k := by cases k <;> rfl
@[simp] theorem colorOfBit_bitOfColor (c : Color) : colorOfBit (bitOfColor c) = c := by
  cases c <;> rfl

@[simp] theorem selectOf_busWord (cs : BitVec 2) (di rw : Bool) (d : Byte) :
    selectOf (busWord cs di rw d) = cs := by
  unfold selectOf busWord
  rw [extract_append_high _ _ (by omega), extract_append_high _ _ (by omega),
    extract_append_high _ _ (by omega), extract_all]

theorem data_busWord (cs : BitVec 2) (di rw : Bool) (d : Byte) :
    (busWord cs di rw d).extractLsb' 0 8 = d := by
  unfold busWord
  rw [extract_append_low _ _ (by omega), extract_all]

theorem rw_busWord (cs : BitVec 2) (di rw : Bool) (d : Byte) :
    (busWord cs di rw d).extractLsb' 8 1 = bitOfFlag rw := by
  unfold busWord
  rw [extract_append_high _ _ (by omega), extract_append_low _ _ (by omega), extract_all]

theorem di_busWord (cs : BitVec 2) (di rw : Bool) (d : Byte) :
    (busWord cs di rw d).extractLsb' 9 1 = bitOfFlag di := by
  unfold busWord
  rw [extract_append_high _ _ (by omega), extract_append_high _ _ (by omega),
    extract_append_low _ _ (by omega), extract_all]

/-- A bus word decodes by its lines (R64). -/
theorem decodeBus_busWord (cs : BitVec 2) (di rw : Bool) (d : Byte) :
    decodeBus (busWord cs di rw d)
      = match di, rw with
        | false, false => decodeCommand cs d
        | false, true => .ok (.statusRead cs d)
        | true, false => .ok (.dataWrite cs d)
        | true, true => .ok (.dataRead cs d) := by
  cases di <;> cases rw <;>
    simp [decodeBus, selectOf_busWord, data_busWord, rw_busWord, di_busWord, flagOfBit_bitOfFlag]

/-- A Set page byte is one (R66). -/
theorem decodeCommand_setPage (cs : BitVec 2) (p : BitVec 3) :
    decodeCommand cs (0b10111#5 ++ p) = .ok (.cmdSetPage cs p) := by
  unfold decodeCommand
  have h5 : (0b10111#5 ++ p).extractLsb' 3 5 = 0b10111#5 := by
    rw [extract_append_high _ _ (by omega), extract_all]
  have h3 : (0b10111#5 ++ p).extractLsb' 0 3 = p := by
    rw [extract_append_low _ _ (by omega), extract_all]
  have key : ∀ q : BitVec 3, (0b10111#5 ++ q : Byte) ≠ 0x3F ∧ (0b10111#5 ++ q : Byte) ≠ 0x3E
      ∧ (0b10111#5 ++ q : Byte) ≠ 0xC0 := by decide
  have h := key p
  rw [if_neg h.1, if_neg h.2.1, if_neg h.2.2, if_pos h5, h3]

/-- A Set column byte is one (R67). -/
theorem decodeCommand_setColumn (cs : BitVec 2) (c : BitVec 6) :
    decodeCommand cs (0b01#2 ++ c) = .ok (.cmdSetColumn cs c) := by
  unfold decodeCommand
  have h2 : (0b01#2 ++ c).extractLsb' 6 2 = 0b01#2 := by
    rw [extract_append_high _ _ (by omega), extract_all]
  have h6 : (0b01#2 ++ c).extractLsb' 0 6 = c := by
    rw [extract_append_low _ _ (by omega), extract_all]
  have key : ∀ q : BitVec 6, (0b01#2 ++ q : Byte) ≠ 0x3F ∧ (0b01#2 ++ q : Byte) ≠ 0x3E
      ∧ (0b01#2 ++ q : Byte) ≠ 0xC0 ∧ (0b01#2 ++ q : Byte).extractLsb' 3 5 ≠ 0b10111#5 := by decide
  have h := key c
  rw [if_neg h.1, if_neg h.2.1, if_neg h.2.2.1, if_neg h.2.2.2, if_pos h2, h6]

/-- A listed command byte decodes (R65, R70). -/
theorem decodeCommand_listed (cs : BitVec 2) {c : Byte} (h : commandListed c = true) :
    ∃ i, decodeCommand cs c = .ok i := by
  simp only [commandListed, Bool.or_eq_true, beq_iff_eq] at h
  unfold decodeCommand
  split
  · exact ⟨_, rfl⟩
  split
  · exact ⟨_, rfl⟩
  split
  · exact ⟨_, rfl⟩
  split
  · exact ⟨_, rfl⟩
  split
  · exact ⟨_, rfl⟩
  · exfalso; simp_all

@[simp] theorem chipOfSelect_csEncode (k : Chip) : chipOfSelect (Config.csEncode k) = some k := by
  cases k <;> decide

end Sys2Proof
end

