-- ==== Sys2Proof/Laws/State.lean ====
section
/-! SUPPORT. What each named update of the state leaves alone, one lemma per field, and what it sets. -/

namespace Sys2Proof.Machine


/-! ### setDev -/
@[simp] theorem setDev_lines (s : State) (k : Chip) (d : Device) : (s.setDev k d).lines = s.lines := by cases k <;> rfl
@[simp] theorem setDev_cache (s : State) (k : Chip) (d : Device) : (s.setDev k d).cache = s.cache := by cases k <;> rfl
@[simp] theorem setDev_invert (s : State) (k : Chip) (d : Device) : (s.setDev k d).invert = s.invert := by cases k <;> rfl
@[simp] theorem setDev_seq (s : State) (k : Chip) (d : Device) : (s.setDev k d).seq = s.seq := by cases k <;> rfl
@[simp] theorem setDev_statusIn (s : State) (k : Chip) (d : Device) : (s.setDev k d).statusIn = s.statusIn := by cases k <;> rfl
@[simp] theorem setDev_dataIn (s : State) (k : Chip) (d : Device) : (s.setDev k d).dataIn = s.dataIn := by cases k <;> rfl
@[simp] theorem setDev_touch (s : State) (k : Chip) (d : Device) : (s.setDev k d).touch = s.touch := by cases k <;> rfl
@[simp] theorem setDev_host (s : State) (k : Chip) (d : Device) : (s.setDev k d).host = s.host := by cases k <;> rfl
@[simp] theorem setDev_client (s : State) (k : Chip) (d : Device) : (s.setDev k d).client = s.client := by cases k <;> rfl
@[simp] theorem setDev_env (s : State) (k : Chip) (d : Device) : (s.setDev k d).env = s.env := by cases k <;> rfl

/-! ### afterDraw -/
@[simp] theorem afterDraw_lines (s : State) : (afterDraw s).lines = s.lines := by unfold afterDraw; split <;> rfl
@[simp] theorem afterDraw_cache (s : State) : (afterDraw s).cache = s.cache := by unfold afterDraw; split <;> rfl
@[simp] theorem afterDraw_invert (s : State) : (afterDraw s).invert = s.invert := by unfold afterDraw; split <;> rfl
@[simp] theorem afterDraw_seq (s : State) : (afterDraw s).seq = s.seq := by unfold afterDraw; split <;> rfl
@[simp] theorem afterDraw_statusIn (s : State) : (afterDraw s).statusIn = s.statusIn := by unfold afterDraw; split <;> rfl
@[simp] theorem afterDraw_dataIn (s : State) : (afterDraw s).dataIn = s.dataIn := by unfold afterDraw; split <;> rfl
@[simp] theorem afterDraw_dev0 (s : State) : (afterDraw s).dev0 = s.dev0 := by unfold afterDraw; split <;> rfl
@[simp] theorem afterDraw_dev1 (s : State) : (afterDraw s).dev1 = s.dev1 := by unfold afterDraw; split <;> rfl
@[simp] theorem afterDraw_touch (s : State) : (afterDraw s).touch = s.touch := by unfold afterDraw; split <;> rfl
@[simp] theorem afterDraw_host (s : State) : (afterDraw s).host = s.host := by unfold afterDraw; split <;> rfl
@[simp] theorem afterDraw_client (s : State) : (afterDraw s).client = s.client := by unfold afterDraw; split <;> rfl

/-! ### driveSelect -/
@[simp] theorem driveSelect_cache (cs : BitVec 2) (s : State) : (driveSelect cs s).cache = s.cache := rfl
@[simp] theorem driveSelect_invert (cs : BitVec 2) (s : State) : (driveSelect cs s).invert = s.invert := rfl
@[simp] theorem driveSelect_seq (cs : BitVec 2) (s : State) : (driveSelect cs s).seq = s.seq := rfl
@[simp] theorem driveSelect_statusIn (cs : BitVec 2) (s : State) : (driveSelect cs s).statusIn = s.statusIn := rfl
@[simp] theorem driveSelect_dataIn (cs : BitVec 2) (s : State) : (driveSelect cs s).dataIn = s.dataIn := rfl
@[simp] theorem driveSelect_dev0 (cs : BitVec 2) (s : State) : (driveSelect cs s).dev0 = s.dev0 := rfl
@[simp] theorem driveSelect_dev1 (cs : BitVec 2) (s : State) : (driveSelect cs s).dev1 = s.dev1 := rfl
@[simp] theorem driveSelect_touch (cs : BitVec 2) (s : State) : (driveSelect cs s).touch = s.touch := rfl
@[simp] theorem driveSelect_host (cs : BitVec 2) (s : State) : (driveSelect cs s).host = s.host := rfl
@[simp] theorem driveSelect_client (cs : BitVec 2) (s : State) : (driveSelect cs s).client = s.client := rfl
@[simp] theorem driveSelect_env (cs : BitVec 2) (s : State) : (driveSelect cs s).env = s.env := rfl

/-! ### selectLines -/
@[simp] theorem selectLines_cache (k : Chip) (s : State) : (selectLines k s).cache = s.cache := rfl
@[simp] theorem selectLines_invert (k : Chip) (s : State) : (selectLines k s).invert = s.invert := rfl
@[simp] theorem selectLines_seq (k : Chip) (s : State) : (selectLines k s).seq = s.seq := rfl
@[simp] theorem selectLines_statusIn (k : Chip) (s : State) : (selectLines k s).statusIn = s.statusIn := rfl
@[simp] theorem selectLines_dataIn (k : Chip) (s : State) : (selectLines k s).dataIn = s.dataIn := rfl
@[simp] theorem selectLines_dev0 (k : Chip) (s : State) : (selectLines k s).dev0 = s.dev0 := rfl
@[simp] theorem selectLines_dev1 (k : Chip) (s : State) : (selectLines k s).dev1 = s.dev1 := rfl
@[simp] theorem selectLines_touch (k : Chip) (s : State) : (selectLines k s).touch = s.touch := rfl
@[simp] theorem selectLines_host (k : Chip) (s : State) : (selectLines k s).host = s.host := rfl
@[simp] theorem selectLines_client (k : Chip) (s : State) : (selectLines k s).client = s.client := rfl
@[simp] theorem selectLines_env (k : Chip) (s : State) : (selectLines k s).env = s.env := rfl

/-! ### driveLines -/
@[simp] theorem driveLines_cache (di rw : Bool) (d : Byte) (s : State) : (driveLines di rw d s).cache = s.cache := rfl
@[simp] theorem driveLines_invert (di rw : Bool) (d : Byte) (s : State) : (driveLines di rw d s).invert = s.invert := rfl
@[simp] theorem driveLines_seq (di rw : Bool) (d : Byte) (s : State) : (driveLines di rw d s).seq = s.seq := rfl
@[simp] theorem driveLines_statusIn (di rw : Bool) (d : Byte) (s : State) : (driveLines di rw d s).statusIn = s.statusIn := rfl
@[simp] theorem driveLines_dataIn (di rw : Bool) (d : Byte) (s : State) : (driveLines di rw d s).dataIn = s.dataIn := rfl
@[simp] theorem driveLines_dev0 (di rw : Bool) (d : Byte) (s : State) : (driveLines di rw d s).dev0 = s.dev0 := rfl
@[simp] theorem driveLines_dev1 (di rw : Bool) (d : Byte) (s : State) : (driveLines di rw d s).dev1 = s.dev1 := rfl
@[simp] theorem driveLines_touch (di rw : Bool) (d : Byte) (s : State) : (driveLines di rw d s).touch = s.touch := rfl
@[simp] theorem driveLines_host (di rw : Bool) (d : Byte) (s : State) : (driveLines di rw d s).host = s.host := rfl
@[simp] theorem driveLines_client (di rw : Bool) (d : Byte) (s : State) : (driveLines di rw d s).client = s.client := rfl
@[simp] theorem driveLines_env (di rw : Bool) (d : Byte) (s : State) : (driveLines di rw d s).env = s.env := rfl

/-! ### statusCycle -/
@[simp] theorem statusCycle_lines (k : Chip) (s : State) : (statusCycle k s).lines = s.lines := by unfold statusCycle; simp
@[simp] theorem statusCycle_cache (k : Chip) (s : State) : (statusCycle k s).cache = s.cache := by unfold statusCycle; simp
@[simp] theorem statusCycle_invert (k : Chip) (s : State) : (statusCycle k s).invert = s.invert := by unfold statusCycle; simp
@[simp] theorem statusCycle_seq (k : Chip) (s : State) : (statusCycle k s).seq = s.seq := by unfold statusCycle; simp
@[simp] theorem statusCycle_dataIn (k : Chip) (s : State) : (statusCycle k s).dataIn = s.dataIn := by unfold statusCycle; simp
@[simp] theorem statusCycle_touch (k : Chip) (s : State) : (statusCycle k s).touch = s.touch := by unfold statusCycle; simp
@[simp] theorem statusCycle_host (k : Chip) (s : State) : (statusCycle k s).host = s.host := by unfold statusCycle; simp
@[simp] theorem statusCycle_client (k : Chip) (s : State) : (statusCycle k s).client = s.client := by unfold statusCycle; simp

/-! ### takeInterrupt -/
@[simp] theorem takeInterrupt_lines (src : Source) (s : State) : (takeInterrupt src s).lines = s.lines := rfl
@[simp] theorem takeInterrupt_cache (src : Source) (s : State) : (takeInterrupt src s).cache = s.cache := rfl
@[simp] theorem takeInterrupt_invert (src : Source) (s : State) : (takeInterrupt src s).invert = s.invert := rfl
@[simp] theorem takeInterrupt_seq (src : Source) (s : State) : (takeInterrupt src s).seq = s.seq := rfl
@[simp] theorem takeInterrupt_statusIn (src : Source) (s : State) : (takeInterrupt src s).statusIn = s.statusIn := rfl
@[simp] theorem takeInterrupt_dataIn (src : Source) (s : State) : (takeInterrupt src s).dataIn = s.dataIn := rfl
@[simp] theorem takeInterrupt_dev0 (src : Source) (s : State) : (takeInterrupt src s).dev0 = s.dev0 := rfl
@[simp] theorem takeInterrupt_dev1 (src : Source) (s : State) : (takeInterrupt src s).dev1 = s.dev1 := rfl
@[simp] theorem takeInterrupt_touch (src : Source) (s : State) : (takeInterrupt src s).touch = s.touch := rfl
@[simp] theorem takeInterrupt_client (src : Source) (s : State) : (takeInterrupt src s).client = s.client := rfl
@[simp] theorem takeInterrupt_env (src : Source) (s : State) : (takeInterrupt src s).env = s.env := rfl

/-! ### returnFromInterrupt -/
@[simp] theorem returnFromInterrupt_lines (s : State) : (returnFromInterrupt s).lines = s.lines := rfl
@[simp] theorem returnFromInterrupt_cache (s : State) : (returnFromInterrupt s).cache = s.cache := rfl
@[simp] theorem returnFromInterrupt_invert (s : State) : (returnFromInterrupt s).invert = s.invert := rfl
@[simp] theorem returnFromInterrupt_seq (s : State) : (returnFromInterrupt s).seq = s.seq := rfl
@[simp] theorem returnFromInterrupt_statusIn (s : State) : (returnFromInterrupt s).statusIn = s.statusIn := rfl
@[simp] theorem returnFromInterrupt_dataIn (s : State) : (returnFromInterrupt s).dataIn = s.dataIn := rfl
@[simp] theorem returnFromInterrupt_dev0 (s : State) : (returnFromInterrupt s).dev0 = s.dev0 := rfl
@[simp] theorem returnFromInterrupt_dev1 (s : State) : (returnFromInterrupt s).dev1 = s.dev1 := rfl
@[simp] theorem returnFromInterrupt_touch (s : State) : (returnFromInterrupt s).touch = s.touch := rfl
@[simp] theorem returnFromInterrupt_client (s : State) : (returnFromInterrupt s).client = s.client := rfl
@[simp] theorem returnFromInterrupt_env (s : State) : (returnFromInterrupt s).env = s.env := rfl

/-! ### advance -/
@[simp] theorem advance_lines (s : State) : (advance s).lines = s.lines := rfl
@[simp] theorem advance_cache (s : State) : (advance s).cache = s.cache := rfl
@[simp] theorem advance_invert (s : State) : (advance s).invert = s.invert := rfl
@[simp] theorem advance_seq (s : State) : (advance s).seq = s.seq := rfl
@[simp] theorem advance_statusIn (s : State) : (advance s).statusIn = s.statusIn := rfl
@[simp] theorem advance_dataIn (s : State) : (advance s).dataIn = s.dataIn := rfl
@[simp] theorem advance_dev0 (s : State) : (advance s).dev0 = s.dev0 := rfl
@[simp] theorem advance_dev1 (s : State) : (advance s).dev1 = s.dev1 := rfl
@[simp] theorem advance_touch (s : State) : (advance s).touch = s.touch := rfl
@[simp] theorem advance_client (s : State) : (advance s).client = s.client := rfl
@[simp] theorem advance_env (s : State) : (advance s).env = s.env := rfl

/-! ### finish -/
@[simp] theorem finish_lines (s : State) : (finish s).lines = s.lines := by unfold finish; split <;> rfl
@[simp] theorem finish_cache (s : State) : (finish s).cache = s.cache := by unfold finish; split <;> rfl
@[simp] theorem finish_invert (s : State) : (finish s).invert = s.invert := by unfold finish; split <;> rfl
@[simp] theorem finish_seq (s : State) : (finish s).seq = s.seq := by unfold finish; split <;> rfl
@[simp] theorem finish_statusIn (s : State) : (finish s).statusIn = s.statusIn := by unfold finish; split <;> rfl
@[simp] theorem finish_dataIn (s : State) : (finish s).dataIn = s.dataIn := by unfold finish; split <;> rfl
@[simp] theorem finish_dev0 (s : State) : (finish s).dev0 = s.dev0 := by unfold finish; split <;> rfl
@[simp] theorem finish_dev1 (s : State) : (finish s).dev1 = s.dev1 := by unfold finish; split <;> rfl
@[simp] theorem finish_touch (s : State) : (finish s).touch = s.touch := by unfold finish; split <;> rfl
@[simp] theorem finish_client (s : State) : (finish s).client = s.client := by unfold finish; split <;> rfl
@[simp] theorem finish_env (s : State) : (finish s).env = s.env := by unfold finish; split <;> rfl

/-! ### spillInto -/
@[simp] theorem spillInto_lines (k : Chip) (col : BitVec 6) (s : State) : (spillInto k col s).lines = s.lines := by unfold spillInto; simp
@[simp] theorem spillInto_cache (k : Chip) (col : BitVec 6) (s : State) : (spillInto k col s).cache = s.cache := by unfold spillInto; simp
@[simp] theorem spillInto_invert (k : Chip) (col : BitVec 6) (s : State) : (spillInto k col s).invert = s.invert := by unfold spillInto; simp
@[simp] theorem spillInto_seq (k : Chip) (col : BitVec 6) (s : State) : (spillInto k col s).seq = s.seq := by unfold spillInto; simp
@[simp] theorem spillInto_statusIn (k : Chip) (col : BitVec 6) (s : State) : (spillInto k col s).statusIn = s.statusIn := by unfold spillInto; simp
@[simp] theorem spillInto_dataIn (k : Chip) (col : BitVec 6) (s : State) : (spillInto k col s).dataIn = s.dataIn := by unfold spillInto; simp
@[simp] theorem spillInto_touch (k : Chip) (col : BitVec 6) (s : State) : (spillInto k col s).touch = s.touch := by unfold spillInto; simp
@[simp] theorem spillInto_host (k : Chip) (col : BitVec 6) (s : State) : (spillInto k col s).host = s.host := by unfold spillInto; simp
@[simp] theorem spillInto_client (k : Chip) (col : BitVec 6) (s : State) : (spillInto k col s).client = s.client := by unfold spillInto; simp

/-! ### popTurn -/
@[simp] theorem popTurn_lines (s : State) : (popTurn s).lines = s.lines := rfl
@[simp] theorem popTurn_cache (s : State) : (popTurn s).cache = s.cache := rfl
@[simp] theorem popTurn_invert (s : State) : (popTurn s).invert = s.invert := rfl
@[simp] theorem popTurn_seq (s : State) : (popTurn s).seq = s.seq := rfl
@[simp] theorem popTurn_statusIn (s : State) : (popTurn s).statusIn = s.statusIn := rfl
@[simp] theorem popTurn_dataIn (s : State) : (popTurn s).dataIn = s.dataIn := rfl
@[simp] theorem popTurn_dev0 (s : State) : (popTurn s).dev0 = s.dev0 := rfl
@[simp] theorem popTurn_dev1 (s : State) : (popTurn s).dev1 = s.dev1 := rfl
@[simp] theorem popTurn_touch (s : State) : (popTurn s).touch = s.touch := rfl
@[simp] theorem popTurn_host (s : State) : (popTurn s).host = s.host := rfl
@[simp] theorem popTurn_client (s : State) : (popTurn s).client = s.client := rfl

/-! ### timerHandler -/
@[simp] theorem timerHandler_lines (s : State) : (timerHandler s).lines = s.lines := rfl
@[simp] theorem timerHandler_cache (s : State) : (timerHandler s).cache = s.cache := rfl
@[simp] theorem timerHandler_invert (s : State) : (timerHandler s).invert = s.invert := rfl
@[simp] theorem timerHandler_seq (s : State) : (timerHandler s).seq = s.seq := rfl
@[simp] theorem timerHandler_statusIn (s : State) : (timerHandler s).statusIn = s.statusIn := rfl
@[simp] theorem timerHandler_dataIn (s : State) : (timerHandler s).dataIn = s.dataIn := rfl
@[simp] theorem timerHandler_dev0 (s : State) : (timerHandler s).dev0 = s.dev0 := rfl
@[simp] theorem timerHandler_dev1 (s : State) : (timerHandler s).dev1 = s.dev1 := rfl
@[simp] theorem timerHandler_client (s : State) : (timerHandler s).client = s.client := rfl
@[simp] theorem timerHandler_env (s : State) : (timerHandler s).env = s.env := rfl

/-! ### adcHandler -/
@[simp] theorem adcHandler_lines (s : State) : (adcHandler s).lines = s.lines := rfl
@[simp] theorem adcHandler_cache (s : State) : (adcHandler s).cache = s.cache := rfl
@[simp] theorem adcHandler_invert (s : State) : (adcHandler s).invert = s.invert := rfl
@[simp] theorem adcHandler_seq (s : State) : (adcHandler s).seq = s.seq := rfl
@[simp] theorem adcHandler_statusIn (s : State) : (adcHandler s).statusIn = s.statusIn := rfl
@[simp] theorem adcHandler_dataIn (s : State) : (adcHandler s).dataIn = s.dataIn := rfl
@[simp] theorem adcHandler_dev0 (s : State) : (adcHandler s).dev0 = s.dev0 := rfl
@[simp] theorem adcHandler_dev1 (s : State) : (adcHandler s).dev1 = s.dev1 := rfl
@[simp] theorem adcHandler_client (s : State) : (adcHandler s).client = s.client := rfl
@[simp] theorem adcHandler_env (s : State) : (adcHandler s).env = s.env := rfl

/-! ### buttonHandler -/
@[simp] theorem buttonHandler_lines (s : State) : (buttonHandler s).lines = s.lines := rfl
@[simp] theorem buttonHandler_cache (s : State) : (buttonHandler s).cache = s.cache := rfl
@[simp] theorem buttonHandler_invert (s : State) : (buttonHandler s).invert = s.invert := rfl
@[simp] theorem buttonHandler_seq (s : State) : (buttonHandler s).seq = s.seq := rfl
@[simp] theorem buttonHandler_statusIn (s : State) : (buttonHandler s).statusIn = s.statusIn := rfl
@[simp] theorem buttonHandler_dataIn (s : State) : (buttonHandler s).dataIn = s.dataIn := rfl
@[simp] theorem buttonHandler_dev0 (s : State) : (buttonHandler s).dev0 = s.dev0 := rfl
@[simp] theorem buttonHandler_dev1 (s : State) : (buttonHandler s).dev1 = s.dev1 := rfl
@[simp] theorem buttonHandler_touch (s : State) : (buttonHandler s).touch = s.touch := rfl
@[simp] theorem buttonHandler_env (s : State) : (buttonHandler s).env = s.env := rfl

/-! ### initState -/
@[simp] theorem initState_cache (inv : Bool) (s : State) : (initState inv s).cache = s.cache := rfl
@[simp] theorem initState_seq (inv : Bool) (s : State) : (initState inv s).seq = s.seq := rfl
@[simp] theorem initState_statusIn (inv : Bool) (s : State) : (initState inv s).statusIn = s.statusIn := rfl
@[simp] theorem initState_dataIn (inv : Bool) (s : State) : (initState inv s).dataIn = s.dataIn := rfl
@[simp] theorem initState_dev0 (inv : Bool) (s : State) : (initState inv s).dev0 = s.dev0 := rfl
@[simp] theorem initState_dev1 (inv : Bool) (s : State) : (initState inv s).dev1 = s.dev1 := rfl
@[simp] theorem initState_touch (inv : Bool) (s : State) : (initState inv s).touch = s.touch := rfl
@[simp] theorem initState_host (inv : Bool) (s : State) : (initState inv s).host = s.host := rfl
@[simp] theorem initState_env (inv : Bool) (s : State) : (initState inv s).env = s.env := rfl

/-! ### Devices -/
@[simp] theorem setDev_dev_same (s : State) (k : Chip) (d : Device) : (s.setDev k d).dev k = d := by cases k <;> rfl
theorem setDev_dev_other (s : State) {k j : Chip} (d : Device) (h : j ≠ k) :
    (s.setDev k d).dev j = s.dev j := by cases k <;> cases j <;> first | rfl | exact absurd rfl h
@[simp] theorem afterDraw_dev (s : State) (j : Chip) : (afterDraw s).dev j = s.dev j := by cases j <;> simp [State.dev]
@[simp] theorem driveSelect_dev (cs : BitVec 2) (s : State) (j : Chip) : (driveSelect cs s).dev j = s.dev j := by cases j <;> simp [State.dev]
@[simp] theorem selectLines_dev (k : Chip) (s : State) (j : Chip) : (selectLines k s).dev j = s.dev j := by cases j <;> simp [State.dev]
@[simp] theorem driveLines_dev (di rw : Bool) (d : Byte) (s : State) (j : Chip) : (driveLines di rw d s).dev j = s.dev j := by cases j <;> simp [State.dev]
@[simp] theorem takeInterrupt_dev (src : Source) (s : State) (j : Chip) : (takeInterrupt src s).dev j = s.dev j := by cases j <;> simp [State.dev]
@[simp] theorem returnFromInterrupt_dev (s : State) (j : Chip) : (returnFromInterrupt s).dev j = s.dev j := by cases j <;> simp [State.dev]
@[simp] theorem advance_dev (s : State) (j : Chip) : (advance s).dev j = s.dev j := by cases j <;> simp [State.dev]
@[simp] theorem finish_dev (s : State) (j : Chip) : (finish s).dev j = s.dev j := by cases j <;> simp [State.dev]
@[simp] theorem popTurn_dev (s : State) (j : Chip) : (popTurn s).dev j = s.dev j := by cases j <;> simp [State.dev]
@[simp] theorem timerHandler_dev (s : State) (j : Chip) : (timerHandler s).dev j = s.dev j := by cases j <;> simp [State.dev]
@[simp] theorem adcHandler_dev (s : State) (j : Chip) : (adcHandler s).dev j = s.dev j := by cases j <;> simp [State.dev]
@[simp] theorem buttonHandler_dev (s : State) (j : Chip) : (buttonHandler s).dev j = s.dev j := by cases j <;> simp [State.dev]
@[simp] theorem initState_dev (inv : Bool) (s : State) (j : Chip) : (initState inv s).dev j = s.dev j := by cases j <;> simp [State.dev]

/-! ### Parts of the environment -/
@[simp] theorem afterDraw_program (s : State) : (afterDraw s).env.program = s.env.program := by unfold afterDraw; split <;> rfl
@[simp] theorem afterDraw_agenda (s : State) : (afterDraw s).env.agenda = s.env.agenda := by unfold afterDraw; split <;> rfl
@[simp] theorem afterDraw_reply (s : State) : (afterDraw s).env.reply = s.env.reply := by unfold afterDraw; split <;> rfl
@[simp] theorem afterDraw_draws (s : State) : (afterDraw s).env.draws = s.env.draws.tail := by unfold afterDraw; split <;> simp_all
@[simp] theorem setDev_dev0_zero (s : State) (d : Device) : (s.setDev .zero d).dev0 = d := rfl
@[simp] theorem setDev_dev1_one (s : State) (d : Device) : (s.setDev .one d).dev1 = d := rfl
@[simp] theorem setDev_dev1_zero (s : State) (d : Device) : (s.setDev .zero d).dev1 = s.dev1 := rfl
@[simp] theorem setDev_dev0_one (s : State) (d : Device) : (s.setDev .one d).dev0 = s.dev0 := rfl
@[simp] theorem driveSelect_cs (cs : BitVec 2) (s : State) : (driveSelect cs s).lines.cs = cs := rfl
@[simp] theorem selectLines_cs (k : Chip) (s : State) : (selectLines k s).lines.cs = Config.csEncode k := rfl
@[simp] theorem driveLines_cs (di rw : Bool) (d : Byte) (s : State) : (driveLines di rw d s).lines.cs = s.lines.cs := rfl

/-! ### Outcome registers -/

@[simp] theorem afterOutcome_next (s t : State) : afterOutcome s (.next t) = t := rfl

theorem mem_faults_afterOutcome_fault (s : State) (f g : Fault) :
    g ∈ (afterOutcome s (.fault f)).host.faults ↔ g = f ∨ g ∈ s.host.faults := by
  by_cases h : f ∈ s.host.faults
  · simp only [afterOutcome, if_pos h]
    exact ⟨.inr, fun e => e.elim (fun e => e ▸ h) id⟩
  · simp only [afterOutcome, if_neg h, List.mem_cons]

@[simp] theorem afterOutcome_refused (s : State) (r : Refusal) :
    afterOutcome s (.refused r) = { s with host := { s.host with refused := true } } := rfl

/-- A machine not yet stopped has empty outcome registers. -/
theorem halted_eq_none {s : State} :
    halted s = none ↔ s.host.faults = [] ∧ s.host.refused = false := by
  unfold halted
  cases s.host.faults <;> cases s.host.refused <;> simp

/-- What a stopped machine answers is no next state. -/
theorem halted_ne_next {s t : State} : halted s ≠ some (.next t) := by
  unfold halted
  cases s.host.faults <;> cases s.host.refused <;> simp

end Sys2Proof.Machine
end

