-- ==== Sys2Proof/Laws/Bus.lean ====
section
/-! SUPPORT. What one bus cycle can do: its frame, the device that answers, and the cycle behind a
decoded bus word. -/

namespace Sys2Proof.Machine

@[simp] theorem onNext_next (s : State) (f : State → Result) : onNext (.next s) f = f s := rfl
@[simp] theorem onNext_fault (e : Fault) (f : State → Result) : onNext (.fault e) f = .fault e := rfl
@[simp] theorem onNext_refused (e : Refusal) (f : State → Result) :
    onNext (.refused e) f = .refused e := rfl

/-- A continuation that answers a next state came from one. -/
theorem onNext_eq_next {r : Result} {f : State → Result} {t : State} (h : onNext r f = .next t) :
    ∃ s, r = .next s ∧ f s = .next t := by
  cases r with
  | next s => exact ⟨s, rfl, h⟩
  | fault e => cases h
  | refused e => cases h

/-- What no bus cycle touches: the bookkeeping, `seq`, `invert`, the touch registers, the host context,
the client state, the request list, the agenda and the reply. -/
structure BusFrame (s t : State) : Prop where
  cache : t.cache = s.cache
  seq : t.seq = s.seq
  invert : t.invert = s.invert
  touch : t.touch = s.touch
  host : t.host = s.host
  client : t.client = s.client
  program : t.env.program = s.env.program
  agenda : t.env.agenda = s.env.agenda
  reply : t.env.reply = s.env.reply

theorem BusFrame.refl (s : State) : BusFrame s s := ⟨rfl, rfl, rfl, rfl, rfl, rfl, rfl, rfl, rfl⟩

theorem BusFrame.trans {s t u : State} (h : BusFrame s t) (g : BusFrame t u) : BusFrame s u :=
  ⟨g.cache.trans h.cache, g.seq.trans h.seq, g.invert.trans h.invert, g.touch.trans h.touch,
    g.host.trans h.host, g.client.trans h.client, g.program.trans h.program,
    g.agenda.trans h.agenda, g.reply.trans h.reply⟩

theorem setDev_frame (s : State) (k : Chip) (d : Device) : BusFrame s (s.setDev k d) := by
  constructor <;> simp

theorem afterDraw_frame (s : State) : BusFrame s (afterDraw s) := by constructor <;> simp

theorem driveSelect_frame (cs : BitVec 2) (s : State) : BusFrame s (driveSelect cs s) := by
  constructor <;> simp

theorem driveLines_frame (di rw : Bool) (d : Byte) (s : State) : BusFrame s (driveLines di rw d s) := by
  constructor <;> simp

theorem statusCycle_frame (k : Chip) (s : State) : BusFrame s (statusCycle k s) := by
  constructor <;> simp [statusCycle]

/-- What a device can become in one cycle, and what the engine samples. -/
inductive DeviceChange (d : Device) : Device → Prop
  | command {c : Byte} {e : Device} (h : deviceCommand d c = some e) : DeviceChange d e
  | write (v : Byte) : DeviceChange d (deviceDataWrite d v)
  | read : DeviceChange d (deviceDataRead d)
  | status (b : Bool) (h : d.ready = true → b = true) : DeviceChange d { d with ready := b }

/-- A cycle changes the selected device only, and nothing of the frame. -/
theorem chipCycle_next {k : Chip} {di rw : Bool} {d : Byte} {s t : State}
    (h : chipCycle k di rw d s = .next t) :
    BusFrame s t ∧ DeviceChange (s.dev k) (t.dev k) ∧ ∀ j, j ≠ k → t.dev j = s.dev j := by
  have draw : ∀ {f : State → Result}, whenNotBusy k s f = .next t →
      ∃ s0, (s0 = s ∨ s0 = afterDraw s) ∧ f s0 = .next t := by
    intro f h
    unfold whenNotBusy at h
    split at h
    · exact ⟨s, .inl rfl, h⟩
    · split at h
      · cases h
      · exact ⟨_, .inr rfl, h⟩
  have same : ∀ s0, (s0 = s ∨ s0 = afterDraw s) → BusFrame s s0 ∧ ∀ j, s0.dev j = s.dev j := by
    rintro s0 (rfl | rfl)
    · exact ⟨.refl _, fun _ => rfl⟩
    · exact ⟨afterDraw_frame s, fun j => by simp⟩
  cases di <;> cases rw
  · obtain ⟨s0, h0, h⟩ := draw h
    obtain ⟨hf, hd⟩ := same s0 h0
    unfold commandCycle at h
    split at h
    · rename_i e he
      injection h with h
      subst h
      refine ⟨hf.trans (setDev_frame ..), ?_, fun j hj => by rw [setDev_dev_other _ _ hj, hd]⟩
      rw [setDev_dev_same]
      exact .command (hd k ▸ he)
    · cases h
  · injection h with h
    subst h
    refine ⟨statusCycle_frame .., ?_, fun j hj => ?_⟩
    · have : (statusCycle k s).dev k
          = { s.dev k with ready := (s.dev k).ready || !(statusByte (s.dev k) (drawnByte s)).msb } := by
        cases k <;> simp [statusCycle, State.dev, State.setDev]
      rw [this]
      exact .status _ (fun h => by simp [h])
    · cases k <;> cases j <;> first | exact absurd rfl hj | simp [statusCycle, State.dev, State.setDev]
  · obtain ⟨s0, h0, h⟩ := draw h
    obtain ⟨hf, hd⟩ := same s0 h0
    injection h with h
    subst h
    refine ⟨hf.trans (setDev_frame ..), ?_, fun j hj => by rw [setDev_dev_other _ _ hj, hd]⟩
    rw [setDev_dev_same, hd]
    exact .write _
  · obtain ⟨s0, h0, h⟩ := draw h
    obtain ⟨hf, hd⟩ := same s0 h0
    injection h with h
    subst h
    have hfr : BusFrame s0 { s0.setDev k (deviceDataRead (s0.dev k)) with dataIn := (s0.dev k).latch } := by
      constructor <;> simp
    refine ⟨hf.trans hfr, ?_, fun j hj => ?_⟩
    · have : State.dev { s0.setDev k (deviceDataRead (s0.dev k)) with dataIn := (s0.dev k).latch } k
          = deviceDataRead (s0.dev k) := by cases k <;> rfl
      rw [this, hd]
      exact .read
    · rw [← hd j]
      cases k <;> cases j <;> first | exact absurd rfl hj | rfl

/-- A Set page byte is rebuilt from its field (R66). -/
theorem setPageByte_field {c : Byte} (h : c.extractLsb' 3 5 = 0b10111#5) :
    setPageByte (c.extractLsb' 0 3) = c := by
  have key : ∀ c : Byte, c.extractLsb' 3 5 = 0b10111#5 → setPageByte (c.extractLsb' 0 3) = c := by
    decide
  exact key c h

/-- A Set column byte is rebuilt from its field (R67). -/
theorem setColumnByte_field {c : Byte} (h : c.extractLsb' 6 2 = 0b01#2) :
    setColumnByte (c.extractLsb' 0 6) = c := by
  have key : ∀ c : Byte, c.extractLsb' 6 2 = 0b01#2 → setColumnByte (c.extractLsb' 0 6) = c := by
    decide
  exact key c h

/-- A decoded command byte runs as the command cycle of that byte. -/
theorem exec_of_decodeCommand {cs : BitVec 2} {c : Byte} {i : Instr}
    (h : decodeCommand cs c = .ok i) (s : State) : exec i s = busCycle cs false false c s := by
  unfold decodeCommand at h
  repeat' split at h
  all_goals cases h
  · subst_vars; rfl
  · subst_vars; rfl
  · subst_vars; rfl
  · rename_i hp; simp only [exec, execCmdSetPage, setPageByte_field hp]
  · rename_i hc; simp only [exec, execCmdSetColumn, setColumnByte_field hc]

/-- A decoded bus word runs as the cycle its lines say (R64, R82). -/
theorem exec_of_decodeBus {w : BusWord} {i : Instr} (h : decodeBus w = .ok i) (s : State) :
    exec i s = busCycle (selectOf w) (flagOfBit (w.extractLsb' 9 1))
      (flagOfBit (w.extractLsb' 8 1)) (w.extractLsb' 0 8) s := by
  unfold decodeBus at h
  cases hdi : flagOfBit (w.extractLsb' 9 1) <;> cases hrw : flagOfBit (w.extractLsb' 8 1) <;>
    simp only [hdi, hrw] at h
  · exact exec_of_decodeCommand h s
  all_goals (injection h with h; subst h; rfl)

/-- A bus word that runs selects a chip, and does what that chip does with its lines. -/
theorem runBusWord_next {w : BusWord} {s t : State} (h : runBusWord w s = .next t) :
    ∃ k i, chipOfSelect (selectOf w) = some k ∧ decodeBus w = .ok i ∧
      chipCycle k (flagOfBit (w.extractLsb' 9 1)) (flagOfBit (w.extractLsb' 8 1)) (w.extractLsb' 0 8)
        (driveLines (flagOfBit (w.extractLsb' 9 1)) (flagOfBit (w.extractLsb' 8 1))
          (w.extractLsb' 0 8) (driveSelect (selectOf w) s)) = .next t := by
  unfold runBusWord at h
  split at h
  · rename_i i hi
    rw [exec_of_decodeBus hi] at h
    unfold busCycle at h
    split at h
    · cases h
    · rename_i k hk
      rw [if_pos (by simp)] at h
      exact ⟨k, i, hk, hi, h⟩
  · split at h <;> cases h

/-- A bus word leaves the frame alone, and every device but the selected one. -/
theorem runBusWord_frame {w : BusWord} {s t : State} (h : runBusWord w s = .next t) :
    BusFrame s t ∧ ∃ k, chipOfSelect (selectOf w) = some k ∧ DeviceChange (s.dev k) (t.dev k)
      ∧ ∀ j, j ≠ k → t.dev j = s.dev j := by
  obtain ⟨k, i, hk, -, h⟩ := runBusWord_next h
  obtain ⟨hf, hd, ho⟩ := chipCycle_next h
  refine ⟨(driveSelect_frame ..).trans ((driveLines_frame ..).trans hf), k, hk, ?_, fun j hj => ?_⟩
  · simpa using hd
  · simpa using ho j hj

@[simp] theorem chipWord_select (k : Chip) (di rw : Bool) (d : Byte) :
    selectOf (chipWord k di rw d) = Config.csEncode k := selectOf_busWord ..

/-- The engine's own words run: the chip they name does what their lines say, provided a command byte is
one of the table's (R82, R84). -/
theorem runBusWord_chipWord (k : Chip) (di rw : Bool) (d : Byte) (s : State)
    (hd : di = false → rw = false → commandListed d = true) :
    runBusWord (chipWord k di rw d) s
      = chipCycle k di rw d (driveLines di rw d (selectLines k s)) := by
  have hdec : ∃ i, decodeBus (chipWord k di rw d) = .ok i := by
    unfold chipWord
    rw [decodeBus_busWord]
    cases di <;> cases rw
    · exact decodeCommand_listed _ (hd rfl rfl)
    all_goals exact ⟨_, rfl⟩
  obtain ⟨i, hi⟩ := hdec
  unfold runBusWord
  rw [hi]
  simp only [exec_of_decodeBus hi, chipWord_select]
  unfold busCycle
  rw [chipOfSelect_csEncode]
  simp only [driveSelect_cs, if_true]
  unfold chipWord
  rw [di_busWord, rw_busWord, data_busWord, flagOfBit_bitOfFlag, flagOfBit_bitOfFlag]
  rfl

/-! ### The data-write cycle -/

/-- DATA_WRITE is the cycle with DI = 1 and RW = 0 (R82). -/
theorem execDataWrite_eq (cs : BitVec 2) (d : Byte) (s : State) :
    execDataWrite cs d s = busCycle cs true false d s := rfl

/-- A data write to a chip known to be ready drives the lines and does what R85 says to the device: the byte
stored, the column advanced, the chip no longer known to be ready. -/
theorem exec_dataWrite_of_ready {cs : BitVec 2} {k : Chip} {s : State} (d : Byte)
    (hk : chipOfSelect cs = some k) (hl : s.lines.cs = cs) (hr : (s.dev k).ready = true) :
    exec (.dataWrite cs d) s
      = .next ((driveLines true false d s).setDev k (deviceDataWrite (s.dev k) d)) := by
  have hr' : ((driveLines true false d s).dev k).ready = true := by cases k <;> exact hr
  show execDataWrite cs d s = _
  rw [execDataWrite_eq]
  simp only [busCycle, hk, hl, if_true, chipCycle, whenNotBusy, hr', dataWriteCycle]
  cases k <;> rfl

/-- A data write to a chip that is not known to be ready and whose busy bit is drawn 1 faults (R92). -/
theorem exec_dataWrite_of_busy {cs : BitVec 2} {k : Chip} {s : State} (d : Byte)
    (hk : chipOfSelect cs = some k) (hl : s.lines.cs = cs) (hr : (s.dev k).ready = false)
    (hb : (drawnByte s).msb = true) : exec (.dataWrite cs d) s = .fault .cycleWhileBusy := by
  have hb' : (drawnByte (driveLines true false d s)).msb = true := hb
  show execDataWrite cs d s = _
  rw [execDataWrite_eq]
  simp [busCycle, hk, hl, chipCycle, whenNotBusy, hr, hb']

end Sys2Proof.Machine
end

