-- ==== Sys2Proof/Laws/Run.lean ====
section
/-! SUPPORT. A run of the engine as a fold: what the entries of `seq` do to the part of the state that
counts (the view), and the theorem that the engine, its chips answering ready, does exactly that. -/

namespace Sys2Proof.Machine

/-! ### The view -/

/-- A state without what only the bus cycles themselves use: the lines, the drawn bytes, the status byte
and the devices' readiness. -/
structure View where
  cache : Cache
  dev0 : Device
  dev1 : Device
  dataIn : Byte
  invert : Bool
  client : Client
  reply : Option Reply

/-- A device without its readiness. -/
def Device.bare (d : Device) : Device := { d with ready := false }

/-- The view of a state. -/
def viewOf (s : State) : View :=
  { cache := s.cache
    dev0 := s.dev0.bare
    dev1 := s.dev1.bare
    dataIn := s.dataIn
    invert := s.invert
    client := s.client
    reply := s.env.reply }

/-- `dev[k]` of a view. -/
def View.dev (v : View) : Chip → Device
  | .zero => v.dev0
  | .one => v.dev1

/-- A view with a device replaced. -/
def View.setDev (v : View) (k : Chip) (d : Device) : View :=
  match k with
  | .zero => { v with dev0 := d }
  | .one => { v with dev1 := d }

@[simp] theorem viewOf_cache (s : State) : (viewOf s).cache = s.cache := rfl
@[simp] theorem viewOf_dataIn (s : State) : (viewOf s).dataIn = s.dataIn := rfl
@[simp] theorem viewOf_invert (s : State) : (viewOf s).invert = s.invert := rfl
@[simp] theorem viewOf_client (s : State) : (viewOf s).client = s.client := rfl
@[simp] theorem viewOf_reply (s : State) : (viewOf s).reply = s.env.reply := rfl
@[simp] theorem viewOf_dev (s : State) (k : Chip) : (viewOf s).dev k = (s.dev k).bare := by
  cases k <;> rfl

@[simp] theorem View.setDev_cache (v : View) (k : Chip) (d : Device) :
    (v.setDev k d).cache = v.cache := by cases k <;> rfl
@[simp] theorem View.setDev_dataIn (v : View) (k : Chip) (d : Device) :
    (v.setDev k d).dataIn = v.dataIn := by cases k <;> rfl
@[simp] theorem View.setDev_invert (v : View) (k : Chip) (d : Device) :
    (v.setDev k d).invert = v.invert := by cases k <;> rfl
@[simp] theorem View.setDev_client (v : View) (k : Chip) (d : Device) :
    (v.setDev k d).client = v.client := by cases k <;> rfl
@[simp] theorem View.setDev_reply (v : View) (k : Chip) (d : Device) :
    (v.setDev k d).reply = v.reply := by cases k <;> rfl
@[simp] theorem View.setDev_dev_same (v : View) (k : Chip) (d : Device) :
    (v.setDev k d).dev k = d := by cases k <;> rfl
theorem View.setDev_dev_other (v : View) {k j : Chip} (d : Device) (h : j ≠ k) :
    (v.setDev k d).dev j = v.dev j := by
  cases k <;> cases j <;> first | rfl | exact absurd rfl h

theorem viewOf_setDev (s : State) (k : Chip) (d : Device) :
    viewOf (s.setDev k d) = (viewOf s).setDev k d.bare := by
  cases k <;> rfl

theorem deviceDataWrite_bare (d : Device) (v : Byte) :
    (deviceDataWrite d v).bare = deviceDataWrite d.bare v := rfl

theorem deviceDataRead_bare (d : Device) : (deviceDataRead d).bare = deviceDataRead d.bare := rfl

theorem deviceCommand_bare (d : Device) (c : Byte) :
    deviceCommand d.bare c = (deviceCommand d c).map Device.bare := by
  unfold deviceCommand
  repeat' split
  all_goals rfl

theorem deviceCommand_ready {d e : Device} {c : Byte} (h : deviceCommand d c = some e) :
    e.ready = false := by
  unfold deviceCommand at h
  repeat' split at h
  all_goals first | (injection h with h; subst h; rfl) | cases h

/-- A listed command byte names a register (R84). -/
theorem deviceCommand_listed {c : Byte} (h : commandListed c = true) (d : Device) :
    ∃ e, deviceCommand d c = some e := by
  simp only [commandListed, Bool.or_eq_true, beq_iff_eq] at h
  unfold deviceCommand
  repeat' split
  all_goals first | exact ⟨_, rfl⟩ | (exfalso; simp_all)

/-! ### What one bus operation does to the view -/

/-- The effect of a cycle on the view (R84 to R88). -/
def chipEffect (k : Chip) (di rw : Bool) (d : Byte) (v : View) : View :=
  match di, rw with
  | false, false =>
    match deviceCommand (v.dev k) d with
    | some e => v.setDev k e
    | none => v
  | false, true => v
  | true, false => v.setDev k (deviceDataWrite (v.dev k) d)
  | true, true => { v.setDev k (deviceDataRead (v.dev k)) with dataIn := (v.dev k).latch }

/-- The effect of a bus word on the view. -/
def wordEffect (w : BusWord) (v : View) : View :=
  match chipOfSelect (selectOf w) with
  | none => v
  | some k =>
    chipEffect k (flagOfBit (w.extractLsb' 9 1)) (flagOfBit (w.extractLsb' 8 1)) (w.extractLsb' 0 8) v

/-- The effect of a bus operation on the view, its chip being ready. -/
def busEffect (b : BusOp) (v : View) : View :=
  match b with
  | .wait _ => v
  | .cycle w => wordEffect w v
  | .merge k keep bits =>
    chipEffect k true false (onBus v.invert ((onBus v.invert v.dataIn &&& keep) ||| bits)) v

/-- The effect of a note on the view; that of `spill` is left out. -/
def noteEffect (n : Note) (v : View) : View :=
  match n with
  | .cache c => { v with cache := c }
  | .deliver => { v with reply := some (.byte (onBus v.invert v.dataIn)) }
  | .spill _ _ => v
  | .clearBuffer => { v with client := { v.client with buf := [] } }

/-- The effect of the entries of `seq` on the view, their chips answering ready. -/
def opsEffect : List EngineOp → View → View
  | [], v => v
  | .bus b :: rest, v => opsEffect rest (busEffect b v)
  | .note n :: rest, v => opsEffect rest (noteEffect n v)

theorem opsEffect_append (p q : List EngineOp) (v : View) :
    opsEffect (p ++ q) v = opsEffect q (opsEffect p v) := by
  induction p generalizing v with
  | nil => rfl
  | cons op p ih => cases op <;> exact ih _

@[simp] theorem wordEffect_chipWord (k : Chip) (di rw : Bool) (d : Byte) (v : View) :
    wordEffect (chipWord k di rw d) v = chipEffect k di rw d v := by
  unfold wordEffect
  rw [chipWord_select, chipOfSelect_csEncode]
  unfold chipWord
  simp only [di_busWord, rw_busWord, data_busWord, flagOfBit_bitOfFlag]

/-! ### What stays outside the view -/

/-- The touch registers, the host context, the request list and the agenda. -/
structure OuterFrame (s t : State) : Prop where
  touch : t.touch = s.touch
  host : t.host = s.host
  program : t.env.program = s.env.program
  agenda : t.env.agenda = s.env.agenda

theorem OuterFrame.refl (s : State) : OuterFrame s s := ⟨rfl, rfl, rfl, rfl⟩

theorem OuterFrame.trans {s t u : State} (h : OuterFrame s t) (g : OuterFrame t u) :
    OuterFrame s u :=
  ⟨g.touch.trans h.touch, g.host.trans h.host, g.program.trans h.program, g.agenda.trans h.agenda⟩

theorem BusFrame.outer {s t : State} (h : BusFrame s t) : OuterFrame s t :=
  ⟨h.touch, h.host, h.program, h.agenda⟩

/-- Whether a note is one whose effect the view has. -/
def Note.plain : Note → Bool
  | .cache _ => true
  | .deliver => true
  | .spill _ _ => false
  | .clearBuffer => true

/-- Whether a bus operation is a wait, a command cycle or a data cycle. -/
def BusOp.plain : BusOp → Bool
  | .wait _ => true
  | .cycle w => flagOfBit (w.extractLsb' 9 1) || !flagOfBit (w.extractLsb' 8 1)
  | .merge _ _ _ => true

/-- Whether every entry of a list is plain. -/
def plainOps : List EngineOp → Bool
  | [] => true
  | .bus b :: rest => b.plain && plainOps rest
  | .note n :: rest => n.plain && plainOps rest

theorem plainOps_append (p q : List EngineOp) : plainOps (p ++ q) = (plainOps p && plainOps q) := by
  induction p with
  | nil => rfl
  | cons op p ih => cases op <;> simp [plainOps, ih, Bool.and_assoc]

/-- The busy waits of a list of entries. -/
def waitCount : List EngineOp → Nat
  | [] => 0
  | .bus (.wait _) :: rest => waitCount rest + 1
  | .bus (.cycle _) :: rest => waitCount rest
  | .bus (.merge _ _ _) :: rest => waitCount rest
  | .note _ :: rest => waitCount rest

theorem waitCount_append (p q : List EngineOp) : waitCount (p ++ q) = waitCount p + waitCount q := by
  induction p with
  | nil => simp [waitCount]
  | cons op p ih =>
    rcases op with (_ | _ | _) | _ <;> simp +arith [waitCount, ih]

theorem busOpsOf_append (p q : List EngineOp) : busOpsOf (p ++ q) = busOpsOf p ++ busOpsOf q := by
  induction p with
  | nil => rfl
  | cons op p ih => cases op <;> simp [busOpsOf, ih]

theorem busOpCount_eq_length (p : List EngineOp) : busOpCount p = (busOpsOf p).length := by
  induction p with
  | nil => rfl
  | cons op p ih => cases op <;> simp [busOpCount, busOpsOf, ih]

theorem cycleTrace_append (p q : List EngineOp) :
    cycleTrace (p ++ q) = cycleTrace p ++ cycleTrace q := by
  induction p with
  | nil => rfl
  | cons op p ih => rcases op with (_ | _ | _) | _ <;> simp [cycleTrace, ih]

theorem behindWaits_append (p q : List (Chip × Bool × Byte)) :
    behindWaits (p ++ q) = behindWaits p ++ behindWaits q := by
  induction p with
  | nil => rfl
  | cons c p ih => simp [behindWaits, ih]

theorem busOpCount_append (p q : List EngineOp) :
    busOpCount (p ++ q) = busOpCount p + busOpCount q := by
  induction p with
  | nil => simp [busOpCount]
  | cons op p ih => cases op <;> simp +arith [busOpCount, ih]

/-! ### Notes -/

/-- A plain note does its effect, draws nothing and leaves the devices' readiness. -/
theorem runNote_plain {n : Note} (h : n.plain = true) (s : State) :
    viewOf (runNote n s) = noteEffect n (viewOf s) ∧ OuterFrame s (runNote n s)
      ∧ (∀ k, (runNote n s).dev k = s.dev k) ∧ (runNote n s).env.draws = s.env.draws
      ∧ (runNote n s).seq = s.seq := by
  cases n with
  | cache c => exact ⟨rfl, ⟨rfl, rfl, rfl, rfl⟩, fun k => by cases k <;> rfl, rfl, rfl⟩
  | deliver => exact ⟨rfl, ⟨rfl, rfl, rfl, rfl⟩, fun k => by cases k <;> rfl, rfl, rfl⟩
  | spill k col => cases h
  | clearBuffer => exact ⟨rfl, ⟨rfl, rfl, rfl, rfl⟩, fun k => by cases k <;> rfl, rfl, rfl⟩

/-- What a list of entries looks like up to its first bus operation: notes, run at once. -/
theorem runNotes_split (ops : List EngineOp) (s : State) (hp : plainOps ops = true) :
    ∃ s1 r, runNotes ops s = (s1, r) ∧ OuterFrame s s1 ∧ (∀ k, s1.dev k = s.dev k)
      ∧ s1.env.draws = s.env.draws ∧ s1.seq = s.seq
      ∧ match r with
        | none => busOpCount ops = 0 ∧ viewOf s1 = opsEffect ops (viewOf s)
        | some (b, rest) =>
          busOpCount ops = busOpCount rest + 1 ∧ b.plain = true ∧ plainOps rest = true
            ∧ waitCount ops = waitCount (.bus b :: rest)
            ∧ opsEffect ops (viewOf s) = opsEffect rest (busEffect b (viewOf s1))
            ∧ ∀ r, Waited r ops → Waited r (.bus b :: rest) := by
  induction ops generalizing s with
  | nil => exact ⟨s, none, rfl, .refl s, fun _ => rfl, rfl, rfl, rfl, rfl⟩
  | cons op ops ih =>
    cases op with
    | bus b =>
      simp only [plainOps, Bool.and_eq_true] at hp
      exact ⟨s, some (b, ops), rfl, .refl s, fun _ => rfl, rfl, rfl, rfl, hp.1, hp.2, rfl, rfl,
        fun _ h => h⟩
    | note n =>
      simp only [plainOps, Bool.and_eq_true] at hp
      obtain ⟨hv, ho, hd, hdr, hs⟩ := runNote_plain hp.1 s
      obtain ⟨s1, r, h1, h2, h3, h4, h5, h6⟩ := ih (runNote n s) hp.2
      refine ⟨s1, r, h1, ho.trans h2, fun k => (h3 k).trans (hd k), h4.trans hdr, h5.trans hs, ?_⟩
      rw [hv] at h6
      cases r with
      | none => exact h6
      | some p => exact ⟨h6.1, h6.2.1, h6.2.2.1, h6.2.2.2.1, h6.2.2.2.2.1, fun r hw => h6.2.2.2.2.2 r hw⟩

/-! ### Bus operations -/

theorem runBusWord_of {w : BusWord} {k : Chip} {i : Instr} (hk : chipOfSelect (selectOf w) = some k)
    (hi : decodeBus w = .ok i) (s : State) :
    runBusWord w s
      = chipCycle k (flagOfBit (w.extractLsb' 9 1)) (flagOfBit (w.extractLsb' 8 1))
          (w.extractLsb' 0 8)
          (driveLines (flagOfBit (w.extractLsb' 9 1)) (flagOfBit (w.extractLsb' 8 1))
            (w.extractLsb' 0 8) (driveSelect (selectOf w) s)) := by
  unfold runBusWord
  rw [hi]
  simp only [exec_of_decodeBus hi]
  unfold busCycle
  rw [hk]
  simp only [driveSelect_cs, if_true]

/-- A chip known to be ready performs the cycle, which draws nothing unless it is a status read. -/
theorem chipCycle_ready {k : Chip} {di rw : Bool} {d : Byte} {s : State}
    (hr : (s.dev k).ready = true) (hl : di = false → rw = false → commandListed d = true)
    (hs : ¬(di = false ∧ rw = true)) :
    ∃ t, chipCycle k di rw d s = .next t ∧ viewOf t = chipEffect k di rw d (viewOf s)
      ∧ BusFrame s t ∧ (t.dev k).ready = false ∧ (∀ j, j ≠ k → t.dev j = s.dev j)
      ∧ t.env = s.env := by
  cases di <;> cases rw
  · obtain ⟨e, he⟩ := deviceCommand_listed (hl rfl rfl) (s.dev k)
    refine ⟨s.setDev k e, ?_, ?_, setDev_frame .., ?_, fun j hj => setDev_dev_other _ _ hj, by simp⟩
    · simp [chipCycle, whenNotBusy, hr, commandCycle, he]
    · rw [viewOf_setDev]
      simp [chipEffect, deviceCommand_bare, he]
    · rw [setDev_dev_same]; exact deviceCommand_ready he
  · exact absurd ⟨rfl, rfl⟩ hs
  · refine ⟨s.setDev k (deviceDataWrite (s.dev k) d), ?_, ?_, setDev_frame .., ?_,
      fun j hj => setDev_dev_other _ _ hj, by simp⟩
    · simp [chipCycle, whenNotBusy, hr, dataWriteCycle]
    · rw [viewOf_setDev]
      simp [chipEffect, deviceDataWrite_bare]
    · rw [setDev_dev_same]; rfl
  · refine ⟨{ s.setDev k (deviceDataRead (s.dev k)) with dataIn := (s.dev k).latch }, ?_, ?_, ?_, ?_,
      fun j hj => ?_, by simp⟩
    · simp [chipCycle, whenNotBusy, hr, dataReadCycle]
    · cases k <;> rfl
    · constructor <;> simp
    · cases k <;> rfl
    · cases k <;> cases j <;> first | exact absurd rfl hj | rfl

/-- The answer to a status read of a chip that draws a ready byte. -/
theorem statusByte_msb (d : Device) (b : Byte) : (statusByte d b).msb = (b.msb && !d.ready) := by
  have key : ∀ (x y : Bool) (c : Byte),
      (bitOfFlag x ++ c.extractLsb' 6 1 ++ bitOfFlag y ++ c.extractLsb' 0 5 : Byte).msb = x := by
    decide
  exact key (b.msb && !d.ready) (!d.on) b

theorem statusCycle_dev_same (k : Chip) (s : State) :
    (statusCycle k s).dev k
      = { s.dev k with ready := (s.dev k).ready || !(statusByte (s.dev k) (drawnByte s)).msb } := by
  cases k <;> simp [statusCycle, State.dev, State.setDev]

theorem statusCycle_dev_other {k j : Chip} (h : j ≠ k) (s : State) :
    (statusCycle k s).dev j = s.dev j := by
  cases k <;> cases j <;> first | exact absurd rfl h | simp [statusCycle, State.dev, State.setDev]

theorem statusCycle_view (k : Chip) (s : State) : viewOf (statusCycle k s) = viewOf s := by
  cases k <;> simp [statusCycle, viewOf, State.setDev, State.dev, Device.bare]

/-- Waited entries stay so when more chips are known to be ready. -/
theorem Waited.mono {r q : Chip → Bool} {ops : List EngineOp} (h : Waited r ops)
    (hrq : ∀ k, r k = true → q k = true) : Waited q ops := by
  induction ops generalizing r q with
  | nil => trivial
  | cons op ops ih =>
    rcases op with (k | w | ⟨k, keep, bits⟩) | n
    · refine ih (r := fun j => r j || j == k) h fun j hj => ?_
      rcases Bool.or_eq_true_iff.mp hj with hj | hj
      · exact Bool.or_eq_true_iff.mpr (.inl (hrq j hj))
      · exact Bool.or_eq_true_iff.mpr (.inr hj)
    · obtain ⟨k, i, hk, hi, hr, hw⟩ := h
      refine ⟨k, i, hk, hi, hrq k hr, ih hw fun j hj => ?_⟩
      rw [Bool.and_eq_true] at hj ⊢
      exact ⟨hrq j hj.1, hj.2⟩
    · refine ⟨hrq k h.1, ih h.2 fun j hj => ?_⟩
      rw [Bool.and_eq_true] at hj ⊢
      exact ⟨hrq j hj.1, hj.2⟩
    · exact ih (r := r) h hrq

theorem AnswersReady.mono {m n : Nat} {s : State} (h : AnswersReady n s) (hmn : m ≤ n) :
    AnswersReady m s :=
  ⟨Nat.le_trans hmn h.1, fun b hb => h.2 b (List.take_subset_take_left _ hmn hb)⟩

theorem AnswersReady.of_draws {n : Nat} {s t : State} (h : AnswersReady n s)
    (ht : t.env.draws = s.env.draws) : AnswersReady n t := by
  unfold AnswersReady; rw [ht]; exact h

/-- With a ready answer to come, the next byte is drawn from the list and is one. -/
theorem AnswersReady.head {n : Nat} {s : State} (h : AnswersReady (n + 1) s) :
    (drawnByte s).msb = false ∧ AnswersReady n (afterDraw s) := by
  obtain ⟨hl, hb⟩ := h
  unfold drawnByte
  cases hd : s.env.draws with
  | nil => rw [hd] at hl; simp at hl
  | cons b bs =>
    rw [hd] at hl hb
    refine ⟨hb b (by simp), ?_⟩
    unfold AnswersReady
    rw [afterDraw_draws, hd]
    simp only [List.tail_cons]
    refine ⟨by simpa using hl, fun c hc => hb c ?_⟩
    simp [hc]

/-- One bus operation whose chip is ready, or answers ready: its effect on the view, the frame, and the
readiness it leaves. -/
theorem busOp_step {b : BusOp} {rest : List EngineOp} {s : State} (hp : b.plain = true)
    (hw : Waited (fun k => (s.dev k).ready) (.bus b :: rest))
    (ha : AnswersReady (waitCount (.bus b :: rest)) s) :
    ∃ t, runBusWord (busOpWord b s) s = .next t ∧ viewOf t = busEffect b (viewOf s)
      ∧ BusFrame s t ∧ Waited (fun k => (t.dev k).ready) rest ∧ AnswersReady (waitCount rest) t
      ∧ ∀ k, b = .wait k → t.statusIn.msb = false := by
  rcases b with k | w | ⟨k, keep, bits⟩
  · have ha' : AnswersReady (waitCount rest + 1) s := ha
    obtain ⟨hm, hr⟩ := ha'.head
    let s1 := driveLines false true 0 (selectLines k s)
    have hs1 : drawnByte s1 = drawnByte s := rfl
    refine ⟨statusCycle k s1, ?_, ?_, ?_, ?_, ?_, ?_⟩
    · show runBusWord (chipWord k false true 0) s = _
      rw [runBusWord_chipWord _ _ _ _ _ (by simp)]
      rfl
    · rw [statusCycle_view]; rfl
    · exact ((driveSelect_frame ..).trans (driveLines_frame ..)).trans (statusCycle_frame ..)
    · refine Waited.mono (r := fun j => (s.dev j).ready || j == k) hw fun j hj => ?_
      by_cases hjk : j = k
      · subst hjk
        rw [statusCycle_dev_same]
        simp [statusByte_msb, hs1, hm]
      · rw [statusCycle_dev_other hjk]
        simpa [hjk, s1] using hj
    · refine AnswersReady.of_draws hr ?_
      simp only [afterDraw_draws]
      show (statusCycle k s1).env.draws = _
      simp [statusCycle, s1]
    · intro j hj
      show (statusByte (s1.dev k) (drawnByte s1)).msb = false
      rw [statusByte_msb, hs1, hm]; rfl
  · obtain ⟨k, i, hk, hi, hr, hwr⟩ := hw
    let s1 := driveLines (flagOfBit (w.extractLsb' 9 1)) (flagOfBit (w.extractLsb' 8 1))
      (w.extractLsb' 0 8) (driveSelect (selectOf w) s)
    have hr1 : (s1.dev k).ready = true := by simpa [s1] using hr
    have hf1 : BusFrame s s1 := (driveSelect_frame ..).trans (driveLines_frame ..)
    have hv1 : viewOf s1 = viewOf s := rfl
    have hrun := runBusWord_of hk hi s
    have hll : flagOfBit (w.extractLsb' 9 1) = false → flagOfBit (w.extractLsb' 8 1) = false →
        commandListed (w.extractLsb' 0 8) = true := by
      intro h1 h2
      have hi' := hi
      unfold decodeBus at hi'
      simp only [h1, h2] at hi'
      unfold decodeCommand at hi'
      repeat' split at hi'
      all_goals cases hi'
      all_goals simp_all [commandListed]
    have hst : ¬(flagOfBit (w.extractLsb' 9 1) = false ∧ flagOfBit (w.extractLsb' 8 1) = true) := by
      rintro ⟨h1, h2⟩
      simp [BusOp.plain, h1, h2] at hp
    obtain ⟨t, h1, h2, h3, h4, h5, h6⟩ := chipCycle_ready hr1 hll hst
    refine ⟨t, hrun.trans h1, ?_, hf1.trans h3, ?_, ?_, by simp⟩
    · rw [h2, hv1]
      show _ = wordEffect w (viewOf s)
      unfold wordEffect
      rw [hk]
    · refine Waited.mono hwr fun j hj => ?_
      rw [Bool.and_eq_true] at hj
      have hjk : j ≠ k := by simpa using hj.2
      rw [h5 j hjk]
      simpa [s1] using hj.1
    · refine AnswersReady.of_draws (s := s) ha ?_
      rw [h6]; rfl
  · obtain ⟨hr, hwr⟩ := hw
    let d := onBus s.invert ((onBus s.invert s.dataIn &&& keep) ||| bits)
    let s1 := driveLines true false d (selectLines k s)
    have hr1 : (s1.dev k).ready = true := by simpa [s1] using hr
    have hf1 : BusFrame s s1 := (driveSelect_frame ..).trans (driveLines_frame ..)
    obtain ⟨t, h1, h2, h3, h4, h5, h6⟩ :=
      chipCycle_ready (d := d) hr1 (di := true) (rw := false) (by simp) (by simp)
    refine ⟨t, ?_, h2, hf1.trans h3, ?_, ?_, by simp⟩
    · show runBusWord (chipWord k true false d) s = _
      rw [runBusWord_chipWord _ _ _ _ _ (by simp)]
      exact h1
    · refine Waited.mono hwr fun j hj => ?_
      rw [Bool.and_eq_true] at hj
      have hjk : j ≠ k := by simpa using hj.2
      rw [h5 j hjk]
      simpa [s1] using hj.1
    · refine AnswersReady.of_draws (s := s) ha ?_
      rw [h6]; rfl

/-! ### The run -/

/-- Notes before a list of entries run first. -/
theorem runNotes_append (p q : List EngineOp) (s s1 : State) (h : runNotes p s = (s1, none)) :
    runNotes (p ++ q) s = runNotes q s1 := by
  induction p generalizing s with
  | nil =>
    injection h with h
    subst h
    rfl
  | cons op p ih =>
    cases op with
    | bus b => simp [runNotes] at h
    | note n => exact ih _ h

/-- A bus operation before a list of entries is still the next one. -/
theorem runNotes_append_bus (p q : List EngineOp) (s s1 : State) (b : BusOp) (rest : List EngineOp)
    (h : runNotes p s = (s1, some (b, rest))) :
    runNotes (p ++ q) s = (s1, some (b, rest ++ q)) := by
  induction p generalizing s with
  | nil => simp [runNotes] at h
  | cons op p ih =>
    cases op with
    | bus c =>
      simp only [runNotes, Prod.mk.injEq, Option.some.injEq] at h
      obtain ⟨rfl, rfl, rfl⟩ := h
      rfl
    | note n => exact ih _ h

/-- Entries with no bus operation are all notes. -/
theorem runNotes_no_bus (p : List EngineOp) (s : State) (h : busOpCount p = 0) :
    ∃ s1, runNotes p s = (s1, none) := by
  induction p generalizing s with
  | nil => exact ⟨s, rfl⟩
  | cons op p ih =>
    cases op with
    | bus b => simp [busOpCount] at h
    | note n => exact ih _ h

/-- The run of the engine over plain entries `ops` and then notes `tail`, its chips answering ready: the
entries have their effect on the view, then the notes run, then `finish`; nothing outside changes before
the notes. -/
theorem engineRun_ops_tail (n : Nat) {s : State} {ops tail : List EngineOp}
    (hs : s.seq = ops ++ tail) (htail : busOpCount tail = 0) (hn : busOpCount ops = n + 1)
    (hp : plainOps ops = true) (hw : Waited (fun k => (s.dev k).ready) ops)
    (ha : AnswersReady (waitCount ops) s) :
    ∃ u, engineRun (n + 1) s = .next (finish { (runNotes tail u).1 with seq := [] })
      ∧ viewOf u = opsEffect ops (viewOf s) ∧ OuterFrame s u := by
  induction n generalizing s ops with
  | zero =>
    obtain ⟨s1, r, h1, h2, h3, h4, h5, h6⟩ := runNotes_split ops s hp
    rcases r with _ | ⟨b, rest⟩
    · omega
    · obtain ⟨h7, h8, h9, h10, h11, h12⟩ := h6
      have hw1 : Waited (fun k => (s1.dev k).ready) (.bus b :: rest) := by
        simp only [h3]; exact h12 _ hw
      have ha1 : AnswersReady (waitCount (.bus b :: rest)) s1 :=
        (h10 ▸ ha).of_draws h4
      obtain ⟨t, g1, g2, g3, -, -, g6⟩ := busOp_step h8 hw1 ha1
      obtain ⟨t1, r, k1, k2, k3, k4, k5, k6⟩ := runNotes_split rest t h9
      rcases r with _ | ⟨c, rest'⟩
      · have h1' := runNotes_append_bus ops tail s s1 b rest h1
        have k1' := runNotes_append rest tail t t1 k1
        obtain ⟨t2, ht2⟩ := runNotes_no_bus tail t1 htail
        refine ⟨t1, ?_, ?_, ?_⟩
        · have hl : leave (rest ++ tail) t = finish { t2 with seq := [] } := by
            unfold leave; rw [k1', ht2]
          have hb : afterBusOp b (rest ++ tail) t = finish { t2 with seq := [] } := by
            cases b with
            | wait k => simp [afterBusOp, g6 k rfl, hl]
            | cycle w => exact hl
            | merge k keep bits => exact hl
          simp [engineRun, engineStep, hs, h1', g1, hb, ht2]
        · rw [k6.2, g2, h11]
        · exact h2.trans (g3.outer.trans k2)
      · exfalso
        have := k6.1
        omega
  | succ n ih =>
    obtain ⟨s1, r, h1, h2, h3, h4, h5, h6⟩ := runNotes_split ops s hp
    rcases r with _ | ⟨b, rest⟩
    · omega
    · obtain ⟨h7, h8, h9, h10, h11, h12⟩ := h6
      have hw1 : Waited (fun k => (s1.dev k).ready) (.bus b :: rest) := by
        simp only [h3]; exact h12 _ hw
      have ha1 : AnswersReady (waitCount (.bus b :: rest)) s1 :=
        (h10 ▸ ha).of_draws h4
      obtain ⟨t, g1, g2, g3, g4, g5, g6⟩ := busOp_step h8 hw1 ha1
      obtain ⟨t1, r, k1, k2, k3, k4, k5, k6⟩ := runNotes_split rest t h9
      rcases r with _ | ⟨c, rest'⟩
      · exfalso
        have := k6.1
        omega
      · have h1' := runNotes_append_bus ops tail s s1 b rest h1
        have k1' := runNotes_append_bus rest tail t t1 c rest' k1
        have hl : leave (rest ++ tail) t = { t with seq := rest ++ tail } := by
          unfold leave; rw [k1']
        have hb : afterBusOp b (rest ++ tail) t = { t with seq := rest ++ tail } := by
          cases b with
          | wait k => simp [afterBusOp, g6 k rfl, hl]
          | cycle w => exact hl
          | merge k keep bits => exact hl
        obtain ⟨u, u1, u3, u4⟩ := ih (s := { t with seq := rest ++ tail }) (ops := rest) rfl
          (by omega) h9 (by simpa [State.dev] using g4) (g5.of_draws rfl)
        refine ⟨u, ?_, ?_, ?_⟩
        · rw [← u1]
          show engineRun (n + 1 + 1) s = _
          rw [engineRun]
          simp [engineStep, hs, h1', g1, hb]
        · rw [u3, h11, ← g2]; rfl
        · exact h2.trans (g3.outer.trans
            (OuterFrame.trans (t := { t with seq := rest ++ tail }) ⟨rfl, rfl, rfl, rfl⟩ u4))

/-- The run of the engine over plain entries, its chips answering ready: their effect on the view, then
`finish`, and nothing outside changes before it. -/
theorem engineRun_ops (n : Nat) {s : State} (hn : busOpCount s.seq = n + 1)
    (hp : plainOps s.seq = true) (hw : Waited (fun k => (s.dev k).ready) s.seq)
    (ha : AnswersReady (waitCount s.seq) s) :
    ∃ u, engineRun (n + 1) s = .next (finish { u with seq := [] })
      ∧ viewOf u = opsEffect s.seq (viewOf s) ∧ OuterFrame s u :=
  engineRun_ops_tail n (tail := []) (by simp) rfl hn hp hw ha

end Sys2Proof.Machine
end

