-- ==== Sys2Proof/Laws/Plans.lean ====
section
/-! SUPPORT. What every plan of the engine keeps: its cycles are behind their busy waits, its cursors are
legal, and the cursor agrees with the devices when it ends. One lemma per plan and property; a sequence
of plans keeps what its parts keep. -/

namespace Sys2Proof.Machine

/-! ### Geometry -/

@[simp] theorem cacheAt_x (x y : Nat) (c : Cache) : (cacheAt x y c).x = BitVec.ofNat 8 x := rfl

theorem toNat_ofNat8 {x : Nat} (h : x < 256) : (BitVec.ofNat 8 x).toNat = x := by
  simp [Nat.mod_eq_of_lt h]

theorem toNat_ofNat6 {y : Nat} (h : y < 64) : (BitVec.ofNat 6 y).toNat = y := by
  simp [Nat.mod_eq_of_lt h]

/-- The next column is one further, modulo 64 (R12, R87). -/
theorem colOf_succ (x : Nat) : colOf (x + 1) = colOf x + 1 := by
  unfold colOf
  apply BitVec.eq_of_toNat_eq
  have h1 : (1 : BitVec 6).toNat = 1 := rfl
  simp only [Config.chipCols, BitVec.toNat_add, BitVec.toNat_ofNat, h1]
  omega

/-! ### Waits -/

/-- A list of entries that waits for its own cycles, whatever the chips' readiness before it. -/
def SelfWaited (ops : List EngineOp) : Prop :=
  ∀ rest, Waited (fun _ => false) rest → Waited (fun _ => false) (ops ++ rest)

/-- A plan all of whose lists wait for their own cycles. -/
def PlanWaited (p : Plan) : Prop := ∀ c, SelfWaited (p c).1

theorem SelfWaited.nil : SelfWaited [] := fun _ h => h

theorem SelfWaited.append {p q : List EngineOp} (hp : SelfWaited p) (hq : SelfWaited q) :
    SelfWaited (p ++ q) := fun rest h => by
  rw [List.append_assoc]
  exact hp _ (hq _ h)

theorem SelfWaited.note (n : Note) : SelfWaited [.note n] := fun _ h => h

theorem SelfWaited.wait (k : Chip) : SelfWaited [waitOp k] := fun rest h =>
  Waited.mono (r := fun _ => false) (ops := rest) h (by simp)

/-- A cycle behind its own wait (R95). -/
theorem SelfWaited.cycle (k : Chip) (di rw : Bool) (d : Byte)
    (h : di = false → rw = false → commandListed d = true) : SelfWaited (waitedCycle k di rw d) := by
  intro rest hr
  have hdec : ∃ i, decodeBus (chipWord k di rw d) = .ok i := by
    unfold chipWord
    rw [decodeBus_busWord]
    cases di <;> cases rw
    · exact decodeCommand_listed _ (h rfl rfl)
    all_goals exact ⟨_, rfl⟩
  obtain ⟨i, hi⟩ := hdec
  exact ⟨k, i, by simp, hi, by simp, Waited.mono hr (by simp)⟩

theorem commandListed_setPage (p : BitVec 3) : commandListed (setPageByte p) = true := by
  have key : ∀ p : BitVec 3, commandListed (setPageByte p) = true := by decide
  exact key p

theorem commandListed_setColumn (c : BitVec 6) : commandListed (setColumnByte c) = true := by
  have key : ∀ c : BitVec 6, commandListed (setColumnByte c) = true := by decide
  exact key c

theorem SelfWaited.merge (k : Chip) (keep bits : Byte) :
    SelfWaited [waitOp k, .bus (.merge k keep bits)] := fun rest h =>
  ⟨by simp, Waited.mono h (by simp)⟩

theorem PlanWaited.then {p q : Plan} (hp : PlanWaited p) (hq : PlanWaited q) :
    PlanWaited (planThen p q) := fun c => (hp c).append (hq _)

theorem PlanWaited.each {α : Type} {f : α → Plan} (h : ∀ a, PlanWaited (f a)) (l : List α) :
    PlanWaited (planEach f l) := by
  induction l with
  | nil => exact fun _ => .nil
  | cons a l ih => exact (h a).then ih

theorem PlanWaited.ops {l : List EngineOp} (h : SelfWaited l) : PlanWaited (planOps l) := fun _ => h

theorem PlanWaited.cache (f : Cache → Cache) : PlanWaited (planCache f) := fun _ => .note _

theorem PlanWaited.goto (x y : Nat) : PlanWaited (gotoPlan x y) := by
  intro c
  unfold gotoPlan
  split
  · exact .nil
  · refine ((SelfWaited.append ?_ (.note _)).append ?_).append (.note _)
    · unfold pageCommands
      split
      · exact (SelfWaited.cycle _ _ _ _ fun _ _ => commandListed_setPage _).append
          (SelfWaited.cycle _ _ _ _ fun _ _ => commandListed_setPage _)
      · exact .nil
    · exact SelfWaited.cycle _ _ _ _ fun _ _ => commandListed_setColumn _

theorem PlanWaited.rehome : PlanWaited rehomePlan := by
  intro c
  unfold rehomePlan
  split
  · exact PlanWaited.goto _ _ c
  · exact .nil

theorem SelfWaited.read (c : Cache) : SelfWaited (readOps c) :=
  ((SelfWaited.cycle _ _ _ _ (by simp)).append (SelfWaited.cycle _ _ _ _ (by simp))).append
    (SelfWaited.cycle _ _ _ _ fun _ _ => commandListed_setColumn _)

theorem PlanWaited.read : PlanWaited readPlan :=
  PlanWaited.rehome.then fun c => SelfWaited.read c

theorem PlanWaited.half (k : Chip) (keep bits : Byte) : PlanWaited (halfPlan k keep bits) :=
  PlanWaited.read.then (.ops (.merge _ _ _))

theorem PlanWaited.split (d : Byte) : PlanWaited (splitPlan d) := by
  intro c
  unfold splitPlan
  refine (PlanWaited.half _ _ _).then ?_ c
  split
  · refine (PlanWaited.goto _ _).then ((PlanWaited.half _ _ _).then ?_)
    intro c
    unfold restorePlan
    split
    · exact PlanWaited.goto _ _ c
    · exact .note _
  · exact (PlanWaited.ops (.note _)).then (.cache _)

theorem PlanWaited.aligned (inv : Bool) (d : Byte) : PlanWaited (alignedPlan inv d) := fun _ =>
  (SelfWaited.cycle _ _ _ _ (by simp)).append (.note _)

theorem PlanWaited.write (inv : Bool) (d : Byte) : PlanWaited (writePlan inv d) := by
  intro c
  unfold writePlan
  split
  · exact .nil
  · refine PlanWaited.rehome.then ?_ c
    split
    · exact .aligned _ _
    · exact .split _

theorem PlanWaited.raw {cmd : Byte} {di : Bool} (k : Chip)
    (h : di = false → commandListed cmd = true) : PlanWaited (rawPlan cmd k di) :=
  (PlanWaited.ops (.cycle _ _ _ _ fun hd _ => h hd)).then (.cache _)

theorem PlanWaited.clearPage (inv : Bool) (page : Nat) (color : Color) :
    PlanWaited (clearPagePlan inv page color) :=
  (PlanWaited.goto _ _).then (.each (fun _ => .write _ _) _)

theorem PlanWaited.clearScreen (inv : Bool) (color : Color) :
    PlanWaited (clearScreenPlan inv color) := .each (fun _ => .clearPage _ _ _) _

theorem PlanWaited.strip (client : Client) : PlanWaited (stripPlan client) :=
  (PlanWaited.goto _ _).then (.each (fun _ => .raw _ (by simp)) _)

theorem PlanWaited.dump (inv : Bool) (client : Client) : PlanWaited (dumpPlan inv client) :=
  (PlanWaited.each (fun _ => (PlanWaited.goto _ _).then (.each (fun _ => .write _ _) _)) _).then
    (.strip client)

theorem PlanWaited.init (inv : Bool) : PlanWaited (initPlan inv) :=
  (PlanWaited.ops ((((SelfWaited.cycle _ _ _ _ (by decide)).append
    (SelfWaited.cycle _ _ _ _ (by decide))).append (SelfWaited.cycle _ _ _ _ (by decide))).append
      (SelfWaited.cycle _ _ _ _ (by decide)))).then
    ((PlanWaited.clearScreen _ _).then (.goto _ _))

theorem PlanWaited.dot (inv : Bool) (x y : Nat) (d : Byte) : PlanWaited (dotPlan inv x y d) :=
  (PlanWaited.goto _ _).then (.write _ _)

/-! ### Legal cursors -/

/-- A plan that keeps the cursor legal, at its end and wherever it sets it (R16). -/
def PlanLegal (p : Plan) : Prop :=
  ∀ c, CursorLegal c →
    CursorLegal (p c).2 ∧ ∀ c', EngineOp.note (.cache c') ∈ (p c).1 → CursorLegal c'

theorem PlanLegal.then {p q : Plan} (hp : PlanLegal p) (hq : PlanLegal q) :
    PlanLegal (planThen p q) := fun c hc => by
  obtain ⟨h1, h2⟩ := hp c hc
  obtain ⟨h3, h4⟩ := hq _ h1
  refine ⟨h3, fun c' h => ?_⟩
  rcases List.mem_append.mp h with h | h
  · exact h2 c' h
  · exact h4 c' h

theorem PlanLegal.none : PlanLegal planNone := fun _ hc => ⟨hc, by simp [planNone]⟩

theorem PlanLegal.each {α : Type} {f : α → Plan} (h : ∀ a, PlanLegal (f a)) (l : List α) :
    PlanLegal (planEach f l) := by
  induction l with
  | nil => exact .none
  | cons a l ih => exact (h a).then ih

theorem PlanLegal.ops {l : List EngineOp} (h : ∀ c, EngineOp.note (.cache c) ∉ l) :
    PlanLegal (planOps l) := fun _ hc => ⟨hc, fun c' hc' => absurd hc' (h c')⟩

theorem not_mem_waitedCycle (c : Cache) (k : Chip) (di rw : Bool) (d : Byte) :
    EngineOp.note (.cache c) ∉ waitedCycle k di rw d := by simp [waitedCycle, waitOp, cycleOp]

theorem PlanLegal.cache {f : Cache → Cache} (h : ∀ c, CursorLegal c → CursorLegal (f c)) :
    PlanLegal (planCache f) := fun c hc => by
  refine ⟨h c hc, fun c' h' => ?_⟩
  simp only [planCache, List.mem_singleton, EngineOp.note.injEq, Note.cache.injEq] at h'
  exact h' ▸ h c hc

theorem cursorLegal_at {x y : Nat} (hx : x < Config.width) (hy : y < Config.height) (c : Cache) :
    CursorLegal (cacheAt x y c) ∧ CursorLegal (cacheHomed x y c) := by
  simp only [Config.width, Config.height] at hx hy
  have h8 := toNat_ofNat8 (x := x) (by omega)
  have h6 := toNat_ofNat6 hy
  refine ⟨⟨?_, ?_⟩, ⟨?_, ?_⟩⟩
  · show (BitVec.ofNat 8 x).toNat ≤ 128; omega
  · show pageOf y = pageOf (BitVec.ofNat 6 y).toNat; rw [h6]
  · show (BitVec.ofNat 8 x).toNat ≤ 128; omega
  · show pageOf y = pageOf (BitVec.ofNat 6 y).toNat; rw [h6]

theorem PlanLegal.goto (x y : Nat) : PlanLegal (gotoPlan x y) := by
  intro c hc
  unfold gotoPlan
  split
  · exact ⟨hc, by simp⟩
  · rename_i h
    obtain ⟨h1, h2⟩ := cursorLegal_at (x := x) (y := y) (by omega) (by omega) c
    refine ⟨h2, fun c' h' => ?_⟩
    have hp : EngineOp.note (.cache c') ∉ pageCommands (pageOf y) c := by
      unfold pageCommands
      split
      · simp [writeCommand, not_mem_waitedCycle]
      · simp
    simp only [List.mem_append, List.mem_singleton, EngineOp.note.injEq, Note.cache.injEq] at h'
    rcases h' with ((h' | h') | h') | h'
    · exact absurd h' hp
    · exact h' ▸ h1
    · exact absurd h' (not_mem_waitedCycle _ _ _ _ _)
    · exact h' ▸ h2

theorem PlanLegal.rehome : PlanLegal rehomePlan := by
  intro c hc
  unfold rehomePlan
  split
  · exact PlanLegal.goto _ _ c hc
  · exact ⟨hc, by simp⟩

theorem PlanLegal.read : PlanLegal readPlan := by
  refine PlanLegal.rehome.then fun c hc => ⟨hc, fun c' h' => ?_⟩
  simp [readOps, writeCommand, not_mem_waitedCycle] at h'

theorem PlanLegal.half (k : Chip) (keep bits : Byte) : PlanLegal (halfPlan k keep bits) :=
  PlanLegal.read.then (.ops (by simp [waitOp]))

theorem rehome_keeps_cursor (c : Cache) :
    (rehomePlan c).2.x = c.x ∧ (rehomePlan c).2.y = c.y := by
  unfold rehomePlan
  split
  · unfold gotoPlan
    split
    · exact ⟨rfl, rfl⟩
    · exact ⟨by simp [cacheHomed, cacheAt], by simp [cacheHomed, cacheAt]⟩
  · exact ⟨rfl, rfl⟩

/-- The split write of a cursor on the display keeps it legal. -/
theorem legal_split (d : Byte) (c : Cache) (hc : CursorLegal c) (hx : c.x.toNat < Config.width) :
    CursorLegal (splitPlan d c).2
      ∧ ∀ c', EngineOp.note (.cache c') ∈ (splitPlan d c).1 → CursorLegal c' := by
  have hy := c.y.isLt
  simp only [Config.width] at hx
  unfold splitPlan
  refine (PlanLegal.half _ _ _).then ?_ c hc
  split
  · refine (PlanLegal.goto _ _).then ((PlanLegal.half _ _ _).then ?_)
    unfold restorePlan
    by_cases h : c.x.toNat + 1 < Config.width
    · simp only [h, if_true]; exact .goto _ _
    · simp only [h, if_false]
      refine .cache fun c' _ => ⟨Nat.le_refl 128, ?_⟩
      show c.page = pageOf (BitVec.ofNat 6 c.y.toNat).toNat
      rw [toNat_ofNat6 hy]; exact hc.2
  · rename_i h7
    refine (PlanLegal.ops (by simp)).then (.cache fun c' _ => ⟨?_, ?_⟩)
    · show (BitVec.ofNat 8 (c.x.toNat + 1)).toNat ≤ 128
      rw [toNat_ofNat8 (by omega)]; omega
    · show (7 : BitVec 3) = pageOf (BitVec.ofNat 6 c.y.toNat).toNat
      rw [toNat_ofNat6 hy, ← hc.2]
      have := c.page.isLt
      apply BitVec.eq_of_toNat_eq
      show 7 = c.page.toNat
      omega

theorem PlanLegal.write (inv : Bool) (d : Byte) : PlanLegal (writePlan inv d) := by
  intro c hc
  unfold writePlan
  split
  · exact ⟨hc, by simp⟩
  · rename_i hx
    obtain ⟨h1, h2⟩ := PlanLegal.rehome c hc
    obtain ⟨e1, e2⟩ := rehome_keeps_cursor c
    have hx' : (rehomePlan c).2.x.toNat < Config.width := by rw [e1]; omega
    have main : ∀ q : Plan,
        (CursorLegal (q (rehomePlan c).2).2
          ∧ ∀ c', EngineOp.note (.cache c') ∈ (q (rehomePlan c).2).1 → CursorLegal c') →
        CursorLegal (planThen rehomePlan q c).2
          ∧ ∀ c', EngineOp.note (.cache c') ∈ (planThen rehomePlan q c).1 → CursorLegal c' := by
      intro q ⟨h3, h4⟩
      refine ⟨h3, fun c' h => ?_⟩
      rcases List.mem_append.mp h with h | h
      · exact h2 c' h
      · exact h4 c' h
    split
    · refine main _ ?_
      have hn : CursorLegal (cacheNext (rehomePlan c).2) := by
        refine ⟨?_, h1.2⟩
        show ((rehomePlan c).2.x + 1).toNat ≤ 128
        simp only [Config.width] at hx'
        rw [BitVec.toNat_add]
        show ((rehomePlan c).2.x.toNat + 1) % 256 ≤ 128
        omega
      refine ⟨hn, fun c' h => ?_⟩
      simp only [alignedPlan, List.mem_append, List.mem_singleton, EngineOp.note.injEq,
        Note.cache.injEq] at h
      rcases h with h | h
      · exact absurd h (not_mem_waitedCycle _ _ _ _ _)
      · exact h ▸ hn
    · exact main _ (legal_split d _ h1 hx')

theorem staleAfterRaw_cursor (di : Bool) (cmd : Byte) (c : Cache) :
    (staleAfterRaw di cmd c).x = c.x ∧ (staleAfterRaw di cmd c).y = c.y
      ∧ (staleAfterRaw di cmd c).page = c.page
      ∧ (staleAfterRaw di cmd c).lastColChip = c.lastColChip := by
  unfold staleAfterRaw
  repeat' split
  all_goals exact ⟨rfl, rfl, rfl, rfl⟩

theorem PlanLegal.raw (cmd : Byte) (k : Chip) (di : Bool) : PlanLegal (rawPlan cmd k di) := by
  refine (PlanLegal.ops fun c => not_mem_waitedCycle c _ _ _ _).then (.cache fun c hc => ?_)
  obtain ⟨h1, h2, h3, -⟩ := staleAfterRaw_cursor di cmd c
  exact ⟨by rw [h1]; exact hc.1, by rw [h3, h2]; exact hc.2⟩

theorem PlanLegal.clearPage (inv : Bool) (page : Nat) (color : Color) :
    PlanLegal (clearPagePlan inv page color) :=
  (PlanLegal.goto _ _).then (.each (fun _ => .write _ _) _)

theorem PlanLegal.clearScreen (inv : Bool) (color : Color) :
    PlanLegal (clearScreenPlan inv color) := .each (fun _ => .clearPage _ _ _) _

theorem PlanLegal.strip (client : Client) : PlanLegal (stripPlan client) :=
  (PlanLegal.goto _ _).then (.each (fun _ => .raw _ _ _) _)

theorem PlanLegal.dump (inv : Bool) (client : Client) : PlanLegal (dumpPlan inv client) :=
  (PlanLegal.each (fun _ => (PlanLegal.goto _ _).then (.each (fun _ => .write _ _) _)) _).then
    (.strip client)

theorem PlanLegal.init (inv : Bool) : PlanLegal (initPlan inv) :=
  (PlanLegal.ops (by simp [writeCommand, not_mem_waitedCycle])).then
    ((PlanLegal.clearScreen _ _).then (.goto _ _))

theorem PlanLegal.dot (inv : Bool) (x y : Nat) (d : Byte) : PlanLegal (dotPlan inv x y d) :=
  (PlanLegal.goto _ _).then (.write _ _)

end Sys2Proof.Machine
end

