-- ==== Sys2Proof/Laws/Agreement.lean ====
section
/-! SUPPORT. The cursor agrees with the devices when a plan ends, if it did when it began (R99): one
lemma per plan. -/

namespace Sys2Proof.Machine

/-! ### Address registers -/

@[simp] theorem Addressing.setCol_cache (a : Addressing) (k : Chip) (c : BitVec 6) :
    (a.setCol k c).cache = a.cache := by cases k <;> rfl
@[simp] theorem Addressing.setPage_cache (a : Addressing) (k : Chip) (p : BitVec 3) :
    (a.setPage k p).cache = a.cache := by cases k <;> rfl
@[simp] theorem Addressing.setCol_col (a : Addressing) (k : Chip) (c : BitVec 6) :
    (a.setCol k c).col k = c := by cases k <;> rfl
@[simp] theorem Addressing.setCol_page0 (a : Addressing) (k : Chip) (c : BitVec 6) :
    (a.setCol k c).page0 = a.page0 := by cases k <;> rfl
@[simp] theorem Addressing.setCol_page1 (a : Addressing) (k : Chip) (c : BitVec 6) :
    (a.setCol k c).page1 = a.page1 := by cases k <;> rfl

/-- The page half of the cursor invariant (R99). -/
def PagesAgree (a : Addressing) : Prop :=
  a.cache.pageStale = false → a.page0 = a.cache.page ∧ a.page1 = a.cache.page

theorem Agrees.pages {a : Addressing} (h : Agrees a) : PagesAgree a := h.1

/-- No flag asks for a re-home (R100). -/
def HomedFlags (c : Cache) : Prop :=
  c.pageStale = false ∧ c.colStale = false ∧ chipOf c.x.toNat = c.lastColChip

theorem addressAfterWord_chipWord (k : Chip) (di rw : Bool) (d : Byte) (a : Addressing) :
    addressAfterWord (chipWord k di rw d) a
      = match di, rw with
        | false, false =>
          match decodeCommand (Config.csEncode k) d with
          | .ok (.cmdSetPage _ p) => a.setPage k p
          | .ok (.cmdSetColumn _ c) => a.setCol k c
          | _ => a
        | false, true => a
        | true, _ => a.setCol k (a.col k + 1) := by
  unfold addressAfterWord
  rw [chipWord_select, chipOfSelect_csEncode]
  unfold chipWord
  rw [decodeBus_busWord]
  cases di <;> cases rw
  · cases h : decodeCommand (Config.csEncode k) d with
    | error e => rfl
    | ok i =>
      unfold decodeCommand at h
      repeat' split at h
      all_goals first | (injection h with h; subst h; rfl) | cases h
  all_goals rfl

theorem agreesAfter_setPage {k : Chip} {p : BitVec 3} {rest : List EngineOp} {a : Addressing}
    (h : AgreesAfter rest (a.setPage k p)) :
    AgreesAfter (writeCommand (setPageByte p) k ++ rest) a := by
  show AgreesAfter rest (addressAfterWord (chipWord k false false (setPageByte p)) a)
  rw [addressAfterWord_chipWord]
  unfold setPageByte
  simpa only [decodeCommand_setPage] using h

theorem agreesAfter_setColumn {k : Chip} {c : BitVec 6} {rest : List EngineOp} {a : Addressing}
    (h : AgreesAfter rest (a.setCol k c)) :
    AgreesAfter (writeCommand (setColumnByte c) k ++ rest) a := by
  show AgreesAfter rest (addressAfterWord (chipWord k false false (setColumnByte c)) a)
  rw [addressAfterWord_chipWord]
  unfold setColumnByte
  simpa only [decodeCommand_setColumn] using h

theorem agreesAfter_data {k : Chip} {rw : Bool} {d : Byte} {rest : List EngineOp} {a : Addressing}
    (h : AgreesAfter rest (a.setCol k (a.col k + 1))) :
    AgreesAfter (waitedCycle k true rw d ++ rest) a := by
  show AgreesAfter rest (addressAfterWord (chipWord k true rw d) a)
  rw [addressAfterWord_chipWord]
  exact h

/-! ### Addressing plans -/

/-- `gotoXY` in range brings the devices to the cursor, whatever the column registers held (R96). -/
theorem agrees_goto {x y : Nat} (hx : x < Config.width) (hy : y < Config.height) {a : Addressing}
    (ha : PagesAgree a) {rest : List EngineOp}
    (h : ∀ a', Agrees a' → a'.cache = cacheHomed x y a.cache → AgreesAfter rest a') :
    AgreesAfter ((gotoPlan x y a.cache).1 ++ rest) a := by
  have hx8 : (BitVec.ofNat 8 x).toNat = x := toNat_ofNat8 (by simp only [Config.width] at hx; omega)
  have tail : ∀ a1 : Addressing, a1.page0 = pageOf y → a1.page1 = pageOf y →
      AgreesAfter ([.note (.cache (cacheAt x y a.cache))]
        ++ writeCommand (setColumnByte (colOf x)) (chipOf x)
        ++ [.note (.cache (cacheHomed x y a.cache))] ++ rest) a1 := by
    intro a1 h0 h1
    simp only [List.append_assoc, List.singleton_append]
    show AgreesAfter (writeCommand (setColumnByte (colOf x)) (chipOf x)
      ++ (.note (.cache (cacheHomed x y a.cache)) :: rest)) { a1 with cache := cacheAt x y a.cache }
    refine agreesAfter_setColumn (h _ ⟨fun _ => ?_, fun _ _ _ => ?_⟩ rfl)
    · exact ⟨(Addressing.setCol_page0 ..).trans h0, (Addressing.setCol_page1 ..).trans h1⟩
    · show Addressing.col _ (chipOf (BitVec.ofNat 8 x).toNat) = colOf (BitVec.ofNat 8 x).toNat
      rw [hx8]
      generalize chipOf x = k
      cases k <;> rfl
  unfold gotoPlan
  rw [if_neg (by omega)]
  unfold pageCommands
  by_cases hp : pageOf y ≠ a.cache.page ∨ a.cache.pageStale = true
  · rw [if_pos hp]
    simp only [List.append_assoc]
    refine agreesAfter_setPage (agreesAfter_setPage ?_)
    simpa only [List.append_assoc] using tail ((a.setPage .zero (pageOf y)).setPage .one (pageOf y)) rfl rfl
  · rw [if_neg hp]
    have hpage : pageOf y = a.cache.page := by
      by_cases e : pageOf y = a.cache.page
      · exact e
      · exact absurd (.inl e) hp
    have hst : a.cache.pageStale = false := by
      cases e : a.cache.pageStale
      · rfl
      · exact absurd (.inr e) hp
    obtain ⟨h0, h1⟩ := ha hst
    simpa only [List.append_assoc, List.nil_append] using tail a (h0.trans hpage.symm) (h1.trans hpage.symm)

/-- A re-home brings the devices to the cursor (R100). -/
theorem agrees_rehome {a : Addressing} (ha : Agrees a) (hx : a.cache.x.toNat < Config.width)
    {rest : List EngineOp}
    (h : ∀ a', Agrees a' → HomedFlags a'.cache → a'.cache = (rehomePlan a.cache).2 →
      AgreesAfter rest a') :
    AgreesAfter ((rehomePlan a.cache).1 ++ rest) a := by
  unfold rehomePlan at h ⊢
  split
  · rename_i hc
    rw [if_pos hc] at h
    refine agrees_goto hx a.cache.y.isLt ha.pages
      fun a' h1 h2 => h a' h1 ?_ ?_
    · rw [h2]
      refine ⟨rfl, rfl, ?_⟩
      show chipOf (BitVec.ofNat 8 a.cache.x.toNat).toNat = chipOf a.cache.x.toNat
      rw [toNat_ofNat8 (by simp only [Config.width] at hx; omega)]
    · rw [h2]
      unfold gotoPlan
      rw [if_neg (by have := a.cache.y.isLt; simp only [Config.height, Config.width] at *; omega)]
  · rename_i hc
    rw [if_neg hc] at h
    refine h a ha ⟨?_, ?_, ?_⟩ rfl
    · cases e : a.cache.pageStale
      · rfl
      · exact absurd (.inr (.inl e)) hc
    · cases e : a.cache.colStale
      · rfl
      · exact absurd (.inl e) hc
    · by_cases e : chipOf a.cache.x.toNat = a.cache.lastColChip
      · exact e
      · exact absurd (.inr (.inr e)) hc

theorem rehome_homed {c : Cache} (h : HomedFlags c) : rehomePlan c = ([], c) := by
  unfold rehomePlan
  rw [if_neg]
  rintro (e | e | e)
  · rw [h.2.1] at e; cases e
  · rw [h.1] at e; cases e
  · exact e h.2.2

/-! ### Data plans -/

/-- A half of a split write leaves the page registers and the bookkeeping alone (R106, R107). -/
theorem agrees_half {a : Addressing} (ha : PagesAgree a) (hf : HomedFlags a.cache) {k : Chip}
    {keep bits : Byte} {rest : List EngineOp}
    (h : ∀ a', PagesAgree a' → a'.cache = a.cache → AgreesAfter rest a') :
    AgreesAfter ((halfPlan k keep bits a.cache).1 ++ rest) a := by
  unfold halfPlan readPlan planThen
  rw [rehome_homed hf]
  simp only [List.nil_append, planOps]
  unfold readOps
  simp only [List.append_assoc]
  refine agreesAfter_data (agreesAfter_data (agreesAfter_setColumn ?_))
  refine h _ ?_ (by simp)
  intro hs
  simpa using ha (by simpa using hs)

theorem half_cache {c : Cache} (hf : HomedFlags c) (k : Chip) (keep bits : Byte) :
    (halfPlan k keep bits c).2 = c := by
  unfold halfPlan readPlan planThen
  rw [rehome_homed hf]
  rfl

/-- A plan after which the cursor agrees with the devices if it did before (R99). -/
def PlanAgrees (p : Plan) : Prop :=
  ∀ (a : Addressing) (rest : List EngineOp), Agrees a →
    (∀ a', Agrees a' → a'.cache = (p a.cache).2 → AgreesAfter rest a') →
    AgreesAfter ((p a.cache).1 ++ rest) a

theorem PlanAgrees.then {p q : Plan} (hp : PlanAgrees p) (hq : PlanAgrees q) :
    PlanAgrees (planThen p q) := by
  intro a rest ha h
  show AgreesAfter (((p a.cache).1 ++ (q (p a.cache).2).1) ++ rest) a
  rw [List.append_assoc]
  refine hp a _ ha fun a' ha' hc => ?_
  rw [← hc]
  refine hq a' _ ha' fun b hb hcb => h b hb ?_
  rw [hcb, hc]
  rfl

theorem PlanAgrees.none : PlanAgrees planNone := fun a _ ha h => h a ha rfl

theorem PlanAgrees.each {α : Type} {f : α → Plan} (h : ∀ a, PlanAgrees (f a)) (l : List α) :
    PlanAgrees (planEach f l) := by
  induction l with
  | nil => exact .none
  | cons a l ih => exact (h a).then ih

theorem PlanAgrees.goto (x y : Nat) : PlanAgrees (gotoPlan x y) := by
  intro a rest ha h
  by_cases hxy : x ≥ Config.width ∨ y ≥ Config.height
  · unfold gotoPlan at h ⊢
    rw [if_pos hxy] at h ⊢
    exact h a ha rfl
  · refine agrees_goto (by omega) (by omega) ha.pages fun a' h1 h2 => h a' h1 ?_
    rw [h2]
    unfold gotoPlan
    rw [if_neg hxy]

/-- The read part of a plan, the cursor being on the display (R102). -/
theorem agrees_read {a : Addressing} (ha : Agrees a) (hx : a.cache.x.toNat < Config.width)
    {rest : List EngineOp}
    (h : ∀ a', Agrees a' → a'.cache = (readPlan a.cache).2 → AgreesAfter rest a') :
    AgreesAfter ((readPlan a.cache).1 ++ rest) a := by
  show AgreesAfter (((rehomePlan a.cache).1 ++ readOps (rehomePlan a.cache).2) ++ rest) a
  rw [List.append_assoc]
  refine agrees_rehome ha hx fun b hb hf hc => ?_
  rw [← hc]
  unfold readOps
  simp only [List.append_assoc]
  refine agreesAfter_data (agreesAfter_data (agreesAfter_setColumn (h _ ⟨?_, ?_⟩ ?_)))
  · intro hs
    simpa using hb.1 (by simpa using hs)
  · intro _ _ _
    simp
  · simp only [Addressing.setCol_cache]; exact hc

theorem agrees_aligned {a : Addressing} (ha : Agrees a) (hf : HomedFlags a.cache)
    (hx : a.cache.x.toNat < Config.width) {inv : Bool} {d : Byte} {rest : List EngineOp}
    (h : ∀ a', Agrees a' → a'.cache = (alignedPlan inv d a.cache).2 → AgreesAfter rest a') :
    AgreesAfter ((alignedPlan inv d a.cache).1 ++ rest) a := by
  have hn : (a.cache.x + 1).toNat = a.cache.x.toNat + 1 := by
    simp only [Config.width] at hx
    rw [BitVec.toNat_add]
    show (a.cache.x.toNat + 1) % 256 = _
    omega
  unfold alignedPlan
  simp only [List.append_assoc, List.singleton_append]
  refine agreesAfter_data (h _ ⟨?_, ?_⟩ rfl)
  · intro _
    obtain ⟨h0, h1⟩ := ha.1 hf.1
    exact ⟨(Addressing.setCol_page0 ..).trans h0, (Addressing.setCol_page1 ..).trans h1⟩
  · intro _ _ h3
    have h3' : chipOf (a.cache.x + 1).toNat = a.cache.lastColChip := h3
    rw [← hf.2.2] at h3'
    show Addressing.col _ (chipOf (a.cache.x + 1).toNat) = colOf (a.cache.x + 1).toNat
    rw [h3', hn, colOf_succ, ← ha.2 hf.2.1 hx hf.2.2]
    generalize chipOf a.cache.x.toNat = k
    cases k <;> rfl

theorem agrees_restore {a : Addressing} (ha : PagesAgree a) {x y : Nat} (hy : y < Config.height)
    {page : BitVec 3} {rest : List EngineOp}
    (h : ∀ a', Agrees a' → a'.cache = (restorePlan x y page a.cache).2 → AgreesAfter rest a') :
    AgreesAfter ((restorePlan x y page a.cache).1 ++ rest) a := by
  unfold restorePlan at h ⊢
  split
  · rename_i hx
    rw [if_pos hx] at h
    refine agrees_goto hx hy ha fun a' h1 h2 => h a' h1 ?_
    rw [h2]
    unfold gotoPlan
    rw [if_neg (by omega)]
  · rename_i hx
    rw [if_neg hx] at h
    refine h _ ⟨fun e => (by cases e), fun _ e _ => ?_⟩ rfl
    exact absurd e (Nat.lt_irrefl 128)

theorem agrees_split {a : Addressing} (ha : Agrees a) (hf : HomedFlags a.cache) {d : Byte}
    {rest : List EngineOp}
    (h : ∀ a', Agrees a' → a'.cache = (splitPlan d a.cache).2 → AgreesAfter rest a') :
    AgreesAfter ((splitPlan d a.cache).1 ++ rest) a := by
  have hy := a.cache.y.isLt
  have hc := half_cache hf (chipOf a.cache.x.toNat) (loMask (yoff a.cache.y.toNat))
    (d <<< yoff a.cache.y.toNat)
  unfold splitPlan planThen at h ⊢
  simp only [hc] at h ⊢
  rw [List.append_assoc]
  refine agrees_half ha.pages hf fun b hb hbc => ?_
  rw [← hbc]
  rw [← hbc] at h hf
  split
  · rename_i h7
    rw [if_pos h7] at h
    unfold splitUpperPlan planThen at h ⊢
    simp only [List.append_assoc]
    by_cases hg : b.cache.x.toNat ≥ Config.width ∨ b.cache.y.toNat + 8 ≥ Config.height
    · have hg' : gotoPlan b.cache.x.toNat (b.cache.y.toNat + 8) b.cache = ([], b.cache) := by
        unfold gotoPlan; rw [if_pos hg]
      simp only [hg', List.nil_append, half_cache hf] at h ⊢
      refine agrees_half hb hf fun e he hec => ?_
      rw [← hec] at h ⊢
      exact agrees_restore he (by rw [hec]; exact b.cache.y.isLt) h
    · have hg' : (gotoPlan b.cache.x.toNat (b.cache.y.toNat + 8) b.cache).2
          = cacheHomed b.cache.x.toNat (b.cache.y.toNat + 8) b.cache := by
        unfold gotoPlan; rw [if_neg hg]
      have hf' : HomedFlags (cacheHomed b.cache.x.toNat (b.cache.y.toNat + 8) b.cache) := by
        refine ⟨rfl, rfl, ?_⟩
        show chipOf (BitVec.ofNat 8 b.cache.x.toNat).toNat = chipOf b.cache.x.toNat
        rw [toNat_ofNat8 b.cache.x.isLt]
      refine agrees_goto (by omega) (by omega) hb fun e he hec => ?_
      rw [hg', ← hec]
      rw [hg', ← hec] at h
      rw [← hec] at hf'
      simp only [half_cache hf'] at h ⊢
      refine agrees_half he.pages hf' fun g hg hgc => ?_
      rw [← hgc] at h ⊢
      exact agrees_restore hg b.cache.y.isLt h
  · rename_i h7
    rw [if_neg h7] at h
    intro c
    refine h _ ⟨fun _ => ?_, fun e => by cases e⟩ rfl
    have h7' : b.cache.page = 7 := by
      have := b.cache.page.isLt
      apply BitVec.eq_of_toNat_eq
      show b.cache.page.toNat = 7
      omega
    obtain ⟨h0, h1⟩ := hb hf.1
    refine ⟨?_, ?_⟩
    · show (b.setCol _ c).page0 = 7
      rw [Addressing.setCol_page0, h0, h7']
    · show (b.setCol _ c).page1 = 7
      rw [Addressing.setCol_page1, h1, h7']

theorem PlanAgrees.write (inv : Bool) (d : Byte) : PlanAgrees (writePlan inv d) := by
  intro a rest ha h
  unfold writePlan at h ⊢
  split
  · rename_i hx
    rw [if_pos hx] at h
    exact h a ha rfl
  · rename_i hx
    rw [if_neg hx] at h
    have hx' : a.cache.x.toNat < Config.width := by omega
    have e := rehome_keeps_cursor a.cache
    unfold planThen at h ⊢
    simp only [List.append_assoc]
    refine agrees_rehome ha hx' fun b hb hf hbc => ?_
    rw [← hbc] at h ⊢
    split
    · rename_i ho
      rw [if_pos ho] at h
      exact agrees_aligned hb hf (by rw [hbc, e.1]; exact hx') h
    · rename_i ho
      rw [if_neg ho] at h
      exact agrees_split hb hf h

/-- A raw cycle marks stale what it moves (R111, R112). -/
theorem PlanAgrees.raw {cmd : Byte} {di : Bool} (k : Chip)
    (hl : di = false → commandListed cmd = true) : PlanAgrees (rawPlan cmd k di) := by
  intro a rest ha h
  show AgreesAfter ((waitedCycle k di false cmd ++ [.note (.cache (staleAfterRaw di cmd a.cache))])
    ++ rest) a
  rw [List.append_assoc]
  cases di with
  | true =>
    refine agreesAfter_data (h _ ⟨?_, fun e => by cases e⟩ rfl)
    intro hs
    obtain ⟨h0, h1⟩ := ha.1 hs
    exact ⟨(Addressing.setCol_page0 ..).trans h0, (Addressing.setCol_page1 ..).trans h1⟩
  | false =>
    have hd := hl rfl
    simp only [commandListed, Bool.or_eq_true, beq_iff_eq] at hd
    show AgreesAfter (.note (.cache (staleAfterRaw false cmd a.cache)) :: rest)
      (addressAfterWord (chipWord k false false cmd) a)
    rw [addressAfterWord_chipWord]
    simp only
    by_cases hp : cmd.extractLsb' 3 5 = 0b10111#5
    · have hst : staleAfterRaw false cmd a.cache = { a.cache with pageStale := true } := by
        simp [staleAfterRaw, hp]
      rw [hst]
      have hd' : decodeCommand (Config.csEncode k) cmd
          = .ok (.cmdSetPage (Config.csEncode k) (cmd.extractLsb' 0 3)) := by
        have e := decodeCommand_setPage (Config.csEncode k) (cmd.extractLsb' 0 3)
        rwa [← setPageByte, setPageByte_field hp] at e
      rw [hd']
      refine h _ ⟨fun e => Bool.noConfusion e, fun h1 h2 h3 => ?_⟩ (by
        show _ = staleAfterRaw false cmd a.cache; rw [hst])
      have := ha.2 h1 h2 h3
      rw [← this]
      show Addressing.col _ (chipOf a.cache.x.toNat) = a.col (chipOf a.cache.x.toNat)
      generalize chipOf a.cache.x.toNat = j
      cases k <;> cases j <;> rfl
    · by_cases hc : cmd.extractLsb' 6 2 = 0b01#2
      · have hst : staleAfterRaw false cmd a.cache = { a.cache with colStale := true } := by
          simp [staleAfterRaw, hp, hc]
        rw [hst]
        have hd' : decodeCommand (Config.csEncode k) cmd
            = .ok (.cmdSetColumn (Config.csEncode k) (cmd.extractLsb' 0 6)) := by
          have e := decodeCommand_setColumn (Config.csEncode k) (cmd.extractLsb' 0 6)
          rwa [← setColumnByte, setColumnByte_field hc] at e
        rw [hd']
        refine h _ ⟨fun h1 => ?_, fun e => Bool.noConfusion e⟩ (by
          show _ = staleAfterRaw false cmd a.cache; rw [hst])
        obtain ⟨h0, h1⟩ := ha.1 h1
        exact ⟨(Addressing.setCol_page0 ..).trans h0, (Addressing.setCol_page1 ..).trans h1⟩
      · have hst : staleAfterRaw false cmd a.cache = a.cache := by
          simp [staleAfterRaw, hp, hc]
        rw [hst]
        have hno : (match decodeCommand (Config.csEncode k) cmd with
            | .ok (.cmdSetPage _ p) => a.setPage k p
            | .ok (.cmdSetColumn _ c) => a.setCol k c
            | _ => a) = a := by
          rcases hd with (((rfl | rfl) | rfl) | e) | e
          · rfl
          · rfl
          · rfl
          · exact absurd e hp
          · exact absurd e hc
        rw [hno]
        exact h a ha (by show _ = staleAfterRaw false cmd a.cache; rw [hst])

/-! ### Client plans -/

theorem PlanAgrees.clearPage (inv : Bool) (page : Nat) (color : Color) :
    PlanAgrees (clearPagePlan inv page color) :=
  (PlanAgrees.goto _ _).then (.each (fun _ => .write _ _) _)

theorem PlanAgrees.clearScreen (inv : Bool) (color : Color) :
    PlanAgrees (clearScreenPlan inv color) := .each (fun _ => .clearPage _ _ _) _

theorem PlanAgrees.strip (client : Client) : PlanAgrees (stripPlan client) :=
  (PlanAgrees.goto _ _).then (.each (fun _ => .raw _ (by simp)) _)

theorem PlanAgrees.dump (inv : Bool) (client : Client) : PlanAgrees (dumpPlan inv client) :=
  (PlanAgrees.each (fun _ => (PlanAgrees.goto _ _).then (.each (fun _ => .write _ _) _)) _).then
    (.strip client)

/-- Commands that move no address register (R84). -/
theorem agreesAfter_power {c : Byte} (hc : c = 0x3F ∨ c = 0xC0) {k : Chip} {rest : List EngineOp}
    {a : Addressing} (h : AgreesAfter rest a) : AgreesAfter (writeCommand c k ++ rest) a := by
  show AgreesAfter rest (addressAfterWord (chipWord k false false c) a)
  rw [addressAfterWord_chipWord]
  rcases hc with rfl | rfl <;> exact h

theorem PlanAgrees.init (inv : Bool) : PlanAgrees (initPlan inv) := by
  refine PlanAgrees.then (fun a rest ha h => ?_) ((PlanAgrees.clearScreen _ _).then (.goto _ _))
  simp only [planOps, List.append_assoc]
  exact agreesAfter_power (.inl rfl) (agreesAfter_power (.inl rfl) (agreesAfter_power (.inr rfl)
    (agreesAfter_power (.inr rfl) (h a ha rfl))))

theorem PlanAgrees.dot (inv : Bool) (x y : Nat) (d : Byte) : PlanAgrees (dotPlan inv x y d) :=
  (PlanAgrees.goto _ _).then (.write _ _)

end Sys2Proof.Machine
end

