-- ==== Sys2Proof/Laws/Memory.lean ====
section
/-! SUPPORT. The laws of a byte space: a read after a write, and the canonical form kept. -/

namespace Sys2Proof.Machine

@[simp] theorem Memory.read_nil (a : Nat) : Memory.read [] a = Memory.blank := rfl

/-- Below every listed address a space reads as its unlisted value. -/
theorem Memory.read_below {m : Memory} {a : Nat} (h : ∀ c ∈ m, a < c.1) :
    m.read a = Memory.blank := by
  induction m with
  | nil => rfl
  | cons c m ih =>
    have hc := h c (by simp)
    simp only [Memory.read]
    rw [if_neg (by omega)]
    exact ih (fun d hd => h d (by simp [hd]))

/-- A space in canonical form reads back what was written to the same address. -/
theorem Memory.read_write_same {m : Memory} (h : m.wf) (a : Nat) (v : Byte) :
    (m.write a v).read a = v := by
  induction m with
  | nil => by_cases hv : v = Memory.blank <;> simp [Memory.write, Memory.read, hv]
  | cons c m ih =>
    obtain ⟨b, w⟩ := c
    have hp := List.pairwise_cons.mp h.1
    have hm : Memory.wf m := ⟨hp.2, fun d hd => h.2 d (by simp [hd])⟩
    simp only [Memory.write]
    split
    · split
      · rename_i hlt hv
        rw [Memory.read_below, hv]
        intro d hd
        rcases List.mem_cons.mp hd with rfl | hd
        · exact hlt
        · exact Nat.lt_trans hlt (hp.1 d hd)
      · simp [Memory.read]
    · split
      · split
        · rename_i heq hv
          rw [Memory.read_below, hv]
          intro d hd
          exact heq ▸ hp.1 d hd
        · simp [Memory.read]
      · rename_i hne
        simp [Memory.read, hne, ih hm]

/-- Writing one address leaves every other one as it was. -/
theorem Memory.read_write_other (m : Memory) {a b : Nat} (h : b ≠ a) (v : Byte) :
    (m.write a v).read b = m.read b := by
  induction m with
  | nil => by_cases hv : v = Memory.blank <;> simp [Memory.write, Memory.read, hv, h]
  | cons c m ih =>
    obtain ⟨e, w⟩ := c
    simp only [Memory.write]
    split
    · split <;> simp [Memory.read, h]
    · split
      · rename_i heq
        split <;> simp [Memory.read, ← heq, h]
      · simp [Memory.read, ih]

theorem Memory.write_mem {m : Memory} {a : Nat} {v : Byte} {c : Host.Cell}
    (h : c ∈ m.write a v) : c ∈ m ∨ (c = (a, v) ∧ v ≠ Memory.blank) := by
  induction m with
  | nil =>
    simp only [Memory.write] at h
    split at h <;> simp_all
  | cons d m ih =>
    obtain ⟨b, w⟩ := d
    simp only [Memory.write] at h
    split at h
    · split at h
      · exact .inl h
      · rcases List.mem_cons.mp h with rfl | h
        · exact .inr ⟨rfl, by assumption⟩
        · exact .inl h
    · split at h
      · split at h
        · exact .inl (by simp [h])
        · rcases List.mem_cons.mp h with rfl | h
          · exact .inr ⟨rfl, by assumption⟩
          · exact .inl (by simp [h])
      · rcases List.mem_cons.mp h with rfl | h
        · exact .inl (by simp)
        · exact (ih h).imp (fun h => by simp [h]) id

/-- A write keeps the canonical form. -/
theorem Memory.write_wf {m : Memory} (h : m.wf) (a : Nat) (v : Byte) : (m.write a v).wf := by
  refine ⟨?_, fun c hc => ?_⟩
  · induction m with
    | nil => by_cases hv : v = Memory.blank <;> simp [Memory.write, hv]
    | cons c m ih =>
      obtain ⟨b, w⟩ := c
      have hp := List.pairwise_cons.mp h.1
      have hm : Memory.wf m := ⟨hp.2, fun d hd => h.2 d (by simp [hd])⟩
      simp only [Memory.write]
      split
      · split
        · exact h.1
        · refine List.pairwise_cons.mpr ⟨fun d hd => ?_, h.1⟩
          rcases List.mem_cons.mp hd with rfl | hd
          · assumption
          · exact Nat.lt_trans (by assumption) (hp.1 d hd)
      · split
        · rename_i heq
          split
          · exact hp.2
          · exact List.pairwise_cons.mpr ⟨fun d hd => heq ▸ hp.1 d hd, hp.2⟩
        · refine List.pairwise_cons.mpr ⟨fun d hd => ?_, ih hm⟩
          rcases Memory.write_mem hd with hd | ⟨rfl, -⟩
          · exact hp.1 d hd
          · show b < a
            omega
  · rcases Memory.write_mem hc with hc | ⟨rfl, hv⟩
    · exact h.2 c hc
    · exact hv

/-- A write inside a space keeps every listed address inside it. -/
theorem Memory.write_within {m : Memory} {size : Nat} (h : m.within size) {a : Nat} (ha : a < size)
    (v : Byte) : (m.write a v).within size := by
  intro c hc
  rcases Memory.write_mem hc with hc | ⟨rfl, -⟩
  · exact h c hc
  · exact ha

theorem Memory.empty_wf : Memory.wf [] := by decide

/-- Every cell of display RAM lies in its 512 bytes (R45). -/
theorem ramAddr_lt (p : BitVec 3) (c : BitVec 6) : ramAddr p c < 512 := by
  have := p.isLt; have := c.isLt
  unfold ramAddr; omega

/-- Different pages or columns are different cells (R45). -/
theorem ramAddr_inj {p q : BitVec 3} {c d : BitVec 6} :
    ramAddr p c = ramAddr q d ↔ p = q ∧ c = d := by
  have := p.isLt; have := c.isLt; have := q.isLt; have := d.isLt
  unfold ramAddr
  simp only [← BitVec.toNat_inj]
  omega

/-- Every cell of the frame buffer lies in its 4096 bytes (R45). -/
theorem bufAddr_lt {r c : Nat} (hr : r < Config.pagesTotal) (hc : c < Config.width) :
    bufAddr r c < 4096 := by
  unfold bufAddr; simp only [Config.pagesTotal, Config.screens, Config.width] at *; omega

/-- Different rows or columns are different cells (R45). -/
theorem bufAddr_inj {r q c d : Nat} (hc : c < Config.width) (hd : d < Config.width) :
    bufAddr r c = bufAddr q d ↔ r = q ∧ c = d := by
  unfold bufAddr; simp only [Config.width] at *; omega

end Sys2Proof.Machine
end

