-- ==== Sys2Proof/Laws/Effects.lean ====
section
/-! SUPPORT. What the plans of the engine do to the view: addressing, reads, aligned writes, a row of
bytes, the halves of a split write; and the run that an issued plan has. -/

namespace Sys2Proof.Machine

/-! ### Issuing a plan -/

theorem Waited.of_self {ops : List EngineOp} (h : SelfWaited ops) (r : Chip → Bool) :
    Waited r ops :=
  Waited.mono (by simpa using h [] trivial) (by simp)

/-- An issued list of plain entries that wait for themselves runs to its end, the chips answering: the
entries have their effect on the view, and nothing outside changes but by `finish`. -/
theorem runsTo_issue {ops tail : List EngineOp} {s : State} {P : State → Prop} (_hs : s.seq = [])
    (htail : busOpCount tail = 0) (hb : busOpCount ops ≠ 0)
    (hp : plainOps ops = true) (hw : SelfWaited ops) (ha : AnswersReady (waitCount ops) s)
    (h : ∀ u, viewOf u = opsEffect ops (viewOf s) → OuterFrame s u →
      (finish { (runNotes tail u).1 with seq := [] }).seq = [] →
      P (finish { (runNotes tail u).1 with seq := [] })) :
    RunsTo (issue (ops ++ tail) s) P := by
  cases hops : ops ++ tail with
  | nil =>
    rw [List.append_eq_nil_iff] at hops
    rw [hops.1] at hb
    exact absurd rfl hb
  | cons op rest =>
    obtain ⟨n, hn⟩ := Nat.exists_eq_succ_of_ne_zero hb
    obtain ⟨u, h1, h2, h3⟩ := engineRun_ops_tail n (s := { s with seq := op :: rest })
      (ops := ops) (tail := tail) hops.symm htail hn hp (Waited.of_self hw _) (ha.of_draws rfl)
    have hq : (finish { (runNotes tail u).1 with seq := [] }).seq = [] := by
      unfold finish
      split <;> rfl
    refine ⟨n + 1, _, h1, hq, h u h2 ?_ hq⟩
    exact OuterFrame.trans (t := { s with seq := op :: rest }) ⟨rfl, rfl, rfl, rfl⟩ h3

/-! ### Addressing -/

/-- The addressing of a view. -/
def View.addressing (v : View) : Addressing :=
  { cache := v.cache
    page0 := v.dev0.page
    page1 := v.dev1.page
    col0 := v.dev0.col
    col1 := v.dev1.col }

@[simp] theorem viewOf_addressing (s : State) : (viewOf s).addressing = addressing s := rfl

/-- A view in which no device is known to be ready. -/
def View.Bare (v : View) : Prop := v.dev0.ready = false ∧ v.dev1.ready = false

theorem viewOf_bare (s : State) : (viewOf s).Bare := ⟨rfl, rfl⟩

/-- What `gotoXY` in range does to the view (R96). -/
def View.goneTo (x y : Nat) (v : View) : View :=
  let v1 : View :=
    { v with
      cache := cacheHomed x y v.cache
      dev0 := { v.dev0 with page := pageOf y }
      dev1 := { v.dev1 with page := pageOf y } }
  v1.setDev (chipOf x) { v1.dev (chipOf x) with col := colOf x }

theorem deviceCommand_setPage (d : Device) (p : BitVec 3) :
    deviceCommand d (setPageByte p) = some { d with page := p, ready := false } := by
  have key : ∀ p : BitVec 3, setPageByte p ≠ 0x3F ∧ setPageByte p ≠ 0x3E ∧ setPageByte p ≠ 0xC0
      ∧ (setPageByte p).extractLsb' 3 5 = 0b10111#5 ∧ (setPageByte p).extractLsb' 0 3 = p := by decide
  obtain ⟨h1, h2, h3, h4, h5⟩ := key p
  unfold deviceCommand
  rw [if_neg h1, if_neg h2, if_neg h3, if_pos h4, h5]

theorem deviceCommand_setColumn (d : Device) (c : BitVec 6) :
    deviceCommand d (setColumnByte c) = some { d with col := c, ready := false } := by
  have key : ∀ c : BitVec 6, setColumnByte c ≠ 0x3F ∧ setColumnByte c ≠ 0x3E
      ∧ setColumnByte c ≠ 0xC0 ∧ (setColumnByte c).extractLsb' 3 5 ≠ 0b10111#5
      ∧ (setColumnByte c).extractLsb' 6 2 = 0b01#2 ∧ (setColumnByte c).extractLsb' 0 6 = c := by
    decide
  obtain ⟨h1, h2, h3, h4, h5, h6⟩ := key c
  unfold deviceCommand
  rw [if_neg h1, if_neg h2, if_neg h3, if_neg h4, if_pos h5, h6]

@[simp] theorem opsEffect_nil (v : View) : opsEffect [] v = v := rfl

@[simp] theorem opsEffect_cacheNote (c : Cache) (rest : List EngineOp) (v : View) :
    opsEffect (.note (.cache c) :: rest) v = opsEffect rest { v with cache := c } := rfl

theorem opsEffect_waitedCycle (k : Chip) (di rw : Bool) (d : Byte) (v : View) :
    opsEffect (waitedCycle k di rw d) v = chipEffect k di rw d v := by
  show wordEffect (chipWord k di rw d) v = _
  simp

theorem opsEffect_setPage (k : Chip) (p : BitVec 3) (v : View) :
    opsEffect (writeCommand (setPageByte p) k) v
      = v.setDev k { v.dev k with page := p, ready := false } := by
  unfold writeCommand
  rw [opsEffect_waitedCycle]
  simp [chipEffect, deviceCommand_setPage]

theorem opsEffect_setColumn (k : Chip) (c : BitVec 6) (v : View) :
    opsEffect (writeCommand (setColumnByte c) k) v
      = v.setDev k { v.dev k with col := c, ready := false } := by
  unfold writeCommand
  rw [opsEffect_waitedCycle]
  simp [chipEffect, deviceCommand_setColumn]

/-- The effect of `gotoXY` in range, the page registers agreeing with the cursor (R96, R98). -/
theorem opsEffect_goto {x y : Nat} (hx : x < Config.width) (hy : y < Config.height) {v : View}
    (hv : PagesAgree v.addressing) (hb : v.Bare) :
    opsEffect (gotoPlan x y v.cache).1 v = v.goneTo x y := by
  obtain ⟨b0, b1⟩ := hb
  unfold gotoPlan
  rw [if_neg (by omega)]
  simp only [opsEffect_append, opsEffect_cacheNote, opsEffect_nil]
  have hpages : opsEffect (pageCommands (pageOf y) v.cache) v
      = { v with
          dev0 := { v.dev0 with page := pageOf y }
          dev1 := { v.dev1 with page := pageOf y } } := by
    unfold pageCommands
    by_cases hp : pageOf y ≠ v.cache.page ∨ v.cache.pageStale = true
    · rw [if_pos hp, opsEffect_append, opsEffect_setPage, opsEffect_setPage]
      simp only [View.setDev, View.dev]
      cases v with
      | mk c d0 d1 a i cl r =>
        cases d0; cases d1
        simp_all
    · rw [if_neg hp]
      have hpage : pageOf y = v.cache.page := by
        by_cases e : pageOf y = v.cache.page
        · exact e
        · exact absurd (.inl e) hp
      have hst : v.cache.pageStale = false := by
        cases e : v.cache.pageStale
        · rfl
        · exact absurd (.inr e) hp
      obtain ⟨h0, h1⟩ := hv hst
      have e0 : v.dev0.page = pageOf y := h0.trans hpage.symm
      have e1 : v.dev1.page = pageOf y := h1.trans hpage.symm
      rw [← e0]
      have e2 : ({ v.dev1 with page := v.dev0.page } : Device) = v.dev1 := by rw [e0, ← e1]
      rw [e2]
      rfl
  rw [hpages, opsEffect_setColumn]
  unfold View.goneTo
  generalize chipOf x = k
  cases k <;> simp [View.setDev, View.dev, b0, b1]

theorem goneTo_bare {x y : Nat} {v : View} (hb : v.Bare) : (v.goneTo x y).Bare := by
  obtain ⟨b0, b1⟩ := hb
  unfold View.goneTo
  generalize chipOf x = k
  cases k <;> exact ⟨b0, b1⟩

theorem goto_cache {x y : Nat} (hx : x < Config.width) (hy : y < Config.height) (c : Cache) :
    (gotoPlan x y c).2 = cacheHomed x y c := by
  unfold gotoPlan
  rw [if_neg (by omega)]

/-! ### A cursor brought home -/

/-- The cursor is at column `x`, row `y`, its flags are clear, and the devices are where it says. -/
structure HomedAt (x y : Nat) (v : View) : Prop where
  atX : v.cache.x.toNat = x
  atY : v.cache.y.toNat = y
  page : v.cache.page = pageOf y
  pageStale : v.cache.pageStale = false
  colStale : v.cache.colStale = false
  page0 : v.dev0.page = pageOf y
  page1 : v.dev1.page = pageOf y
  col : x < Config.width → chipOf x = v.cache.lastColChip → (v.dev (chipOf x)).col = colOf x
  bare : v.Bare

theorem goneTo_homed {x y : Nat} (hx : x < Config.width) (hy : y < Config.height) {v : View}
    (hb : v.Bare) : HomedAt x y (v.goneTo x y) ∧ (v.goneTo x y).cache = cacheHomed x y v.cache
      ∧ (v.goneTo x y).cache.lastColChip = chipOf x := by
  have hc : (v.goneTo x y).cache = cacheHomed x y v.cache := by
    unfold View.goneTo; simp
  have h8 := toNat_ofNat8 (x := x) (by simp only [Config.width] at hx; omega)
  have h6 := toNat_ofNat6 (y := y) hy
  refine ⟨⟨?_, ?_, ?_, ?_, ?_, ?_, ?_, ?_, goneTo_bare hb⟩, hc, by rw [hc]; rfl⟩
  · rw [hc]; exact h8
  · rw [hc]; exact h6
  · rw [hc]; rfl
  · rw [hc]; rfl
  · rw [hc]; rfl
  · unfold View.goneTo; generalize chipOf x = k; cases k <;> rfl
  · unfold View.goneTo; generalize chipOf x = k; cases k <;> rfl
  · intro _ _; unfold View.goneTo; generalize chipOf x = k; cases k <;> rfl

theorem HomedAt.agrees {x y : Nat} {v : View} (h : HomedAt x y v) : Agrees v.addressing := by
  refine ⟨fun _ => ⟨?_, ?_⟩, fun _ hx hk => ?_⟩
  · exact h.page0.trans h.page.symm
  · exact h.page1.trans h.page.symm
  · have hx' : x < Config.width := h.atX ▸ hx
    have hk' : chipOf x = v.cache.lastColChip := by rw [← h.atX]; exact hk
    show v.addressing.col (chipOf v.cache.x.toNat) = colOf v.cache.x.toNat
    rw [h.atX, ← h.col hx' hk']
    generalize chipOf x = k
    cases k <;> rfl

/-- The bytes of display RAM of a view. -/
def View.ram (v : View) (k : Chip) (p : BitVec 3) (c : BitVec 6) : Byte :=
  (v.dev k).ram.read (ramAddr p c)

theorem viewOf_ram (s : State) (k : Chip) (p : BitVec 3) (c : BitVec 6) :
    (viewOf s).ram k p c = ramByte s k p c := by
  unfold View.ram ramByte
  rw [viewOf_dev]; rfl

@[simp] theorem goneTo_ram (x y : Nat) (v : View) : (v.goneTo x y).ram = v.ram := by
  funext k p c
  unfold View.goneTo View.ram
  generalize chipOf x = j
  cases j <;> cases k <;> rfl

/-- What a plan that only addresses or writes the display keeps of the view. -/
structure ViewFrame (v w : View) : Prop where
  invert : w.invert = v.invert
  client : w.client = v.client
  reply : w.reply = v.reply

theorem ViewFrame.refl (v : View) : ViewFrame v v := ⟨rfl, rfl, rfl⟩

theorem ViewFrame.trans {u v w : View} (h : ViewFrame u v) (g : ViewFrame v w) : ViewFrame u w :=
  ⟨g.invert.trans h.invert, g.client.trans h.client, g.reply.trans h.reply⟩

theorem goneTo_frame (x y : Nat) (v : View) : ViewFrame v (v.goneTo x y) := by
  unfold View.goneTo
  generalize chipOf x = j
  cases j <;> exact ⟨rfl, rfl, rfl⟩

/-- Every display RAM of a view is in canonical form. -/
def View.MemOk (v : View) : Prop := Memory.wf v.dev0.ram ∧ Memory.wf v.dev1.ram

theorem View.MemOk.dev {v : View} (h : v.MemOk) (k : Chip) : Memory.wf (v.dev k).ram := by
  cases k
  · exact h.1
  · exact h.2

theorem goneTo_memOk {x y : Nat} {v : View} (h : v.MemOk) : (v.goneTo x y).MemOk := by
  unfold View.goneTo
  generalize chipOf x = j
  cases j <;> exact h

/-- The effect of `rehome` (R100): the cursor home, and nothing else of the display changed. -/
theorem opsEffect_rehome {v : View} (ha : Agrees v.addressing) (hb : v.Bare)
    (hl : CursorLegal v.cache) (hx : v.cache.x.toNat < Config.width) :
    let w := opsEffect (rehomePlan v.cache).1 v
    HomedAt v.cache.x.toNat v.cache.y.toNat w ∧ w.cache = (rehomePlan v.cache).2
      ∧ w.cache.lastColChip = chipOf v.cache.x.toNat
      ∧ ViewFrame v w ∧ w.ram = v.ram ∧ (v.MemOk → w.MemOk) := by
  have hy : v.cache.y.toNat < Config.height := v.cache.y.isLt
  unfold rehomePlan
  split
  · rw [opsEffect_goto hx hy ha.pages hb, goto_cache hx hy]
    obtain ⟨h1, h2, h3⟩ := goneTo_homed hx hy hb
    exact ⟨h1, h2, h3, goneTo_frame .., goneTo_ram .., goneTo_memOk⟩
  · rename_i hc
    have hcs : v.cache.colStale = false := by
      cases e : v.cache.colStale
      · rfl
      · exact absurd (.inl e) hc
    have hps : v.cache.pageStale = false := by
      cases e : v.cache.pageStale
      · rfl
      · exact absurd (.inr (.inl e)) hc
    have hk : chipOf v.cache.x.toNat = v.cache.lastColChip := by
      by_cases e : chipOf v.cache.x.toNat = v.cache.lastColChip
      · exact e
      · exact absurd (.inr (.inr e)) hc
    obtain ⟨p0, p1⟩ := ha.1 hps
    refine ⟨⟨rfl, rfl, hl.2, hps, hcs, p0.trans hl.2, p1.trans hl.2, fun h1 h2 => ?_, hb⟩, rfl,
      hk.symm, .refl v, rfl, id⟩
    refine Eq.trans ?_ (ha.2 hcs h1 h2)
    show (v.dev (chipOf v.cache.x.toNat)).col = v.addressing.col (chipOf v.cache.x.toNat)
    generalize chipOf v.cache.x.toNat = k
    cases k <;> rfl

/-! ### Writing a byte -/

theorem read_deviceDataWrite {d : Device} (h : Memory.wf d.ram) (b : Byte) (p : BitVec 3)
    (c : BitVec 6) :
    (deviceDataWrite d b).ram.read (ramAddr p c)
      = if p = d.page ∧ c = d.col then b else d.ram.read (ramAddr p c) := by
  show (d.ram.write (ramAddr d.page d.col) b).read (ramAddr p c) = _
  by_cases e : ramAddr p c = ramAddr d.page d.col
  · rw [e, Memory.read_write_same h, if_pos (ramAddr_inj.mp e)]
  · rw [Memory.read_write_other _ e, if_neg (fun h => e (ramAddr_inj.mpr h))]

theorem chipEffect_write_ram {v : View} (h : v.MemOk) (k : Chip) (b : Byte) (j : Chip)
    (p : BitVec 3) (c : BitVec 6) :
    (chipEffect k true false b v).ram j p c
      = if j = k ∧ p = (v.dev k).page ∧ c = (v.dev k).col then b else v.ram j p c := by
  show ((v.setDev k (deviceDataWrite (v.dev k) b)).dev j).ram.read (ramAddr p c) = _
  by_cases hj : j = k
  · subst hj
    rw [View.setDev_dev_same, read_deviceDataWrite (h.dev j)]
    simp [View.ram]
  · rw [View.setDev_dev_other _ _ hj, if_neg (fun h => hj h.1)]
    rfl

theorem chipEffect_write_memOk {v : View} (h : v.MemOk) (k : Chip) (b : Byte) :
    (chipEffect k true false b v).MemOk := by
  cases k
  · exact ⟨Memory.write_wf h.1 _ _, h.2⟩
  · exact ⟨h.1, Memory.write_wf h.2 _ _⟩

/-- The effect of an aligned `writeData` on the display (R104): one byte written at the cursor, the
cursor one column on, and nothing else. -/
theorem opsEffect_write_aligned {inv : Bool} {v : View} (hi : v.invert = inv)
    (ha : Agrees v.addressing) (hb : v.Bare) (hl : CursorLegal v.cache)
    (hx : v.cache.x.toNat < Config.width) (ho : yoff v.cache.y.toNat = 0) (hm : v.MemOk) (d : Byte) :
    let w := opsEffect (writePlan inv d v.cache).1 v
    HomedAt (v.cache.x.toNat + 1) v.cache.y.toNat w ∧ w.cache = (writePlan inv d v.cache).2
      ∧ w.cache.lastColChip = chipOf v.cache.x.toNat
      ∧ ViewFrame v w ∧ w.MemOk
      ∧ ∀ k p c, w.ram k p c
          = if k = chipOf v.cache.x.toNat ∧ p = pageOf v.cache.y.toNat ∧ c = colOf v.cache.x.toNat
            then onBus inv d else v.ram k p c := by
  subst hi
  obtain ⟨h1, h2, h3, h4, h5, h6⟩ := opsEffect_rehome ha hb hl hx
  unfold writePlan
  rw [if_neg (by omega)]
  simp only [if_pos ho, planThen, opsEffect_append]
  generalize hw : opsEffect (rehomePlan v.cache).1 v = w1 at *
  rw [← h2]
  unfold alignedPlan
  simp only [opsEffect_append, opsEffect_waitedCycle, opsEffect_cacheNote, opsEffect_nil]
  rw [h1.atX]
  have hxx : w1.cache.x.toNat < Config.width := by rw [h1.atX]; exact hx
  have hn : (w1.cache.x + 1).toNat = v.cache.x.toNat + 1 := by
    simp only [Config.width] at hxx
    rw [BitVec.toNat_add, ← h1.atX]
    show (w1.cache.x.toNat + 1) % 256 = _
    omega
  have hcol := h1.col hx h3.symm
  have hpage : (w1.dev (chipOf v.cache.x.toNat)).page = pageOf v.cache.y.toNat := by
    generalize chipOf v.cache.x.toNat = k
    cases k
    · exact h1.page0
    · exact h1.page1
  refine ⟨⟨hn, h1.atY, h1.page, h1.pageStale, h1.colStale, ?_, ?_, ?_, ?_⟩, trivial, h3, ?_, ?_, ?_⟩
  · show (View.setDev w1 _ _).dev0.page = _
    generalize chipOf v.cache.x.toNat = k
    cases k <;> exact h1.page0
  · show (View.setDev w1 _ _).dev1.page = _
    generalize chipOf v.cache.x.toNat = k
    cases k <;> exact h1.page1
  · intro _ hk
    have hk' : chipOf (v.cache.x.toNat + 1) = chipOf v.cache.x.toNat := hk.trans h3
    rw [hk', colOf_succ]
    revert hcol
    generalize chipOf v.cache.x.toNat = k
    intro hcol
    cases k
    · show w1.dev0.col + 1 = _
      exact congrArg (· + 1) hcol
    · show w1.dev1.col + 1 = _
      exact congrArg (· + 1) hcol
  · generalize chipOf v.cache.x.toNat = k
    obtain ⟨b0, b1⟩ := h1.bare
    cases k
    · exact ⟨rfl, b1⟩
    · exact ⟨b0, rfl⟩
  · refine h4.trans ?_
    generalize chipOf v.cache.x.toNat = k
    cases k <;> exact ⟨rfl, rfl, rfl⟩
  · exact chipEffect_write_memOk (h6 hm) _ _
  · intro k p c
    have := chipEffect_write_ram (h6 hm) (chipOf v.cache.x.toNat) (onBus v.invert d) k p c
    rw [hpage, hcol, h5] at this
    exact this

theorem HomedAt.legal {x y : Nat} {v : View} (h : HomedAt x y v) (hx : x ≤ Config.width) :
    CursorLegal v.cache := by
  refine ⟨by rw [h.atX]; exact hx, ?_⟩
  rw [h.page, h.atY]

theorem displayColumn_spec (k : Chip) (c : BitVec 6) (x : Nat) (hx : x < Config.width) :
    displayColumn k c = x ↔ k = chipOf x ∧ c = colOf x := by
  have hc := c.isLt
  unfold displayColumn chipOf colOf
  simp only [Config.width, Config.chipCols] at *
  rw [← BitVec.toNat_inj, BitVec.toNat_ofNat]
  cases k <;> by_cases h : x / 64 = 0 <;> simp [h] <;> omega

theorem displayColumn_lt (k : Chip) (c : BitVec 6) : displayColumn k c < Config.width := by
  have hc := c.isLt
  unfold displayColumn
  cases k <;> simp only [Config.width, Config.chipCols] <;> omega

/-- The effect of a row of aligned writes (R104): byte `i` of the list at column `x + i`. -/
theorem opsEffect_write_row {inv : Bool} (l : List Byte) :
    ∀ {x y : Nat} {v : View}, v.invert = inv → HomedAt x y v → yoff y = 0 →
      x + l.length ≤ Config.width → v.MemOk →
      let w := opsEffect (planEach (writePlan inv) l v.cache).1 v
      HomedAt (x + l.length) y w ∧ w.cache = (planEach (writePlan inv) l v.cache).2
        ∧ ViewFrame v w ∧ w.MemOk
        ∧ ∀ k p c, w.ram k p c
            = if p = pageOf y ∧ x ≤ displayColumn k c ∧ displayColumn k c < x + l.length then
                onBus inv (l.getD (displayColumn k c - x) 0)
              else v.ram k p c := by
  induction l with
  | nil =>
    intro x y v hi hv ho hl hm
    refine ⟨hv, rfl, .refl v, hm, fun k p c => ?_⟩
    rw [if_neg]
    · rfl
    · simp only [List.length_nil]; omega
  | cons d l ih =>
    intro x y v hi hv ho hl hm
    simp only [List.length_cons] at hl
    have hx : x < Config.width := by omega
    obtain ⟨h1, h2, h3, h4, h5, h6⟩ := opsEffect_write_aligned hi hv.agrees hv.bare
      (hv.legal (by omega)) (by rw [hv.atX]; exact hx) (by rw [hv.atY]; exact ho) hm d
    rw [hv.atX] at h1 h6
    rw [hv.atY] at h1 h6
    obtain ⟨g1, g2, g3, g4, g5⟩ := ih (h4.invert.trans hi) h1 ho (by omega) h5
    show HomedAt _ _ (opsEffect ((writePlan inv d v.cache).1
      ++ (planEach (writePlan inv) l (writePlan inv d v.cache).2).1) v) ∧ _
    simp only [planEach, planThen, opsEffect_append, List.length_cons]
    rw [← h2]
    have e : x + 1 + l.length = x + (l.length + 1) := by omega
    rw [e] at g1 g5
    refine ⟨g1, g2, h4.trans g3, g4, fun k p c => ?_⟩
    rw [g5, h6]
    by_cases hp : p = pageOf y
    · by_cases hk : displayColumn k c = x
      · obtain ⟨e1, e2⟩ := (displayColumn_spec k c x hx).mp hk
        rw [if_neg (by omega), if_pos ⟨e1, hp, e2⟩, if_pos ⟨hp, by omega, by omega⟩, hk]
        simp
      · rw [if_neg (c := k = chipOf x ∧ _) (fun e =>
          hk ((displayColumn_spec k c x hx).mpr ⟨e.1, e.2.2⟩))]
        by_cases hr : x ≤ displayColumn k c ∧ displayColumn k c < x + (l.length + 1)
        · rw [if_pos ⟨hp, by omega, by omega⟩, if_pos ⟨hp, hr⟩]
          have e3 : displayColumn k c - x = (displayColumn k c - (x + 1)) + 1 := by omega
          rw [e3]
          simp
        · rw [if_neg (by omega), if_neg (fun e => hr e.2)]
    · rw [if_neg (fun e => hp e.1), if_neg (fun e => hp e.2.1), if_neg (fun e => hp e.1)]

/-! ### Plain plans and their waits -/

/-- A plan whose entries are plain, with at most `n` waits from any cache that `Q` holds of. -/
structure PlanPlain (Q : Cache → Prop) (n : Nat) (p : Plan) : Prop where
  plain : ∀ c, Q c → plainOps (p c).1 = true
  waits : ∀ c, Q c → waitCount (p c).1 ≤ n

theorem plainOps_waitedCycle (k : Chip) (di rw : Bool) (d : Byte) (h : di = true ∨ rw = false) :
    plainOps (waitedCycle k di rw d) = true := by
  have hd : flagOfBit ((chipWord k di rw d).extractLsb' 9 1) = di := by
    unfold chipWord; rw [di_busWord]; simp
  have hr : flagOfBit ((chipWord k di rw d).extractLsb' 8 1) = rw := by
    unfold chipWord; rw [rw_busWord]; simp
  show (true && ((flagOfBit _ || !flagOfBit _) && true)) = true
  rw [hd, hr]
  rcases h with rfl | rfl <;> simp

theorem waitCount_waitedCycle (k : Chip) (di rw : Bool) (d : Byte) :
    waitCount (waitedCycle k di rw d) = 1 := rfl

/-- `gotoXY`: at most three waits, at most one if the page is the cursor's (R96, R98). -/
theorem plain_goto (x y : Nat) (c : Cache) :
    plainOps (gotoPlan x y c).1 = true ∧ waitCount (gotoPlan x y c).1 ≤ 3
      ∧ (c.pageStale = false → c.page = pageOf y → waitCount (gotoPlan x y c).1 ≤ 1) := by
  unfold gotoPlan
  split
  · exact ⟨rfl, Nat.zero_le _, fun _ _ => Nat.zero_le _⟩
  · unfold pageCommands
    split
    · rename_i h
      refine ⟨?_, Nat.le_refl _, fun h1 h2 => ?_⟩
      · simp [plainOps_append, writeCommand, plainOps_waitedCycle, plainOps, Note.plain]
      · rcases h with h | h
        · exact absurd h2.symm h
        · rw [h1] at h; cases h
    · refine ⟨?_, show 1 ≤ 3 by decide, fun _ _ => Nat.le_refl _⟩
      simp [plainOps_append, writeCommand, plainOps_waitedCycle, plainOps, Note.plain]

theorem plain_rehome (c : Cache) :
    plainOps (rehomePlan c).1 = true ∧ waitCount (rehomePlan c).1 ≤ 3 := by
  unfold rehomePlan
  split
  · exact ⟨(plain_goto _ _ c).1, (plain_goto _ _ c).2.1⟩
  · exact ⟨rfl, Nat.zero_le _⟩

theorem plain_write_aligned (inv : Bool) (d : Byte) (c : Cache) (ho : yoff c.y.toNat = 0) :
    plainOps (writePlan inv d c).1 = true ∧ waitCount (writePlan inv d c).1 ≤ 4 := by
  obtain ⟨h1, h2⟩ := plain_rehome c
  unfold writePlan
  split
  · exact ⟨rfl, Nat.zero_le _⟩
  · simp only [planThen, alignedPlan, plainOps_append, waitCount_append]
    rw [h1, plainOps_waitedCycle _ _ _ _ (.inl rfl), waitCount_waitedCycle]
    exact ⟨rfl, by simp [waitCount]; omega⟩

/-- An aligned write on a cursor at home: at most two waits. -/
theorem plain_write_homed (inv : Bool) (d : Byte) {x y : Nat} {v : View} (h : HomedAt x y v)
    (ho : yoff y = 0) :
    plainOps (writePlan inv d v.cache).1 = true ∧ waitCount (writePlan inv d v.cache).1 ≤ 2 := by
  refine ⟨(plain_write_aligned inv d v.cache (by rw [h.atY]; exact ho)).1, ?_⟩
  have hr : waitCount (rehomePlan v.cache).1 ≤ 1 := by
    unfold rehomePlan
    split
    · exact (plain_goto _ _ v.cache).2.2 h.pageStale (by rw [h.page, h.atY])
    · exact Nat.zero_le _
  unfold writePlan
  split
  · exact Nat.zero_le _
  · rw [if_pos (by rw [h.atY]; exact ho)]
    simp only [planThen, alignedPlan, waitCount_append, waitCount_waitedCycle]
    simp [waitCount]; omega

/-- A row of aligned writes: plain, with at most two waits a byte. -/
theorem plain_write_row {inv : Bool} (l : List Byte) :
    ∀ {x y : Nat} {v : View}, v.invert = inv → HomedAt x y v → yoff y = 0 →
      x + l.length ≤ Config.width → v.MemOk →
      plainOps (planEach (writePlan inv) l v.cache).1 = true
        ∧ waitCount (planEach (writePlan inv) l v.cache).1 ≤ 2 * l.length := by
  induction l with
  | nil => intro x y v hi hv ho hl hm; exact ⟨rfl, Nat.le_refl _⟩
  | cons d l ih =>
    intro x y v hi hv ho hl hm
    simp only [List.length_cons] at hl
    have hx : x < Config.width := by omega
    obtain ⟨h1, h2, h3, h4, h5, h6⟩ := opsEffect_write_aligned hi hv.agrees hv.bare
      (hv.legal (by omega)) (by rw [hv.atX]; exact hx) (by rw [hv.atY]; exact ho) hm d
    rw [hv.atX] at h1
    rw [hv.atY] at h1
    obtain ⟨g1, g2⟩ := ih (h4.invert.trans hi) h1 ho (by omega) h5
    obtain ⟨p1, p2⟩ := plain_write_homed inv d hv ho
    rw [h2] at g1 g2
    simp only [planEach, planThen, plainOps_append, waitCount_append, List.length_cons]
    rw [p1, g1]
    exact ⟨rfl, by omega⟩

/-! ### Pages -/

/-- A page of 128 bytes: the cursor at its start, then the bytes (R148, R153). -/
def pagePlan (inv : Bool) (page : Nat) (l : List Byte) : Plan :=
  planThen (gotoPlan 0 (8 * page)) (planEach (writePlan inv) l)

theorem clearPagePlan_eq (inv : Bool) (page : Nat) (color : Color) :
    clearPagePlan inv page color
      = pagePlan inv page (List.replicate Config.width (fillByte color)) := rfl

theorem pageOf_mul (page : Nat) : pageOf (8 * page) = BitVec.ofNat 3 page := by
  unfold pageOf
  rw [Nat.mul_div_cancel_left _ (by decide)]

/-- The effect of writing a page: its 128 bytes, and nothing else of display RAM. -/
theorem opsEffect_page {inv : Bool} {page : Nat} (hp : page < Config.npages) {l : List Byte}
    (hl : l.length = Config.width) {v : View} (hi : v.invert = inv) (ha : Agrees v.addressing)
    (hb : v.Bare) (hm : v.MemOk) :
    let w := opsEffect (pagePlan inv page l v.cache).1 v
    HomedAt 128 (8 * page) w ∧ w.cache = (pagePlan inv page l v.cache).2 ∧ ViewFrame v w ∧ w.MemOk
      ∧ (∀ k p c, w.ram k p c
          = if p.toNat = page then onBus inv (l.getD (displayColumn k c) 0) else v.ram k p c)
      ∧ plainOps (pagePlan inv page l v.cache).1 = true
      ∧ waitCount (pagePlan inv page l v.cache).1 ≤ 259 := by
  simp only [Config.npages, Config.width] at hp hl
  have hx : 0 < Config.width := by decide
  have hy : 8 * page < Config.height := by simp only [Config.height]; omega
  have ho : yoff (8 * page) = 0 := by unfold yoff; omega
  obtain ⟨h1, h2, -⟩ := goneTo_homed hx hy hb
  have hg : (v.goneTo 0 (8 * page)).cache = (gotoPlan 0 (8 * page) v.cache).2 := by
    rw [h2, goto_cache hx hy]
  have hf := goneTo_frame 0 (8 * page) v
  obtain ⟨g1, g2, g3, g4, g5⟩ := opsEffect_write_row l (hf.invert.trans hi) h1 ho
    (by simp only [Config.width]; omega) (goneTo_memOk hm)
  obtain ⟨p1, p2⟩ := plain_write_row l (hf.invert.trans hi) h1 ho
    (by simp only [Config.width]; omega) (goneTo_memOk hm)
  obtain ⟨q1, q2, -⟩ := plain_goto 0 (8 * page) v.cache
  simp only [pagePlan, planThen, opsEffect_append, plainOps_append, waitCount_append]
  rw [opsEffect_goto hx hy ha.pages hb, ← hg]
  rw [hl, Nat.zero_add] at g1
  refine ⟨g1, g2, hf.trans g3, g4, fun k p c => ?_, by rw [q1, p1]; rfl, by omega⟩
  rw [g5]
  have hk := displayColumn_lt k c
  simp only [Config.width] at hk
  have e : (p = pageOf (8 * page) ∧ 0 ≤ displayColumn k c ∧ displayColumn k c < 0 + l.length)
      ↔ p.toNat = page := by
    rw [pageOf_mul, ← BitVec.toNat_inj, BitVec.toNat_ofNat, Nat.mod_eq_of_lt (by omega)]
    constructor
    · exact fun e => e.1
    · exact fun e => ⟨e, Nat.zero_le _, by omega⟩
  by_cases hpp : p.toNat = page
  · rw [if_pos (e.mpr hpp), if_pos hpp]; rfl
  · rw [if_neg (fun h => hpp (e.mp h)), if_neg hpp, goneTo_ram]

/-- The effect of writing several pages, each with the bytes its number gives. -/
theorem opsEffect_pages {inv : Bool} {row : Nat → List Byte}
    (hrow : ∀ p, (row p).length = Config.width) (ps : List Nat) :
    ∀ {v : View}, (∀ p ∈ ps, p < Config.npages) → v.invert = inv → Agrees v.addressing → v.Bare →
      v.MemOk →
      let plan := planEach (fun p => pagePlan inv p (row p)) ps
      let w := opsEffect (plan v.cache).1 v
      Agrees w.addressing ∧ w.Bare ∧ w.cache = (plan v.cache).2 ∧ ViewFrame v w ∧ w.MemOk
        ∧ (∀ k p c, w.ram k p c
            = if p.toNat ∈ ps then onBus inv ((row p.toNat).getD (displayColumn k c) 0)
              else v.ram k p c)
        ∧ plainOps (plan v.cache).1 = true ∧ waitCount (plan v.cache).1 ≤ 259 * ps.length
        ∧ ∀ q, ps.getLast? = some q → HomedAt 128 (8 * q) w := by
  induction ps with
  | nil =>
    intro v _ hi ha hb hm
    exact ⟨ha, hb, rfl, .refl v, hm, fun k p c => by simp [planEach, planNone], rfl, Nat.le_refl _,
      fun q h => by cases h⟩
  | cons page ps ih =>
    intro v hps hi ha hb hm
    obtain ⟨h1, h2, h3, h4, h5, h6, h7⟩ :=
      opsEffect_page (hps page (by simp)) (hrow page) hi ha hb hm
    obtain ⟨g1, g2, g3, g4, g5, g6, g7, g8, g9⟩ := ih (fun p hp => hps p (by simp [hp]))
      (h3.invert.trans hi) h1.agrees h1.bare h4
    rw [h2] at g3 g7 g8
    simp only [planEach, planThen, opsEffect_append, plainOps_append, waitCount_append,
      List.length_cons, ← h2]
    rw [h2] at g9
    rw [← h2] at g3 g7 g8 g9
    refine ⟨g1, g2, g3, h3.trans g4, g5, fun k p c => ?_, by rw [h6, g7]; rfl, by omega, ?_⟩
    · rw [g6, h5]
      by_cases e : p.toNat = page
      · subst e
        by_cases e2 : p.toNat ∈ ps <;> simp [e2]
      · simp [e]
    · intro q hq
      cases ps with
      | nil =>
        simp only [List.getLast?_singleton, Option.some.injEq] at hq
        subst hq
        exact h1
      | cons p ps => exact g9 q (by simpa using hq)

/-! ### Reading a byte -/

/-- The effect of `readData` (R86, R102): the byte under the cursor sampled, the latch holding it too,
the cursor where it was, and display RAM unchanged. -/
theorem opsEffect_readOps {x y : Nat} {v : View} (h : HomedAt x y v) (hx : x < Config.width)
    (hk : v.cache.lastColChip = chipOf x) :
    let w := opsEffect (readOps v.cache) v
    HomedAt x y w ∧ w.cache = v.cache ∧ ViewFrame v w ∧ w.ram = v.ram
      ∧ (v.MemOk → w.MemOk) ∧ w.dataIn = v.ram (chipOf x) (pageOf y) (colOf x)
      ∧ plainOps (readOps v.cache) = true ∧ waitCount (readOps v.cache) = 3 := by
  have hcol := h.col hx hk.symm
  have hpl : plainOps (readOps v.cache) = true := by
    simp [readOps, plainOps_append, writeCommand, plainOps_waitedCycle]
  have hbare := h.bare
  unfold readOps at hpl ⊢
  simp only [opsEffect_append, opsEffect_waitedCycle, opsEffect_setColumn] at hpl ⊢
  rw [h.atX]
  rw [h.atX] at hpl
  obtain ⟨b0, b1⟩ := hbare
  generalize hj : chipOf x = j at *
  cases j
  · have hp := h.page0
    refine ⟨⟨h.atX, h.atY, h.page, h.pageStale, h.colStale, h.page0, h.page1, fun _ _ => ?_, rfl, b1⟩,
      rfl, ⟨rfl, rfl, rfl⟩, ?_, id, ?_, hpl, rfl⟩
    · rw [hj]; rfl
    · funext k p c; cases k <;> rfl
    · show v.dev0.ram.read (ramAddr v.dev0.page v.dev0.col) = _
      rw [hp]
      have hcol' : v.dev0.col = colOf x := hcol
      rw [hcol']; rfl
  · have hp := h.page1
    refine ⟨⟨h.atX, h.atY, h.page, h.pageStale, h.colStale, h.page0, h.page1, fun _ _ => ?_, b0, rfl⟩,
      rfl, ⟨rfl, rfl, rfl⟩, ?_, id, ?_, hpl, rfl⟩
    · rw [hj]; rfl
    · funext k p c; cases k <;> rfl
    · show v.dev1.ram.read (ramAddr v.dev1.page v.dev1.col) = _
      rw [hp]
      have hcol' : v.dev1.col = colOf x := hcol
      rw [hcol']; rfl

/-- The effect of a half of a split write (R106, R107): the byte under the cursor merged, nothing else of
display RAM changed; the column register of the chip has moved on. -/
theorem opsEffect_half {inv : Bool} {x y : Nat} {v : View} (h : HomedAt x y v) (hi : v.invert = inv)
    (hx : x < Config.width) (hk : v.cache.lastColChip = chipOf x) (hm : v.MemOk) (keep bits : Byte) :
    let w := opsEffect (halfPlan (chipOf x) keep bits v.cache).1 v
    w.cache = v.cache ∧ w.dev0.page = pageOf y ∧ w.dev1.page = pageOf y ∧ w.Bare
      ∧ ViewFrame v w ∧ w.MemOk
      ∧ (∀ k p c, w.ram k p c
          = if k = chipOf x ∧ p = pageOf y ∧ c = colOf x then
              onBus inv ((onBus inv (v.ram k p c) &&& keep) ||| bits)
            else v.ram k p c)
      ∧ plainOps (halfPlan (chipOf x) keep bits v.cache).1 = true
      ∧ waitCount (halfPlan (chipOf x) keep bits v.cache).1 = 4 := by
  have hf : HomedFlags v.cache := ⟨h.pageStale, h.colStale, by rw [h.atX]; exact hk.symm⟩
  obtain ⟨g1, g2, g3, g4, g5, g6, g7, g8⟩ := opsEffect_readOps h hx hk
  have hops : (halfPlan (chipOf x) keep bits v.cache).1
      = readOps v.cache ++ [waitOp (chipOf x), .bus (.merge (chipOf x) keep bits)] := by
    unfold halfPlan readPlan planThen
    rw [rehome_homed hf]
    rfl
  rw [hops]
  simp only [opsEffect_append, plainOps_append, waitCount_append]
  rw [g7, g8]
  generalize hw : opsEffect (readOps v.cache) v = w1 at *
  have hcol := g1.col hx (by rw [g2]; exact hk.symm)
  have hpage : (w1.dev (chipOf x)).page = pageOf y := by
    generalize chipOf x = j
    cases j
    · exact g1.page0
    · exact g1.page1
  have hbits : onBus w1.invert ((onBus w1.invert w1.dataIn &&& keep) ||| bits)
      = onBus inv ((onBus inv (v.ram (chipOf x) (pageOf y) (colOf x)) &&& keep) ||| bits) := by
    rw [g3.invert, hi, g6]
  have he : opsEffect [waitOp (chipOf x), .bus (.merge (chipOf x) keep bits)] w1
      = chipEffect (chipOf x) true false
          (onBus inv ((onBus inv (v.ram (chipOf x) (pageOf y) (colOf x)) &&& keep) ||| bits)) w1 := by
    rw [← hbits]; rfl
  rw [he]
  refine ⟨?_, ?_, ?_, ?_, ?_, chipEffect_write_memOk (g5 hm) _ _, fun k p c => ?_, rfl, rfl⟩
  · rw [← g2]; generalize chipOf x = j; cases j <;> rfl
  · rw [← g1.page0]; generalize chipOf x = j; cases j <;> rfl
  · rw [← g1.page1]; generalize chipOf x = j; cases j <;> rfl
  · obtain ⟨b0, b1⟩ := g1.bare
    generalize chipOf x = j
    cases j
    · exact ⟨rfl, b1⟩
    · exact ⟨b0, rfl⟩
  · refine g3.trans ?_
    generalize chipOf x = j
    cases j <;> exact ⟨rfl, rfl, rfl⟩
  · rw [chipEffect_write_ram (g5 hm), hpage, hcol, g4]
    by_cases e : k = chipOf x ∧ p = pageOf y ∧ c = colOf x
    · rw [if_pos e, if_pos e, e.1, e.2.1, e.2.2]
    · rw [if_neg e, if_neg e]

end Sys2Proof.Machine
end

