-- ==== Sys2Proof/Laws/PerInstr.lean ====
section
/-! SUPPORT. One statement per instruction, for the host's case split: its word has the format of its
kind. -/

namespace Sys2Proof.Laws.Format

/-- The word of an instruction is a bus word exactly when its kind is one (R78). -/
def Statement (i : Instr) : Prop := (encodeRequest i).isNone = (i.kind == .busWord)

theorem cmdDisplayOn (cs : BitVec 2) : Statement (.cmdDisplayOn cs) := rfl
theorem cmdDisplayOff (cs : BitVec 2) : Statement (.cmdDisplayOff cs) := rfl
theorem cmdSetStartLine (cs : BitVec 2) : Statement (.cmdSetStartLine cs) := rfl
theorem cmdSetPage (cs : BitVec 2) (page : BitVec 3) : Statement (.cmdSetPage cs page) := rfl
theorem cmdSetColumn (cs : BitVec 2) (col : BitVec 6) : Statement (.cmdSetColumn cs col) := rfl
theorem statusRead (cs : BitVec 2) (d : Byte) : Statement (.statusRead cs d) := rfl
theorem dataWrite (cs : BitVec 2) (d : Byte) : Statement (.dataWrite cs d) := rfl
theorem dataRead (cs : BitVec 2) (d : Byte) : Statement (.dataRead cs d) := rfl
theorem waitReady (k : Chip) : Statement (.waitReady k) := rfl
theorem selectChip (k : Chip) : Statement (.selectChip k) := rfl
theorem gotoXY (x y : Byte) : Statement (.gotoXY x y) := rfl
theorem readData : Statement .readData := rfl
theorem writeData (d : Byte) : Statement (.writeData d) := rfl
theorem doWriteCommand (cmd : Byte) (k : Chip) (di rw : Bool) : Statement (.doWriteCommand cmd k di rw) := rfl
theorem toggleLowpass : Statement .toggleLowpass := rfl
theorem snapshot : Statement .snapshot := rfl
theorem dint : Statement .dint := rfl
theorem eint : Statement .eint := rfl
theorem lpmWait : Statement .lpmWait := rfl
theorem init (invert : Bool) : Statement (.init invert) := rfl
theorem setDot (x y : Byte) (color : Color) : Statement (.setDot x y color) := rfl
theorem clearPage (page : Byte) (color : Color) : Statement (.clearPage page color) := rfl
theorem clearScreen (color : Color) : Statement (.clearScreen color) := rfl
theorem clearScreenUnsafe (color : Color) : Statement (.clearScreenUnsafe color) := rfl
theorem scroll (delta : Byte) : Statement (.scroll delta) := rfl
theorem dumpBuffer : Statement .dumpBuffer := rfl
theorem getStartline : Statement .getStartline := rfl
theorem evConvDone (raw : BitVec 16) : Statement (.evConvDone raw) := rfl
theorem evTimer : Statement .evTimer := rfl
theorem evButton : Statement .evButton := rfl
theorem isrTimer : Statement .isrTimer := rfl
theorem isrAdc : Statement .isrAdc := rfl
theorem isrButton : Statement .isrButton := rfl

end Sys2Proof.Laws.Format
end

