-- ==== Sys2Proof/Tests/Slice0.lean ====
section
/-! SUPPORT. Tests: words written out from the spec's tables, ill-formed terms, single steps whose expected
results are the spec's own vectors (95_test_vectors.md) or follow from a named rule by hand, and for every
obligation with hypotheses a state that meets them. -/

namespace Sys2Proof.Tests

open Sys2Proof.Machine

/-! ### Words written out from the tables (R63, R65, R72, R74, R76) -/

/-- Bus words: `CS DI RW D`. -/
theorem test_decode_bus_words :
    decodeTableWord 16 0b01_0_0_00111111 = some (.cmdDisplayOn 0b01)
      ∧ decodeTableWord 16 0b10_0_0_00111110 = some (.cmdDisplayOff 0b10)
      ∧ decodeTableWord 16 0b01_0_0_11000000 = some (.cmdSetStartLine 0b01)
      ∧ decodeTableWord 16 0b10_0_0_10111100 = some (.cmdSetPage 0b10 4)
      ∧ decodeTableWord 16 0b01_0_0_01000111 = some (.cmdSetColumn 0b01 7)
      ∧ decodeTableWord 16 0b01_0_1_00000000 = some (.statusRead 0b01 0)
      ∧ decodeTableWord 16 0b10_1_0_00000001 = some (.dataWrite 0b10 1)
      ∧ decodeTableWord 16 0b01_1_1_00000000 = some (.dataRead 0b01 0) := by decide

/-- Bus words that spell nothing: the edges of R70's ranges, and a 13th bit. -/
theorem test_decode_reserved_bytes :
    decodeTableWord 16 0x400 = none ∧ decodeTableWord 16 0x43D = none
      ∧ decodeTableWord 16 0x480 = none ∧ decodeTableWord 16 0x4B7 = none
      ∧ decodeTableWord 16 0x4C1 = none ∧ decodeTableWord 16 0x4FF = none
      ∧ decodeTableWord 16 0x1000 = none := by decide

/-- Engine requests (RQ1, RQ3, RQ8). -/
theorem test_decode_engine_requests :
    decodeTableWord 32 0x01000001 = some (.waitReady .one)
      ∧ decodeTableWord 32 0x02000000 = some (.selectChip .zero)
      ∧ decodeTableWord 32 0x03004020 = some (.gotoXY 64 32)
      ∧ decodeTableWord 32 0x04000000 = some .readData
      ∧ decodeTableWord 32 0x05000011 = some (.writeData 0x11)
      ∧ decodeTableWord 32 0x0600027E = some (.doWriteCommand 0x7E .zero true false)
      ∧ decodeTableWord 32 0x06000400 = some (.doWriteCommand 0x00 .zero false true) := by decide

/-- Touch and context requests. -/
theorem test_decode_touch_and_context_requests :
    decodeTableWord 32 0x10000000 = some .toggleLowpass
      ∧ decodeTableWord 32 0x11000000 = some .snapshot
      ∧ decodeTableWord 32 0x18000000 = some .dint
      ∧ decodeTableWord 32 0x19000000 = some .eint
      ∧ decodeTableWord 32 0x1A000000 = some .lpmWait := by decide

/-- Client requests (RQ2, RQ4, CV7, P1). -/
theorem test_decode_client_requests :
    decodeTableWord 32 0x20000001 = some (.init true)
      ∧ decodeTableWord 32 0x21010A0D = some (.setDot 10 13 .black)
      ∧ decodeTableWord 32 0x21004020 = some (.setDot 64 32 .white)
      ∧ decodeTableWord 32 0x22010002 = some (.clearPage 2 .black)
      ∧ decodeTableWord 32 0x23010000 = some (.clearScreen .black)
      ∧ decodeTableWord 32 0x24000000 = some (.clearScreenUnsafe .white)
      ∧ decodeTableWord 32 0x250000F8 = some (.scroll 0xF8)
      ∧ decodeTableWord 32 0x26000000 = some .dumpBuffer
      ∧ decodeTableWord 32 0x27000000 = some .getStartline := by decide

/-- Events and handlers. -/
theorem test_decode_events_and_handlers :
    decodeTableWord 32 0xE1000200 = some (.evConvDone 512)
      ∧ decodeTableWord 32 0xE2000000 = some .evTimer
      ∧ decodeTableWord 32 0xE3000000 = some .evButton
      ∧ decodeTableWord 32 0xF1000000 = some .isrTimer
      ∧ decodeTableWord 32 0xF2000000 = some .isrAdc
      ∧ decodeTableWord 32 0xF3000000 = some .isrButton := by decide

/-- Request words that spell nothing (RQ5, RQ6, and the edges of R77's ranges). -/
theorem test_decode_bad_requests :
    decodeTableWord 32 0x05000111 = none ∧ decodeTableWord 32 0x07000000 = none
      ∧ decodeTableWord 32 0x00000000 = none ∧ decodeTableWord 32 0x1B000000 = none
      ∧ decodeTableWord 32 0x28000000 = none ∧ decodeTableWord 32 0xE4000000 = none
      ∧ decodeTableWord 32 0xF4000000 = none ∧ decodeTableWord 32 0x22010102 = none := by decide

/-- The encoder writes the spec's words (BV1, BV4, RQ2). -/
theorem test_encode_written_words :
    encode (.cmdSetPage 0b10 4) = .bus 0x8BC ∧ encode (.dataWrite 0b10 1) = .bus 0xA01
      ∧ encode (.setDot 10 13 .black) = .request 0x21010A0D := by decide

/-! ### Ill-formed terms -/

/-- A chip-select pattern of no chip or both (R71). -/
theorem test_wellformed_select :
    WellFormed (.cmdDisplayOn 0b00) = false ∧ WellFormed (.cmdDisplayOff 0b11) = false
      ∧ WellFormed (.cmdSetStartLine 0b11) = false ∧ WellFormed (.cmdSetPage 0b00 1) = false
      ∧ WellFormed (.cmdSetColumn 0b11 1) = false ∧ WellFormed (.statusRead 0b00 0) = false
      ∧ WellFormed (.dataWrite 0b11 0) = false ∧ WellFormed (.dataRead 0b00 0) = false
      ∧ WellFormed (.dataRead 0b10 0) = true := by decide

/-- A raw read, a raw reserved byte (R113), an absent page (R148), a bad delta (R151), an impossible
conversion result (R121). -/
theorem test_wellformed_operands :
    WellFormed (.doWriteCommand 0x3F .zero false true) = false
      ∧ WellFormed (.doWriteCommand 0xC1 .one false false) = false
      ∧ WellFormed (.doWriteCommand 0xC1 .one true false) = true
      ∧ WellFormed (.clearPage 8 .white) = false ∧ WellFormed (.clearPage 7 .white) = true
      ∧ WellFormed (.scroll 16) = false ∧ WellFormed (.scroll 0xF8) = true
      ∧ WellFormed (.evConvDone 1024) = false ∧ WellFormed (.evConvDone 1023) = true := by decide

/-! ### States and what is checked of a step -/

/-- Whether a step answers a next state that passes a check. -/
def answers (r : Result) (f : State → Bool) : Bool :=
  match r with
  | .next t => f t
  | .fault _ => false
  | .refused _ => false

/-- Whether a step ends in this fault. -/
def faults (r : Result) (e : Fault) : Bool :=
  match r with
  | .next _ => false
  | .fault f => f == e
  | .refused _ => false

/-- Whether a step ends in this refusal. -/
def refuses (r : Result) (e : Refusal) : Bool :=
  match r with
  | .next _ => false
  | .fault _ => false
  | .refused f => f == e

/-- The foreground with interrupts disabled, the engine idle, every status read to be answered ready, the
cursor at `(x, y)` and both devices there. -/
def idleAt (x y : Nat) : State :=
  { State.reset with
    cache :=
      { x := BitVec.ofNat 8 x, y := BitVec.ofNat 6 y, page := pageOf y, pageStale := false
        colStale := false, lastColChip := chipOf x }
    dev0 := { Device.reset with page := pageOf y, col := colOf x, on := true }
    dev1 := { Device.reset with page := pageOf y, col := colOf x, on := true }
    env := { State.reset.env with draws := List.replicate 4096 0 } }

/-- A state with chip `k` selected and known to be ready. -/
def selected (k : Chip) (s : State) : State :=
  let s1 := selectLines k s
  s1.setDev k { s1.dev k with ready := true }

/-- A state with a display byte set in both chips. -/
def withByte (p : BitVec 3) (c : BitVec 6) (v : Byte) (s : State) : State :=
  { s with
    dev0 := { s.dev0 with ram := s.dev0.ram.write (ramAddr p c) v }
    dev1 := { s.dev1 with ram := s.dev1.ram.write (ramAddr p c) v } }

/-- A state with interrupts enabled and every flag pending. -/
def interrupted (s : State) : State :=
  { s with
    host := { s.host with gie := true, timerIfg := true, adcIfg := true, btnIfg := true } }

/-- A state with a converter phase. -/
def withAdc (a : AdcPhase) (s : State) : State := { s with touch := { s.touch with adc := a } }

/-- A state with a scroll offset. -/
def withStartline (v : Byte) (s : State) : State :=
  { s with client := { s.client with startline := v } }

/-- `CMD(k, c)`, `DW(k, d)` and `DR(k)` of the spec's traces (R79). -/
def cmd (k : Chip) (c : Byte) : Option BusWord := some (chipWord k false false c)
def dw (k : Chip) (d : Byte) : Option BusWord := some (chipWord k true false d)
def dr (k : Chip) : Option BusWord := some (chipWord k true true 0)

/-! ### Bus cycles -/

/-- BV2. -/
theorem test_display_on :
    answers (exec (.cmdDisplayOn 0b01) (selected .zero State.reset)) (fun t => t.dev0.on) = true := by
  decide

/-- R84: `0x3E`. -/
theorem test_display_off :
    answers (exec (.cmdDisplayOff 0b10) (selected .one (idleAt 0 0)))
      (fun t => !t.dev1.on && t.dev0.on) = true := by decide

/-- R84: `0xC0`. -/
theorem test_start_line :
    answers
      (exec (.cmdSetStartLine 0b01)
        (selected .zero { State.reset with dev0 := { Device.reset with start := 5 } }))
      (fun t => t.dev0.start == 0) = true := by decide

/-- BV1. -/
theorem test_set_page :
    answers (exec (.cmdSetPage 0b10 4) (selected .one State.reset))
      (fun t => t.dev1.page == 4 && t.dev0.page == 0 && t.lines.dport == 0xBC) = true := by decide

/-- BV7. -/
theorem test_set_column :
    answers (exec (.cmdSetColumn 0b01 7) (selected .zero (idleAt 3 16)))
      (fun t => t.dev0.col == 7 && t.dev0.page == 2) = true := by decide

/-- BV3: the environment draws all ones; the chip is known to be ready and ON. -/
theorem test_status_read :
    answers
      (exec (.statusRead 0b01 0)
        { selected .zero (idleAt 0 0) with
          env := { State.reset.env with draws := [0xFF] } })
      (fun t => t.statusIn == 0x5F) = true := by decide

/-- R88: a chip not known to be ready may answer busy; OFF sets bit 5. -/
theorem test_status_read_busy :
    answers
      (exec (.statusRead 0b01 0)
        { selectLines .zero State.reset with env := { State.reset.env with draws := [0x80] } })
      (fun t => t.statusIn == 0xA0 && !t.dev0.ready) = true := by decide

/-- BV4; the lines are those of a data write (R82), and the chip is no longer known to be ready (R88). -/
theorem test_data_write :
    answers (exec (.dataWrite 0b10 0x01) (selected .one (idleAt 64 32)))
      (fun t => ramByte t .one 4 0 == 0x01 && ramByte t .zero 4 0 == 0 && t.dev1.col == 1
        && t.lines == { cs := 0b10, di := true, rw := false, dport := 0x01, ddir := true }
        && !t.dev1.ready) = true := by
  decide

/-- BV5: the column wraps and the page stays. -/
theorem test_data_write_wraps :
    answers (exec (.dataWrite 0b01 0x99) (selected .zero (idleAt 63 8)))
      (fun t => ramByte t .zero 1 63 == 0x99 && t.dev0.col == 0 && t.dev0.page == 1) = true := by
  decide

/-- BV6: the first read returns the old latch and reloads it. -/
theorem test_data_read :
    answers (exec (.dataRead 0b01 0) (selected .zero (withByte 2 5 0xA5 (idleAt 5 16))))
      (fun t => t.dataIn == 0 && t.dev0.latch == 0xA5 && t.dev0.col == 6) = true := by decide

/-- R92: a data cycle to a busy chip, either way. -/
theorem test_data_cycle_busy :
    let busy := { selectLines .zero State.reset with env := { State.reset.env with draws := [0x80] } }
    faults (exec (.dataRead 0b01 0) busy) .cycleWhileBusy = true
      ∧ faults (exec (.dataWrite 0b01 0) busy) .cycleWhileBusy = true := by decide

/-- BV8, BV9, and a reserved byte put to no chip. -/
theorem test_cycles_with_no_meaning :
    faults (runBusWord 0b01_0_0_11000101 State.reset) .unmodelledCommand = true
      ∧ faults (runBusWord 0b11_0_0_00111111 State.reset) .unmodelledChipSelect = true
      ∧ faults (runBusWord 0b00_0_0_11000101 State.reset) .unmodelledChipSelect = true := by decide

/-! ### Engine requests -/

/-- EV17: the first poll, answered `0x80`, leaves the wait at the head. -/
theorem test_wait_ready_holds :
    answers
      (engineStep
        { State.reset with
          seq := [waitOp .zero], env := { State.reset.env with draws := [0x80, 0x80, 0x00] } })
      (fun t => t.seq == [waitOp .zero] && t.host.pc == 0) = true := by decide

/-- EV17: the poll answered `0x00` ends it. -/
theorem test_wait_ready_ends :
    answers
      (engineStep
        { State.reset with
          seq := [waitOp .zero], env := { State.reset.env with draws := [0x00] } })
      (fun t => t.seq.isEmpty && t.host.pc == 1 && t.lines.cs == 0b01) = true := by decide

/-- R94: `selectChip 1`. -/
theorem test_select_chip :
    answers (exec (.selectChip .one) State.reset)
      (fun t => t.lines.cs == 0b10 && t.host.pc == 1 && t.seq.isEmpty) = true := by decide

/-- EV1: no page command. -/
theorem test_goto_same_page :
    answers (exec (.gotoXY 70 3) (idleAt 0 0)) (fun t => cycleTrace t.seq == [cmd .one 0x46])
      = true := by decide

/-- R96: `gotoXY 64, 32` from `(0, 0, 0)`. -/
theorem test_goto_new_page :
    answers (exec (.gotoXY 64 32) (idleAt 0 0))
      (fun t => cycleTrace t.seq == [cmd .zero 0xBC, cmd .one 0xBC, cmd .one 0x40]) = true := by decide

/-- EV4: the read part. -/
theorem test_read_data :
    answers (exec .readData (idleAt 64 32))
      (fun t => cycleTrace t.seq == [dr .one, dr .one, cmd .one 0x40]) = true := by decide

/-- R100: at column 64 after a write at column 63 the read re-homes to chip 1. -/
theorem test_read_data_rehomes :
    answers
      (exec .readData
        { idleAt 64 8 with
          cache := { (idleAt 64 8).cache with lastColChip := .zero } })
      (fun t => cycleTrace t.seq == [cmd .one 0x40, dr .one, dr .one, cmd .one 0x40]) = true := by
  decide

/-- R104, with `invert = 1`: the byte goes out complemented (EV15). -/
theorem test_write_data_inverted :
    answers (exec (.writeData 0x0F) { idleAt 3 16 with invert := true })
      (fun t => cycleTrace t.seq == [dw .zero 0xF0]) = true := by decide

/-- EV8: the split write at column 127; merged writes stand as `none`. -/
theorem test_write_data_split :
    answers (exec (.writeData 0xFF) (idleAt 127 13))
      (fun t => cycleTrace t.seq
        == [dr .one, dr .one, cmd .one 0x7F, none, cmd .zero 0xBA, cmd .one 0xBA, cmd .one 0x7F
           , dr .one, dr .one, cmd .one 0x7F, none]) = true := by decide

/-- EV12: the raw byte. -/
theorem test_raw_data :
    answers (exec (.doWriteCommand 0x7E .zero true false) { idleAt 0 0 with invert := true })
      (fun t => t.seq
        == [waitOp .zero, .bus (.cycle 0x67E)
           , .note (.cache { (idleAt 0 0).cache with colStale := true })]) = true := by decide

/-- RQ8, EV14. -/
theorem test_raw_refused :
    refuses (exec (.doWriteCommand 0x00 .zero false true) State.reset) .rawRead = true
      ∧ refuses (exec (.doWriteCommand 0x00 .zero false false) State.reset) .reservedCommand = true := by
  decide

/-- EV16. -/
theorem test_goto_guarded :
    faults (exec (.gotoXY 0 0) { State.reset with host := { State.reset.host with gie := true } })
      .busWithInterruptsEnabled = true := by decide

/-! ### Touch sampler -/

/-- The parameters of the spec's touch vectors. -/
def vectorParams : TouchParams :=
  { windows := { xLo := 100, xHi := 900, yLo := 100, yHi := 900 }
    windowCheck := .pair
    restartOnComplete := false
    settleThreshold := 30 }

/-- Touch registers for the vectors. -/
def touchAt (axis : Axis) (counter : BitVec 8) (raw : BitVec Config.adcBits) : Touch :=
  { State.reset.touch with
    axis := axis, adc := .done, adcMem := raw, settleCounter := counter, rawX := 500, rawY := 600
    yy := 400, lowPassEnabled := true }

/-- TV4. -/
theorem test_adc_filters :
    (adcTransition vectorParams (touchAt .y 31 480)).yy = 420
      ∧ (adcTransition vectorParams (touchAt .y 31 480)).settleCounter = 32
      ∧ (adcTransition vectorParams (touchAt .y 31 480)).axis = .x := by decide

/-- R125, TV1: the samples that make the counter 30 and 31 latch, one that makes it 29 is discarded, an
out-of-window sample restarts it (TV2). -/
theorem test_adc_settles :
    (adcTransition vectorParams (touchAt .x 29 500)).firstX = 500
      ∧ (adcTransition vectorParams (touchAt .y 30 610)).firstY = 610
      ∧ (adcTransition vectorParams (touchAt .y 30 610)).yy = 400
      ∧ (adcTransition vectorParams (touchAt .x 28 500)).firstX = 0
      ∧ (adcTransition vectorParams (touchAt .y 32 50)).settleCounter = 0 := by decide

/-- R120, TV6: a conversion starts from idle; while one runs the tick is lost. -/
theorem test_timer_handler :
    answers (exec .isrTimer (interrupted (withAdc .idle State.reset)))
        (fun t => t.touch.adc == .converting && !t.host.timerIfg && t.host.gie) = true
      ∧ answers (exec .isrTimer (interrupted (withAdc .converting State.reset)))
        (fun t => t.touch.adc == .converting && !t.host.timerIfg) = true := by decide

/-- TV12: the converter idle, the foreground woken and restored. -/
theorem test_adc_handler :
    answers (exec .isrAdc (interrupted (withAdc .done State.reset)))
      (fun t => t.touch.adc == .idle && t.host.wake && !t.host.adcIfg && t.host.gie
        && t.host.ctx == .fg) = true := by decide

/-- R121, TV7. -/
theorem test_conversion_result :
    answers (exec (.evConvDone 512) (withAdc .converting State.reset))
        (fun t => t.touch.adcMem == 512 && t.touch.adc == .done && t.host.adcIfg) = true
      ∧ refuses (exec (.evConvDone 1024) (withAdc .converting State.reset)) .badEvent = true := by decide

/-- R122, XV5. -/
theorem test_events :
    answers (exec .evTimer State.reset) (fun t => t.host.timerIfg && !t.host.btnIfg) = true
      ∧ answers (exec .evButton (interrupted State.reset)) (fun t => t.host.btnIfg) = true := by decide

/-- TV10, TV11. -/
theorem test_shared_registers :
    answers (exec .toggleLowpass State.reset) (fun t => t.touch.lowPassEnabled) = true
      ∧ faults (exec .snapshot (interrupted State.reset)) .sharedReadWithInterruptsEnabled = true := by
  decide

/-- R133 (P3): what a snapshot returns. -/
theorem test_snapshot :
    answers
      (exec .snapshot { State.reset with touch := touchAt .x 32 500 })
      (fun t => t.env.reply
        == some (.snapshot
          { xx := 0, yy := 400, valid := true, settleCounter := 32, firstX := 0, firstY := 0
            lowPassEnabled := true })) = true := by decide

/-! ### Context requests -/

/-- R173, R174. -/
theorem test_dint_eint :
    answers (exec .dint (interrupted State.reset)) (fun t => !t.host.gie && t.host.timerIfg) = true
      ∧ answers (exec .eint State.reset) (fun t => t.host.gie && t.host.pc == 1) = true := by decide

/-- XV3, XV4: the wait completes at once if `wake = 1`, else it holds. -/
theorem test_lpm_wait :
    answers (exec .lpmWait { State.reset with host := { State.reset.host with wake := true } })
        (fun t => t.host.gie && !t.host.wake && t.host.pc == 1) = true
      ∧ answers (exec .lpmWait State.reset) (fun t => t.host.gie && t.host.pc == 0) = true := by decide

/-- XV1: no handler is taken while `gie = 0`. -/
theorem test_no_handler_without_gie :
    takeable .timer { State.reset with host := { State.reset.host with timerIfg := true } } = false := by
  decide

/-! ### Client requests -/

/-- R142: the trace of `init` starts with the power and start-line commands. -/
theorem test_init :
    answers (exec (.init true) State.reset)
      (fun t => (cycleTrace t.seq).take 8
          == [cmd .zero 0x3F, cmd .one 0x3F, cmd .zero 0xC0, cmd .one 0xC0, cmd .zero 0xB8
             , cmd .one 0xB8, cmd .zero 0x40, dw .zero 0xFF]
        && t.invert && t.lines.ddir) = true := by decide

/-- S7: `setDot 64, 32, BLACK` after `init 0`. -/
theorem test_set_dot_aligned :
    answers (exec (.setDot 64 32 .black) (idleAt 0 0))
      (fun t => cycleTrace t.seq == [cmd .zero 0xBC, cmd .one 0xBC, cmd .one 0x40, dw .one 0x01]
        && bufByte t 4 64 == 0x01) = true := by decide

/-- CV6: `startline = 64`; and CV4: nothing at column 0. -/
theorem test_set_dot_cell :
    answers (exec (.setDot 5 5 .black) (withStartline 64 (idleAt 0 0)))
        (fun t => bufByte t 8 5 == 0x20 && bufByte t 0 5 == 0) = true
      ∧ answers (exec (.setDot 0 5 .black) (idleAt 0 0))
        (fun t => t.seq.isEmpty && t.client.buf.isEmpty) = true := by decide

/-- CV3: the byte handed to the split write. -/
theorem test_set_dot_window : windowByte 5 0x20 0xFF = 0xF9 := by decide

/-- CV7: the addressing and the first byte. -/
theorem test_clear_page :
    answers (exec (.clearPage 2 .black) (idleAt 0 0))
      (fun t => (cycleTrace t.seq).take 4
        == [cmd .zero 0xBA, cmd .one 0xBA, cmd .zero 0x40, dw .zero 0xFF]) = true := by decide

/-- CV8. -/
theorem test_clear_page_refused :
    refuses (exec (.clearPage 8 .white) State.reset) .badPage = true := by decide

/-- CV10: the fill starts at page 0; the buffer is zeroed at the end, by a note that `clearScreenUnsafe`
lacks. -/
theorem test_clear_screen :
    answers (exec (.clearScreen .black) (idleAt 0 8))
        (fun t => (cycleTrace t.seq).take 4
          == [cmd .zero 0xB8, cmd .one 0xB8, cmd .zero 0x40, dw .zero 0xFF]) = true
      ∧ answers (exec (.clearScreenUnsafe .white) (idleAt 0 8))
        (fun t => (cycleTrace t.seq).take 4
          == [cmd .zero 0xB8, cmd .one 0xB8, cmd .zero 0x40, dw .zero 0x00]) = true := by decide

/-- S2: no-ops at the bounds, with no bus cycle. -/
theorem test_scroll_bounds :
    answers (exec (.scroll 8) (withStartline 192 (idleAt 0 0)))
        (fun t => t.client.startline == 192 && t.seq.isEmpty) = true
      ∧ answers (exec (.scroll 0xF8) (idleAt 0 0))
        (fun t => t.client.startline == 0 && t.seq.isEmpty) = true := by decide

/-- R151: `scroll +8` from 64, repainting from buffer row 9; CV9. -/
theorem test_scroll_moves :
    answers
        (exec (.scroll 8)
          { idleAt 0 0 with
            client := { (idleAt 0 0).client with startline := 64, buf := [(1152, 0x5A)] } })
        (fun t => t.client.startline == 72
          && (cycleTrace t.seq).take 2 == [cmd .zero 0x40, dw .zero 0x5A]) = true
      ∧ refuses (exec (.scroll 16) State.reset) .badScrollDelta = true := by decide

/-- R153: the first page's sixth data cycle is `DW(0, 0x10)`. -/
theorem test_dump_buffer :
    answers
      (exec .dumpBuffer
        { idleAt 0 0 with client := { (idleAt 0 0).client with buf := [(5, 0x10)] } })
      (fun t => (cycleTrace t.seq)[6]? == some (dw .zero 0x10)) = true := by decide

/-- CV11. -/
theorem test_get_startline :
    answers (exec .getStartline (withStartline 72 State.reset))
      (fun t => t.env.reply == some (.startline 72)) = true := by decide

/-- R157, R167: the button handler is entered with `gie = 0` and its flag cleared. -/
theorem test_button_handler :
    answers (exec .isrButton (interrupted (idleAt 0 0)))
      (fun t => t.host.ctx == .isrButton && !t.host.gie && !t.host.btnIfg && !t.seq.isEmpty) = true := by
  decide

/-! ### Steps -/

/-- RQ7: an event code in a program is refused. -/
theorem test_event_code_in_a_program :
    refuses (step { State.reset with env := { State.reset.env with program := [0xE2000000] } })
      .badRequest = true := by decide

/-- A placed request is what the next step runs. -/
theorem test_placed_request :
    answers (step (State.reset.withFetchWord 32 0x19000000)) (fun t => t.host.gie && t.host.pc == 1)
      = true := by decide

/-- A placed bus word is what the next step runs (BV1). -/
theorem test_placed_bus_word :
    answers (step (State.reset.withFetchWord 16 0x8BC)) (fun t => t.dev1.page == 4) = true := by decide

/-- A placed data write, and a merged write, store their byte by a step of the machine (R85, R107). -/
theorem test_placed_data_write :
    answers (step (State.reset.withFetchWord 16 0xA01))
        (fun t => ramByte t .one 0 0 == 0x01 && t.dev1.col == 1 && !t.dev1.ready) = true
      ∧ answers
        (step { selected .zero State.reset with
                  seq := [.bus (.merge .zero 0x0F 0xA0)], dataIn := 0x55 })
        (fun t => ramByte t .zero 0 0 == 0xA5 && t.dev0.col == 1) = true := by decide

/-! ### States that meet the hypotheses of the obligations -/

theorem idleAt_free (x y : Nat) : EngineFree (idleAt x y) := ⟨rfl, rfl, rfl⟩

theorem idleAt_answers (x y : Nat) : ChipsAnswer (idleAt x y) := by
  refine ⟨Nat.le_of_eq (List.length_replicate ..).symm, fun b hb => ?_⟩
  rw [List.eq_of_mem_replicate (List.mem_of_mem_take hb)]
  rfl

theorem idleAt_cursor (x y : Nat) (hx : x ≤ 128) (hy : y < 64) : CursorRangeInv (idleAt x y) := by
  refine ⟨⟨?_, ?_⟩, fun c hc => by cases hc⟩
  · show (BitVec.ofNat 8 x).toNat ≤ 128
    rw [toNat_ofNat8 (by omega)]; exact hx
  · show pageOf y = pageOf (BitVec.ofNat 6 y).toNat
    rw [toNat_ofNat6 hy]

theorem idleAt_agrees (x y : Nat) (hx : x < 256) : CursorInv (idleAt x y) := by
  refine ⟨fun _ => ⟨rfl, rfl⟩, fun _ _ _ => ?_⟩
  show Addressing.col _ (chipOf (BitVec.ofNat 8 x).toNat) = colOf (BitVec.ofNat 8 x).toNat
  rw [toNat_ofNat8 hx]
  generalize chipOf x = k
  cases k <;> rfl

theorem idleAt_memory (x y : Nat) : MemoryInv (idleAt x y) := by
  refine ⟨⟨Memory.empty_wf, fun c hc => by cases hc⟩, ⟨Memory.empty_wf, fun c hc => by cases hc⟩,
    Memory.empty_wf, fun c hc => by cases hc⟩

theorem idleAt_startline (x y : Nat) : StartlineInv (idleAt x y) := by
  show (0 : Byte).toNat % 8 = 0 ∧ (0 : Byte).toNat ≤ 192
  decide

/-- The premises on the state that most obligations about engine and client requests share. -/
theorem idleAt_premises (x y : Nat) (hx : x ≤ 128) (hy : y < 64) :
    EngineFree (idleAt x y) ∧ ChipsAnswer (idleAt x y) ∧ CursorInv (idleAt x y)
      ∧ CursorRangeInv (idleAt x y) ∧ MemoryInv (idleAt x y) ∧ StartlineInv (idleAt x y) :=
  ⟨idleAt_free x y, idleAt_answers x y, idleAt_agrees x y (by omega), idleAt_cursor x y hx hy,
    idleAt_memory x y, idleAt_startline x y⟩

/-- The premises with a cursor whose page and column are stale, as at power-on. -/
def staleState : State := { idleAt 0 0 with cache := State.reset.cache }

theorem staleState_premises :
    EngineFree staleState ∧ ChipsAnswer staleState ∧ CursorInv staleState
      ∧ CursorRangeInv staleState ∧ MemoryInv staleState ∧ StartlineInv staleState := by
  refine ⟨⟨rfl, rfl, rfl⟩, idleAt_answers 0 0, ⟨fun h => Bool.noConfusion h, fun h => Bool.noConfusion h⟩,
    ⟨⟨?_, rfl⟩, fun c hc => by cases hc⟩, idleAt_memory 0 0, idleAt_startline 0 0⟩
  show (0 : BitVec 8).toNat ≤ 128
  decide

theorem witness_EncodeOfDecodeIsTheWord :
    decode (.bus 0x8BC) = .ok (.cmdSetPage 0b10 4)
      ∧ decode (.request 0x21010A0D) = .ok (.setDot 10 13 .black) := ⟨rfl, rfl⟩

/-- An undecodable word and an event code, each as the foreground's next request. -/
theorem witness_WordsWithNoMeaningAreRefused :
    (∀ w : RequestWord, w = 0x07000000 ∨ w = 0xE2000000 →
      let s : State := { State.reset with env := { State.reset.env with program := [w] } }
      halted s = none ∧ nextTurn s = .run ∧ s.seq = [] ∧ s.host.ctx = .fg ∧ nextWord s = some w
        ∧ ∀ i, decodeRequest w = .ok i → i.kind = .event ∨ i.kind = .handler)
      ∧ (0x07000000 : RequestWord).extractLsb' 24 8 = 0x07 := by
  refine ⟨fun w hw => ⟨rfl, rfl, rfl, rfl, rfl, fun i hi => ?_⟩, by decide⟩
  rcases hw with rfl | rfl
  · have e : decodeRequest 0x07000000 = .error (.reservedOp 0x07) := rfl
    rw [e] at hi
    cases hi
  · have e : decodeRequest 0xE2000000 = .ok .evTimer := rfl
    rw [e] at hi
    cases hi
    exact .inl rfl

/-- The selected chip known to be ready, and one that draws a ready answer. -/
theorem witness_bus_cycles :
    (chipOfSelect 0b10 = some .one ∧ (selected .one (idleAt 127 63)).lines.cs = 0b10
        ∧ NotBusy .one (selected .one (idleAt 127 63)) ∧ MemoryInv (selected .one (idleAt 127 63)))
      ∧ chipOfSelect 0b01 = some .zero ∧ (selectLines .zero (idleAt 0 0)).lines.cs = 0b01
        ∧ NotBusy .zero (selectLines .zero (idleAt 0 0)) :=
  ⟨⟨rfl, rfl, .inl rfl, idleAt_memory 127 63⟩, rfl, rfl, .inr rfl⟩

theorem witness_DataReadCycleReturnsTheLatch :
    chipOfSelect 0b01 = some .zero
      ∧ ∃ t u, exec (.dataRead 0b01 0) (selectLines .zero (idleAt 63 0)) = .next t
        ∧ exec (.dataRead 0b01 0) t = .next u := ⟨rfl, _, _, rfl, rfl⟩

/-- A chip that is not ready and draws a busy bit, with a data cycle to it; and both unused patterns. -/
theorem witness_CyclesWithNoMeaningFault :
    selectOf 0b00_0_0_00111111 ≠ 0b01 ∧ selectOf 0b00_0_0_00111111 ≠ 0b10
      ∧ selectOf 0b11_1_1_00000000 ≠ 0b01 ∧ selectOf 0b11_1_1_00000000 ≠ 0b10
      ∧ commandListed 0xC1 = false
      ∧ ¬ NotBusy .zero { State.reset with env := { State.reset.env with draws := [0x80] } }
      ∧ decodeBus 0b01_1_0_00000000 = .ok (.dataWrite 0b01 0)
      ∧ chipOfSelect (selectOf 0b01_1_0_00000000) = some .zero
      ∧ ∀ cs d, Instr.dataWrite 0b01 0 ≠ .statusRead cs d := by
  refine ⟨by decide, by decide, by decide, by decide, by decide, ?_, rfl, by decide,
    fun _ _ h => by cases h⟩
  rintro (h | h)
  · cases h
  · exact absurd h (by decide)

theorem witness_DisplayShowsItsRam :
    ((State.reset.dev (chipOf 127)).on = false)
      ∧ ((idleAt 0 0).dev (chipOf 127)).on = true ∧ ((idleAt 0 0).dev (chipOf 127)).start = 0 :=
  ⟨rfl, rfl, rfl⟩

theorem witness_WaitReadyPollsUntilReady :
    (EngineFree (idleAt 0 0) ∧ ∃ b ∈ (idleAt 0 0).env.draws, b.msb = false)
      ∧ (EngineFree (selected .one State.reset) ∧ ((selected .one State.reset).dev .one).ready = true)
      ∧ ¬ NotBusy .one { State.reset with
          seq := [waitOp .one], env := { State.reset.env with draws := [0xFF] } } := by
  refine ⟨⟨idleAt_free 0 0, 0, ?_, rfl⟩, ⟨⟨rfl, rfl, rfl⟩, rfl⟩, ?_⟩
  · exact List.mem_replicate.mpr ⟨by decide, rfl⟩
  · rintro (h | h)
    · cases h
    · exact absurd h (by decide)

/-- The corners of the display, from a homed and from a stale cursor. -/
theorem witness_GotoXYAddressesTheCursor :
    (EngineFree (idleAt 0 0) ∧ ChipsAnswer (idleAt 0 0) ∧ (127 : Byte).toNat < 128
        ∧ (63 : Byte).toNat < 64)
      ∧ EngineFree staleState ∧ ChipsAnswer staleState :=
  ⟨⟨idleAt_free 0 0, idleAt_answers 0 0, by decide, by decide⟩, staleState_premises.1,
    staleState_premises.2.1⟩

/-- Each clause at the edge of its range. -/
theorem witness_OutOfRangeRequestsDoNothing :
    EngineFree (idleAt 128 0) ∧ 128 ≤ (128 : Byte).toNat ∧ 64 ≤ (64 : Byte).toNat
      ∧ 128 ≤ (idleAt 128 0).cache.x.toNat ∧ (0 : Byte).toNat = 0
      ∧ EngineFree (withStartline 192 (idleAt 0 0))
      ∧ 192 < (withStartline 192 (idleAt 0 0)).client.startline.toNat + 8
      ∧ (idleAt 128 0).client.startline.toNat < 8 :=
  ⟨idleAt_free 128 0, by decide, by decide, by decide, rfl, ⟨rfl, rfl, rfl⟩, by decide, by decide⟩

theorem witness_ReadDataReturnsTheLogicalByte :
    EngineFree (idleAt 127 63) ∧ ChipsAnswer (idleAt 127 63) ∧ CursorInv (idleAt 127 63)
      ∧ CursorRangeInv (idleAt 127 63) ∧ (idleAt 127 63).cache.x.toNat < 128 :=
  ⟨idleAt_free _ _, idleAt_answers _ _, idleAt_agrees _ _ (by decide),
    idleAt_cursor _ _ (by decide) (by decide), by decide⟩

theorem witness_ReadDataPastTheLastColumn :
    EngineFree (idleAt 128 0) ∧ 128 ≤ (idleAt 128 0).cache.x.toNat := ⟨idleAt_free _ _, by decide⟩

/-- The last column, page-aligned, on page 6 and on page 7. -/
theorem witness_writeData :
    ((idleAt 127 56).cache.x.toNat < 128 ∧ (idleAt 127 56).cache.y.toNat % 8 = 0)
      ∧ ((idleAt 127 55).cache.x.toNat < 128 ∧ (idleAt 127 55).cache.y.toNat % 8 ≠ 0
        ∧ (idleAt 127 55).cache.page.toNat < 7)
      ∧ ((idleAt 127 57).cache.x.toNat < 128 ∧ (idleAt 127 57).cache.y.toNat % 8 ≠ 0
        ∧ (idleAt 127 57).cache.page = 7)
      ∧ ∀ y, y < 64 → EngineFree (idleAt 127 y) ∧ ChipsAnswer (idleAt 127 y) ∧ CursorInv (idleAt 127 y)
        ∧ CursorRangeInv (idleAt 127 y) ∧ MemoryInv (idleAt 127 y) :=
  ⟨by decide, by decide, by decide, fun y hy =>
    ⟨idleAt_free _ _, idleAt_answers _ _, idleAt_agrees _ _ (by decide),
      idleAt_cursor _ _ (by decide) hy, idleAt_memory _ _⟩⟩

theorem witness_StreamedBytesLandInTheirColumns :
    EngineFree (idleAt 0 0) ∧ ChipsAnswer (idleAt 0 0) ∧ CursorInv (idleAt 0 0) ∧ MemoryInv (idleAt 0 0)
      ∧ (56 : Byte).toNat < 64 ∧ (56 : Byte).toNat % 8 = 0 ∧ (126 : Byte).toNat < 128
      ∧ (126 : Byte).toNat + ([1, 2] : List Byte).length ≤ 128 :=
  ⟨idleAt_free _ _, idleAt_answers _ _, idleAt_agrees _ _ (by decide), idleAt_memory _ _, by decide⟩

/-- RawDataByteBypassesTheCursor and RawCommandMarksWhatItMoves. -/
theorem witness_rawCommands :
    EngineFree (idleAt 0 0) ∧ ChipsAnswer (idleAt 0 0) ∧ MemoryInv (idleAt 0 0) :=
  ⟨idleAt_free _ _, idleAt_answers _ _, idleAt_memory _ _⟩

theorem witness_OperandsWithNoMeaningAreRefused :
    EngineFree State.reset ∧ commandListed 0x3D = false ∧ 8 ≤ (8 : Byte).toNat
      ∧ (0x80 : Byte).toInt ≠ 8 ∧ (0x80 : Byte).toInt ≠ -8 := ⟨⟨rfl, rfl, rfl⟩, by decide⟩

theorem witness_BusRequestsNeedInterruptsDisabled :
    (Instr.gotoXY 0 0).kind = .engine ∧ (Instr.dumpBuffer.kind = .client ∧ Instr.dumpBuffer ≠ .getStartline)
      ∧ (interrupted State.reset).host.ctx = .fg ∧ (interrupted State.reset).host.gie = true
      ∧ ¬((interrupted State.reset).host.ctx = .fg ∧ (interrupted State.reset).host.gie = false)
      ∧ (interrupted State.reset).host.ctx ≠ .isrButton := by decide

/-- Every source can be taken: the handlers' premises. -/
theorem witness_takeable :
    takeable .timer (interrupted (idleAt 0 0)) = true ∧ takeable .adc (interrupted (idleAt 0 0)) = true
      ∧ takeable .button (interrupted (idleAt 0 0)) = true
      ∧ ∃ t, exec .isrAdc (interrupted (idleAt 0 0)) = .next t := ⟨rfl, rfl, rfl, _, rfl⟩

theorem witness_FilterConvergesToAHeldSample :
    (1023 : TouchWord).toNat < 2 ^ 14 ∧ (100 : TouchWord).toNat < (101 : TouchWord).toNat
      ∧ (96 : TouchWord).toNat + 3 < (100 : TouchWord).toNat
      ∧ (100 : TouchWord).toNat ≤ (97 : TouchWord).toNat + 3 := by decide

/-- Runs of in-window samples with `T` = 2: one that latches both axes and is too short to emit, one of exactly
`T` samples, and one that latches nothing. -/
theorem witness_runs_of_samples :
    let p := { vectorParams with settleThreshold := 2 }
    let t := touchAt .x 0 500
    1 ≤ p.settleThreshold ∧ p.settleThreshold ≤ 253 ∧ t.settleCounter = 0
      ∧ AllInWindow p [500, 600, 500] t
      ∧ p.settleThreshold + 1 ≤ ([500, 600, 500] : List (BitVec 10)).length
      ∧ ([500, 600, 500] : List (BitVec 10)).length < p.settleThreshold + 2
      ∧ AllInWindow p [500, 600] t ∧ ([500, 600] : List (BitVec 10)).length = p.settleThreshold
      ∧ AllInWindow p [500] t ∧ ([500] : List (BitVec 10)).length < p.settleThreshold :=
  ⟨by decide, by decide, rfl, ⟨by decide, by decide, by decide, trivial⟩, by decide, by decide,
    ⟨by decide, by decide, trivial⟩, rfl, ⟨by decide, trivial⟩, by decide⟩

theorem witness_EnvironmentEventsAreDelivered :
    (1023 : BitVec 16).toNat < 1024 ∧ (withAdc .converting State.reset).touch.adc = .converting
      ∧ 1024 ≤ (1024 : BitVec 16).toNat := by decide

theorem witness_SharedRegistersNeedInterruptsDisabled :
    State.reset.host.ctx = .fg ∧ State.reset.host.gie = false
      ∧ (interrupted State.reset).host.gie = true := by decide

/-- TouchRegistersHaveOneWriter and AxisAlternatesWithEachHandlerRun: a step of each agent. -/
theorem witness_steps_of_the_touch_sampler :
    (∃ t, step State.reset = .next t ∧ nextTurn State.reset ≠ .interrupt .adc)
      ∧ ∃ t, step (placeInterrupt .adc State.reset) = .next t
        ∧ nextTurn (placeInterrupt .adc State.reset) = .interrupt .adc
        ∧ takeable .adc (placeInterrupt .adc State.reset) = true :=
  ⟨⟨_, rfl, fun h => by cases h⟩, _, rfl, rfl, rfl⟩

theorem witness_toggle_step :
    ∃ t, step (State.reset.withFetchWord 32 0x10000000) = .next t
      ∧ t.touch.lowPassEnabled ≠ (State.reset.withFetchWord 32 0x10000000).touch.lowPassEnabled :=
  ⟨_, rfl, by decide⟩

theorem witness_conversion_start :
    ∃ t, step (placeInterrupt .timer State.reset) = .next t ∧ t.touch.adc = .converting
      ∧ (placeInterrupt .timer State.reset).touch.adc ≠ .converting :=
  ⟨_, rfl, rfl, by decide⟩

theorem witness_ContextRequestsWriteGie :
    (adcHandler State.reset).host.wake = true ∧ State.reset.host.wake = false := ⟨rfl, rfl⟩

/-- Each of the four reasons. -/
theorem witness_NoHandlerWithoutGie :
    let base := placeInterrupt .timer State.reset
    (∀ s, s = base ∨ s = { base with host := { base.host with gie := false } }
        ∨ s = { base with host := { base.host with ctx := .isrButton } }
        ∨ s = { base with host := { base.host with timerIfg := false } }
        ∨ s = { base with seq := [waitOp .zero] } →
        halted s = none ∧ nextTurn s = .interrupt .timer)
      ∧ pending .timer { base with host := { base.host with timerIfg := false } } = false := by
  refine ⟨fun s h => ?_, rfl⟩
  rcases h with rfl | rfl | rfl | rfl | rfl <;> exact ⟨rfl, rfl⟩

theorem witness_ButtonHandlerRepaintsAndReturns :
    takeable .button (interrupted (idleAt 127 63)) = true ∧ ChipsAnswer (interrupted (idleAt 127 63))
      ∧ CursorInv (interrupted (idleAt 127 63)) ∧ MemoryInv (interrupted (idleAt 127 63))
      ∧ StartlineInv (interrupted (idleAt 127 63)) :=
  ⟨rfl, idleAt_answers 127 63, idleAt_agrees 127 63 (by decide), idleAt_memory 127 63,
    idleAt_startline 127 63⟩

theorem witness_InitTraceFromPowerOn :
    EngineFree State.reset ∧ State.reset.cache.pageStale = true := ⟨⟨rfl, rfl, rfl⟩, rfl⟩

/-- InitLeavesTheInitialState, ClearScreenFillsTheDisplay, DumpBufferShowsTheWindow, and the premises on the
state of SetDotPaintsBufferAndPixel, SetDotWritesTheBufferWindow and ClearPageFillsItsPage; the operands at
the edges of their ranges. -/
theorem witness_client_requests :
    (EngineFree (idleAt 128 63) ∧ ChipsAnswer (idleAt 128 63) ∧ CursorInv (idleAt 128 63)
        ∧ CursorRangeInv (idleAt 128 63) ∧ MemoryInv (idleAt 128 63) ∧ StartlineInv (idleAt 128 63))
      ∧ (0 < (1 : Byte).toNat ∧ (127 : Byte).toNat < 128 ∧ (63 : Byte).toNat < 64)
      ∧ (56 : Byte).toNat < 57 ∧ ¬ (57 : Byte).toNat < 57 ∧ (7 : Byte).toNat < 8 :=
  ⟨idleAt_premises 128 63 (by decide) (by decide), by decide, by decide, by decide, by decide⟩

/-- Scrolling up to the bound and down from it. -/
theorem witness_ScrollMovesAndRepaints :
    (∀ v : Byte, v = 184 ∨ v = 192 →
        let s := withStartline v (idleAt 0 0)
        EngineFree s ∧ ChipsAnswer s ∧ CursorInv s ∧ MemoryInv s ∧ StartlineInv s)
      ∧ ((192 : BitVec 8).toNat : Int)
          = (withStartline 184 (idleAt 0 0)).client.startline.toNat + (8 : Byte).toInt
      ∧ ((184 : BitVec 8).toNat : Int)
          = (withStartline 192 (idleAt 0 0)).client.startline.toNat + (0xF8 : Byte).toInt
      ∧ (192 : BitVec 8).toNat ≤ 192 := by
  refine ⟨fun v hv => ⟨⟨rfl, rfl, rfl⟩, idleAt_answers 0 0, idleAt_agrees 0 0 (by decide),
    idleAt_memory 0 0, ?_⟩, by decide, by decide, by decide⟩
  show v.toNat % 8 = 0 ∧ v.toNat ≤ 192
  rcases hv with rfl | rfl <;> decide

/-- A word of each kind where a step takes it from, the machine not stopped. -/
theorem witness_StepRunsTheDecodedInstruction :
    let a := State.reset.withFetchWord 32 0x19000000
    let b := State.reset.withFetchWord 16 0x8BC
    (halted a = none ∧ nextTurn a = .run ∧ a.seq = [] ∧ a.host.ctx = .fg
        ∧ nextWord a = some 0x19000000 ∧ decodeRequest 0x19000000 = .ok .eint
        ∧ Instr.eint.isRequest = true)
      ∧ (halted b = none ∧ nextTurn b = .run ∧ b.seq = .bus (.cycle 0x8BC) :: []
        ∧ decodeBus (busOpWord (.cycle 0x8BC) b) = .ok (.cmdSetPage 0b10 4))
      ∧ nextTurn (placeEvent .timer State.reset) = .event .timer
      ∧ nextTurn (placeInterrupt .button State.reset) = .interrupt .button
      ∧ takeable .button (placeInterrupt .button State.reset) = true :=
  ⟨⟨rfl, rfl, rfl, rfl, rfl, rfl, rfl⟩, ⟨rfl, rfl, rfl, rfl⟩, rfl, rfl, rfl⟩

/-- The invariants' premises, and a step from a state that meets them: the power-on state with a request
placed. -/
theorem witness_invariants :
    let s := State.reset.withFetchWord 32 0x03000000
    CursorInv s ∧ WaitedInv s ∧ MemoryInv s ∧ StartlineInv s ∧ CursorRangeInv s ∧ TouchInv s
      ∧ ContextInv s ∧ halted s = none := by
  refine ⟨⟨fun h => Bool.noConfusion h, fun h => Bool.noConfusion h⟩, trivial, idleAt_memory 0 0,
    idleAt_startline 0 0, ⟨⟨?_, rfl⟩, fun c hc => by cases hc⟩, ?_, ⟨.inl rfl, fun h => absurd rfl h⟩, rfl⟩
  · show (0 : BitVec 8).toNat ≤ 128
    decide
  · show (0 : BitVec 8).toNat ≤ 32 ∧ (0 : BitVec 16).toNat < 2 ^ 10 ∧ (0 : BitVec 16).toNat < 2 ^ 10
      ∧ (0 : BitVec 16).toNat < 2 ^ 10 ∧ (0 : BitVec 16).toNat < 2 ^ 10
      ∧ (0 : BitVec 16).toNat < 2 ^ 10 ∧ (0 : BitVec 16).toNat < 2 ^ 10
    decide

/-- OutcomeRegistersAreNeverCleared: a step that answers, one that faults and one that is refused. -/
theorem witness_OutcomeRegistersAreNeverCleared :
    answers (step State.reset) (fun _ => true) = true
      ∧ faults (step ((interrupted State.reset).withFetchWord 32 0x03000000)) .busWithInterruptsEnabled = true
      ∧ refuses (step (State.reset.withFetchWord 32 0x22000008)) .badPage = true := by decide

/-- A step that answers, from such a state. -/
theorem witness_invariants_step :
    answers (step { State.reset with env := { State.reset.env with program := [0x18000000] } })
      (fun _ => true) = true := by decide

end Sys2Proof.Tests
end

-- Proofs: what one step can do
section
/-! SUPPORT. What one step of the machine can do, by its move (R81, R167, R171), said once: a step runs an
instruction, performs an engine step, or returns from a handler. An invariant of the machine is then a
statement about these three. -/

namespace Sys2Proof.Machine

theorem step_next {s t : State} (h : step s = .next t) :
    halted s = none ∧ move (nextTurn s) (popTurn s) = .next t := by
  unfold step machineStep at h
  split at h
  · rename_i r hr
    exact absurd (h ▸ hr) halted_ne_next
  · rename_i hr
    exact ⟨hr, h⟩

/-- A stopped machine stays stopped (R37). -/
theorem step_ne_next_of_halted {s : State} (hs : halted s ≠ none) (t : State) : step s ≠ .next t :=
  fun h => hs (step_next h).1

theorem issueStep_next {i : Instr} {s t : State} (h : issueStep i s = .next t) :
    ∃ u, exec i s = .next u ∧ (t = u ∨ engineStep u = .next t) := by
  obtain ⟨u, hu, h⟩ := onNext_eq_next h
  refine ⟨u, hu, ?_⟩
  split at h
  · exact .inl (Host.Outcome.next.inj h).symm
  · exact .inr h

/-- What one move can be, told from the state it starts in and the state it leaves. -/
inductive Moved (s : State) : State → Prop
  /-- An agent that cannot move changes nothing (log 14). -/
  | idle : Moved s s
  /-- A handler with nothing left to do returns (R167). -/
  | returned (hseq : s.seq = []) (hctx : s.host.ctx ≠ .fg) : Moved s (returnFromInterrupt s)
  /-- The engine performs its next cycle (R81). -/
  | engine {t : State} (h : engineStep s = .next t) : Moved s t
  /-- A request or a handler is issued, the engine idle and the foreground running (R75, R167). -/
  | issued {i : Instr} {t : State} (hkind : i.isRequest = true ∨ i.kind = .handler)
      (hseq : s.seq = []) (hctx : s.host.ctx = .fg) (h : issueStep i s = .next t) : Moved s t
  /-- The environment acts (R171). -/
  | event {i : Instr} {t : State} (hkind : i.kind = .event) (h : exec i s = .next t) : Moved s t

theorem requestStep_moved {s t : State} (hseq : s.seq = []) (hctx : s.host.ctx = .fg)
    (h : requestStep s = .next t) : Moved s t := by
  unfold requestStep at h
  split at h
  · cases h; exact .idle
  · split at h
    · cases h
    · split at h
      · exact .issued (.inl ‹_›) hseq hctx h
      · cases h

theorem runStep_moved {s t : State} (h : runStep s = .next t) : Moved s t := by
  unfold runStep at h
  split at h
  · rename_i hseq
    rw [List.isEmpty_iff] at hseq
    split at h
    · exact requestStep_moved hseq ‹_› h
    · cases h; exact .returned hseq ‹_›
  · exact .engine h

/-- A takeable interrupt finds the engine idle and the foreground running (R166, R192). -/
theorem takeable_idle {src : Source} {s : State} (h : takeable src s = true) :
    s.seq = [] ∧ s.host.ctx = .fg := by
  simp only [takeable, Bool.and_eq_true, beq_iff_eq, List.isEmpty_iff] at h
  exact ⟨h.2, h.1.1.1⟩

theorem handlerInstr_kind (src : Source) : (handlerInstr src).kind = .handler := by cases src <;> rfl

theorem interruptStep_moved {src : Source} {s t : State} (h : interruptStep src s = .next t) :
    Moved s t := by
  unfold interruptStep at h
  split at h
  · rename_i htake
    obtain ⟨hseq, hctx⟩ := takeable_idle htake
    exact .issued (.inr (handlerInstr_kind src)) hseq hctx h
  · cases h; exact .idle

theorem eventInstr_kind (e : EnvEvent) : (eventInstr e).kind = .event := by cases e <;> rfl

theorem move_moved {turn : Turn} {s t : State} (h : move turn s = .next t) : Moved s t := by
  cases turn with
  | run => exact runStep_moved h
  | interrupt src => exact interruptStep_moved h
  | event e => exact .event (eventInstr_kind e) h

/-- What every instruction, every engine step and the return from a handler keeps, whoever's turn is next,
is kept by every step. -/
theorem step_keeps {I : State → Prop} (hpop : ∀ s, I s → I (popTurn s))
    (hreturn : ∀ s, s.seq = [] → s.host.ctx ≠ .fg → I s → I (returnFromInterrupt s))
    (hengine : ∀ s t, engineStep s = .next t → I s → I t)
    (hissue : ∀ i s t, i.isRequest = true ∨ i.kind = .handler → s.seq = [] → s.host.ctx = .fg →
      exec i s = .next t → I s → I t)
    (hevent : ∀ i s t, i.kind = .event → exec i s = .next t → I s → I t)
    {s t : State} (h : step s = .next t) (hs : I s) : I t := by
  have hp := hpop s hs
  cases move_moved (step_next h).2 with
  | idle => exact hp
  | returned hseq hctx => exact hreturn _ hseq hctx hp
  | engine h => exact hengine _ t h hp
  | issued hkind hseq hctx h =>
    obtain ⟨u, hu, rfl | ht⟩ := issueStep_next h
    · exact hissue _ _ _ hkind hseq hctx hu hp
    · exact hengine u t ht (hissue _ _ u hkind hseq hctx hu hp)
  | event hkind h => exact hevent _ _ t hkind h hp

/-! ### Inside a move -/

theorem guarded_next {s t : State} {f : State → Result} (h : guarded s f = .next t) :
    busAllowed s = true ∧ f s = .next t := by
  unfold guarded at h
  split at h
  · exact ⟨‹_›, h⟩
  · cases h

/-- A cycle that runs leaves the frame alone. -/
theorem busCycle_frame {cs : BitVec 2} {di rw : Bool} {d : Byte} {s t : State}
    (h : busCycle cs di rw d s = .next t) : BusFrame s t := by
  unfold busCycle at h
  split at h
  · cases h
  · split at h
    · exact (driveLines_frame ..).trans (chipCycle_next h).1
    · cases h

theorem engineStep_next {s t : State} (h : engineStep s = .next t) :
    (∃ s1, runNotes s.seq s = (s1, none) ∧ t = finish { s1 with seq := [] })
      ∨ ∃ s1 b rest s2, runNotes s.seq s = (s1, some (b, rest))
        ∧ runBusWord (busOpWord b s1) s1 = .next s2 ∧ t = afterBusOp b rest s2 := by
  unfold engineStep at h
  split at h
  · exact .inl ⟨_, ‹_›, (Host.Outcome.next.inj h).symm⟩
  · obtain ⟨s2, hs2, h⟩ := onNext_eq_next h
    exact .inr ⟨_, _, _, s2, ‹_›, hs2, (Host.Outcome.next.inj h).symm⟩

theorem leave_cases (rest : List EngineOp) (s : State) :
    (∃ s1, runNotes rest s = (s1, none) ∧ leave rest s = finish { s1 with seq := [] })
      ∨ leave rest s = { s with seq := rest } := by
  unfold leave
  split
  · exact .inl ⟨_, ‹_›, rfl⟩
  · exact .inr rfl

/-- After a cycle the sequencer keeps an unanswered wait at its head, or goes on (R93). -/
theorem afterBusOp_cases (b : BusOp) (rest : List EngineOp) (s : State) :
    (∃ k, b = .wait k ∧ afterBusOp b rest s = { s with seq := .bus (.wait k) :: rest })
      ∨ afterBusOp b rest s = leave rest s := by
  cases b with
  | wait k =>
    simp only [afterBusOp]
    split
    · exact .inl ⟨k, rfl, rfl⟩
    · exact .inr rfl
  | cycle w => exact .inr rfl
  | merge k keep bits => exact .inr rfl

end Sys2Proof.Machine
end

-- Proofs: the registers whose range the spec bounds
section
/-! SUPPORT. The scroll offset (R39), the cursor with the cursors still in `seq` (R16), the touch registers
(R33, R129) and the outcome registers (R37): every step is a chain of the few changes listed here, so each
range is a case analysis over the list. -/

namespace Sys2Proof.Machine

/-- The same cursor, `seq`, scroll offset, touch registers and outcome registers. -/
structure SameRegisters (s t : State) : Prop where
  cache : t.cache = s.cache
  seq : t.seq = s.seq
  startline : t.client.startline = s.client.startline
  touch : t.touch = s.touch
  faults : t.host.faults = s.host.faults
  refused : t.host.refused = s.host.refused

/-- What can happen to the touch registers. -/
inductive TouchChange (t : Touch) : Touch → Prop
  /-- The low-pass filter is toggled (R132). -/
  | lowPass (b : Bool) : TouchChange t { t with lowPassEnabled := b }
  /-- A conversion starts or delivers a result (R120, R121). -/
  | converter (phase : AdcPhase) (raw : BitVec Config.adcBits) :
      TouchChange t { t with adc := phase, adcMem := raw }
  /-- The ADC handler runs (R125). -/
  | sample : TouchChange t (adcTransition Config.touchParams t)

/-- The changes that every step is made of, as far as these registers go. -/
inductive Change (s : State) : State → Prop
  | frame {t : State} (h : SameRegisters s t) : Change s t
  /-- `init` sets the scroll offset to 0 (R141). -/
  | home : Change s { s with client := { s.client with startline := 0 } }
  /-- `scroll` moves it by 8 rows, inside its bounds (R151). -/
  | scroll {delta n : Byte} (hdelta : signedDelta delta = 8 ∨ signedDelta delta = -8)
      (hn : scrolledTo s.client.startline delta = some n) :
      Change s { s with client := { s.client with startline := n } }
  /-- A plan that keeps the cursor legal is put into `seq` (R81). -/
  | issue {p : Plan} {tail : List EngineOp} (hp : PlanLegal p)
      (htail : ∀ c, EngineOp.note (.cache c) ∉ tail) :
      Change s { s with seq := (p s.cache).1 ++ tail }
  /-- The engine's bookkeeping becomes a cursor that stands in `seq` (R81). -/
  | cursor {c : Cache} (hc : EngineOp.note (.cache c) ∈ s.seq) : Change s { s with cache := c }
  /-- The entries of `seq` change, with no new cursor among them (R81). -/
  | sequence {ops : List EngineOp}
      (hops : ∀ c, EngineOp.note (.cache c) ∈ ops → EngineOp.note (.cache c) ∈ s.seq) :
      Change s { s with seq := ops }
  | touch {x : Touch} (h : TouchChange s.touch x) : Change s { s with touch := x }

/-- A chain of changes. -/
inductive Changes (s : State) : State → Prop
  | refl : Changes s s
  | tail {t u : State} (h : Changes s t) (hc : Change t u) : Changes s u

theorem Changes.single {s t : State} (h : Change s t) : Changes s t := .tail .refl h

theorem Changes.trans {s t u : State} (h : Changes s t) (g : Changes t u) : Changes s u := by
  induction g with
  | refl => exact h
  | tail _ hc ih => exact .tail ih hc

theorem Changes.head {s t u : State} (h : Change s t) (g : Changes t u) : Changes s u :=
  (Changes.single h).trans g

/-- What every change keeps, a chain of them keeps. -/
theorem Changes.keeps {I : State → Prop} (hI : ∀ {s t}, Change s t → I s → I t) {s t : State}
    (h : Changes s t) (hs : I s) : I t := by
  induction h with
  | refl => exact hs
  | tail _ hc ih => exact hI hc ih

theorem SameRegisters.changes {s t : State} (h : SameRegisters s t) : Changes s t :=
  .single (.frame h)

theorem BusFrame.registers {s t : State} (h : BusFrame s t) : SameRegisters s t :=
  ⟨h.cache, h.seq, by rw [h.client], h.touch, by rw [h.host], by rw [h.host]⟩

theorem finish_registers (s : State) : SameRegisters s (finish s) := by
  unfold finish
  split <;> exact ⟨rfl, rfl, rfl, rfl, rfl, rfl⟩

theorem popTurn_registers (s : State) : SameRegisters s (popTurn s) := ⟨rfl, rfl, rfl, rfl, rfl, rfl⟩

theorem returnFromInterrupt_registers (s : State) : SameRegisters s (returnFromInterrupt s) :=
  ⟨rfl, rfl, rfl, rfl, rfl, rfl⟩

/-! ### The engine -/

theorem runNote_seq (n : Note) (s : State) : (runNote n s).seq = s.seq := by
  cases n with
  | spill k col => exact spillInto_seq k col s
  | _ => rfl

theorem runNote_changes {n : Note} {s : State} (hn : EngineOp.note n ∈ s.seq) :
    Changes s (runNote n s) := by
  cases n with
  | cache c => exact .single (.cursor hn)
  | spill k col => exact SameRegisters.changes (by constructor <;> simp [runNote])
  | deliver | clearBuffer => exact SameRegisters.changes ⟨rfl, rfl, rfl, rfl, rfl, rfl⟩

/-- The pure computation of entries of `seq`: the changes it makes, `seq` as it was, and the entries left. -/
theorem runNotes_changes {ops : List EngineOp} {s s1 : State} {r : Option (BusOp × List EngineOp)}
    (hops : ops ⊆ s.seq) (h : runNotes ops s = (s1, r)) :
    Changes s s1 ∧ s1.seq = s.seq ∧ ∀ b rest, r = some (b, rest) → rest ⊆ s.seq := by
  induction ops generalizing s with
  | nil =>
    cases h
    exact ⟨.refl, rfl, fun b rest hr => by cases hr⟩
  | cons op ops ih =>
    obtain ⟨hop, hrest⟩ := List.cons_subset.mp hops
    cases op with
    | bus b =>
      cases h
      exact ⟨.refl, rfl, fun c rest hr => by cases hr; exact hrest⟩
    | note n =>
      have hseq := runNote_seq n s
      obtain ⟨h1, h2, h3⟩ := ih (hseq.symm ▸ hrest) h
      exact ⟨(runNote_changes hop).trans h1, h2.trans hseq, hseq ▸ h3⟩

/-- The engine runs out of entries: the operation ends (R81). -/
theorem runNotes_finish_changes {ops : List EngineOp} {s s1 : State} (hops : ops ⊆ s.seq)
    (h : runNotes ops s = (s1, none)) : Changes s (finish { s1 with seq := [] }) :=
  ((runNotes_changes hops h).1.tail (.sequence (by simp))).tail (.frame (finish_registers _))

theorem leave_changes {rest : List EngineOp} {s : State} (hrest : rest ⊆ s.seq) :
    Changes s (leave rest s) := by
  rcases leave_cases rest s with ⟨s1, h1, h⟩ | h
  · exact h ▸ runNotes_finish_changes hrest h1
  · exact h ▸ .single (.sequence fun c hc => hrest hc)

theorem afterBusOp_changes {b : BusOp} {rest : List EngineOp} {s : State} (hrest : rest ⊆ s.seq) :
    Changes s (afterBusOp b rest s) := by
  rcases afterBusOp_cases b rest s with ⟨k, -, h⟩ | h
  · exact h ▸ .single (.sequence fun c hc => hrest (by simpa using hc))
  · exact h ▸ leave_changes hrest

theorem engineStep_changes {s t : State} (h : engineStep s = .next t) : Changes s t := by
  rcases engineStep_next h with ⟨s1, h1, rfl⟩ | ⟨s1, b, rest, s2, h1, h2, rfl⟩
  · exact runNotes_finish_changes (List.Subset.refl _) h1
  · obtain ⟨hc, hseq, hrest⟩ := runNotes_changes (List.Subset.refl _) h1
    have hframe := (runBusWord_frame h2).1
    refine (hc.tail (.frame hframe.registers)).trans (afterBusOp_changes ?_)
    rw [hframe.seq, hseq]
    exact hrest b rest rfl

/-! ### The instructions -/

theorem issue_tail_changes {p : Plan} {tail : List EngineOp} (hp : PlanLegal p)
    (htail : ∀ c, EngineOp.note (.cache c) ∉ tail) (s : State) :
    Changes s (issue ((p s.cache).1 ++ tail) s) := by
  unfold issue
  split
  · exact (finish_registers s).changes
  · rename_i op rest hops
    exact hops ▸ .single (.issue hp htail)

/-- A plan issued from `u`, computed from the bookkeeping of `s`. -/
theorem issue_changes {p : Plan} (hp : PlanLegal p) {s u : State} (hsu : Changes s u)
    (hcache : u.cache = s.cache) : Changes s (issue (p s.cache).1 u) := by
  rw [← hcache]
  exact hsu.trans (by simpa using issue_tail_changes (tail := []) hp (by simp) u)

theorem execWaitReady_changes {k : Chip} {s t : State} (h : execWaitReady k s = .next t) :
    Changes s t := by
  cases (guarded_next h).2
  exact issue_changes (p := planOps [waitOp k]) (.ops (by simp [waitOp])) .refl rfl

theorem execSelectChip_changes {k : Chip} {s t : State} (h : execSelectChip k s = .next t) :
    Changes s t := by
  cases (guarded_next h).2
  exact .head (.frame (driveSelect_frame (Config.csEncode k) s).registers)
    (finish_registers (selectLines k s)).changes

theorem execGotoXY_changes {x y : Byte} {s t : State} (h : execGotoXY x y s = .next t) :
    Changes s t := by
  cases (guarded_next h).2
  exact issue_changes (.goto _ _) .refl rfl

theorem execWriteData_changes {d : Byte} {s t : State} (h : execWriteData d s = .next t) :
    Changes s t := by
  cases (guarded_next h).2
  exact issue_changes (.write _ _) .refl rfl

theorem execReadData_changes {s t : State} (h : execReadData s = .next t) : Changes s t := by
  have h := (guarded_next h).2
  split at h
  · cases h
    exact .tail (SameRegisters.changes (by constructor <;> simp)) (.frame (finish_registers _))
  · cases h
    exact issue_tail_changes .read (by simp) s

theorem execDoWriteCommand_changes {cmd : Byte} {k : Chip} {di rw : Bool} {s t : State}
    (h : execDoWriteCommand cmd k di rw s = .next t) : Changes s t := by
  have h := (guarded_next h).2
  split at h
  · cases h
  · split at h
    · cases h
    · cases h; exact issue_changes (.raw cmd k di) .refl rfl

theorem execInit_changes {invert : Bool} {s t : State} (h : execInit invert s = .next t) :
    Changes s t := by
  cases (guarded_next h).2
  refine issue_changes (.init invert) (.head .home (SameRegisters.changes ?_)) rfl
  exact ⟨rfl, rfl, rfl, rfl, rfl, rfl⟩

theorem execSetDot_changes {x y : Byte} {color : Color} {s t : State}
    (h : execSetDot x y color s = .next t) : Changes s t := by
  have h := (guarded_next h).2
  split at h
  · simp only at h
    split at h
    · cases h
      refine issue_changes (.dot _ _ _ _) (SameRegisters.changes ?_) rfl
      exact ⟨rfl, rfl, rfl, rfl, rfl, rfl⟩
    · cases h
  · cases h; exact (finish_registers s).changes

theorem execClearPage_changes {page : Byte} {color : Color} {s t : State}
    (h : execClearPage page color s = .next t) : Changes s t := by
  have h := (guarded_next h).2
  split at h
  · cases h
  · cases h; exact issue_changes (.clearPage _ _ _) .refl rfl

theorem execClearScreen_changes {color : Color} {s t : State}
    (h : execClearScreen color s = .next t) : Changes s t := by
  cases (guarded_next h).2
  exact issue_tail_changes (.clearScreen _ _) (by simp) s

theorem execClearScreenUnsafe_changes {color : Color} {s t : State}
    (h : execClearScreenUnsafe color s = .next t) : Changes s t := by
  cases (guarded_next h).2
  exact issue_changes (.clearScreen _ _) .refl rfl

theorem execScroll_changes {delta : Byte} {s t : State} (h : execScroll delta s = .next t) :
    Changes s t := by
  have h := (guarded_next h).2
  split at h
  · cases h
  · rename_i hdelta
    split at h
    · cases h; exact (finish_registers s).changes
    · rename_i n hn
      have hmoved : signedDelta delta = 8 ∨ signedDelta delta = -8 := by omega
      cases h
      exact issue_changes (.dump _ _) (.single (.scroll hmoved hn)) rfl

theorem execDumpBuffer_changes {s t : State} (h : execDumpBuffer s = .next t) : Changes s t := by
  have h := (guarded_next h).2
  split at h
  · cases h; exact issue_changes (.dump _ _) .refl rfl
  · cases h

theorem execToggleLowpass_changes {s t : State} (h : execToggleLowpass s = .next t) :
    Changes s t := by
  unfold execToggleLowpass at h
  split at h
  · cases h
    exact .head (.touch (.lowPass _)) (SameRegisters.changes ⟨rfl, rfl, rfl, rfl, rfl, rfl⟩)
  · cases h

theorem execSnapshot_registers {s t : State} (h : execSnapshot s = .next t) : SameRegisters s t := by
  unfold execSnapshot at h
  split at h
  · cases h; exact ⟨rfl, rfl, rfl, rfl, rfl, rfl⟩
  · cases h

theorem execLpmWait_registers {s t : State} (h : execLpmWait s = .next t) : SameRegisters s t := by
  unfold execLpmWait at h
  split at h <;> cases h <;> exact ⟨rfl, rfl, rfl, rfl, rfl, rfl⟩

theorem execEvConvDone_changes {raw : BitVec 16} {s t : State} (h : execEvConvDone raw s = .next t) :
    Changes s t := by
  unfold execEvConvDone at h
  split at h
  · cases h
  · split at h
    · cases h
      exact .head (.touch (.converter .done (raw.setWidth _)))
        (SameRegisters.changes ⟨rfl, rfl, rfl, rfl, rfl, rfl⟩)
    · cases h; exact .refl

theorem execIsrTimer_changes {s t : State} (h : execIsrTimer s = .next t) : Changes s t := by
  unfold execIsrTimer at h
  split at h
  · cases h
    by_cases hadc : s.touch.adc = .idle
    · refine .head (.touch (.converter .converting s.touch.adcMem)) (SameRegisters.changes ?_)
      exact ⟨rfl, rfl, rfl, if_pos hadc, rfl, rfl⟩
    · exact SameRegisters.changes ⟨rfl, rfl, rfl, if_neg hadc, rfl, rfl⟩
  · cases h; exact .refl

theorem execIsrAdc_changes {s t : State} (h : execIsrAdc s = .next t) : Changes s t := by
  unfold execIsrAdc at h
  split at h
  · cases h
    exact .head (.touch .sample) (SameRegisters.changes ⟨rfl, rfl, rfl, rfl, rfl, rfl⟩)
  · cases h; exact .refl

theorem execIsrButton_changes {s t : State} (h : execIsrButton s = .next t) : Changes s t := by
  unfold execIsrButton at h
  split at h
  · simp only at h
    split at h
    · cases h
      refine issue_changes (.dump _ _) (SameRegisters.changes ?_) rfl
      exact ⟨rfl, rfl, rfl, rfl, rfl, rfl⟩
    · cases h
  · cases h; exact .refl

/-- What an instruction does to the registers is a chain of changes. -/
theorem exec_changes {i : Instr} {s t : State} (h : exec i s = .next t) : Changes s t := by
  cases i with
  | cmdDisplayOn _ | cmdDisplayOff _ | cmdSetStartLine _ | cmdSetPage _ _ | cmdSetColumn _ _
  | statusRead _ _ | dataWrite _ _ | dataRead _ _ => exact (busCycle_frame h).registers.changes
  | waitReady k => exact execWaitReady_changes h
  | selectChip k => exact execSelectChip_changes h
  | gotoXY x y => exact execGotoXY_changes h
  | readData => exact execReadData_changes h
  | writeData d => exact execWriteData_changes h
  | doWriteCommand cmd k di rw => exact execDoWriteCommand_changes h
  | toggleLowpass => exact execToggleLowpass_changes h
  | snapshot => exact (execSnapshot_registers h).changes
  | lpmWait => exact (execLpmWait_registers h).changes
  | dint | eint | getStartline | evTimer | evButton =>
    cases h; exact SameRegisters.changes ⟨rfl, rfl, rfl, rfl, rfl, rfl⟩
  | init invert => exact execInit_changes h
  | setDot x y color => exact execSetDot_changes h
  | clearPage page color => exact execClearPage_changes h
  | clearScreen color => exact execClearScreen_changes h
  | clearScreenUnsafe color => exact execClearScreenUnsafe_changes h
  | scroll delta => exact execScroll_changes h
  | dumpBuffer => exact execDumpBuffer_changes h
  | evConvDone raw => exact execEvConvDone_changes h
  | isrTimer => exact execIsrTimer_changes h
  | isrAdc => exact execIsrAdc_changes h
  | isrButton => exact execIsrButton_changes h

/-- Every step is a chain of changes. -/
theorem step_changes {s t : State} (h : step s = .next t) : Changes s t := by
  refine step_keeps (I := Changes s) (fun u hu => ?_) (fun u _ _ hu => ?_) (fun u v h hu => ?_)
    (fun i u v _ _ _ h hu => ?_) (fun i u v _ h hu => ?_) h .refl
  · exact hu.tail (.frame (popTurn_registers u))
  · exact hu.tail (.frame (returnFromInterrupt_registers u))
  · exact hu.trans (engineStep_changes h)
  · exact hu.trans (exec_changes h)
  · exact hu.trans (exec_changes h)

/-! ### The ranges -/

/-- A scroll of 8 rows stays a multiple of 8 inside its bounds (R151). -/
theorem scrolledTo_range {v delta n : Byte} (hdelta : signedDelta delta = 8 ∨ signedDelta delta = -8)
    (hn : scrolledTo v delta = some n) (hv : v.toNat % 8 = 0) :
    n.toNat % 8 = 0 ∧ n.toNat ≤ Config.startlineMax := by
  simp only [scrolledTo, Config.startlineMax, Config.screens] at hn ⊢
  split at hn
  · cases hn
  · cases hn
    rw [BitVec.toNat_ofInt]
    omega

theorem Change.keeps_startlineInv {s t : State} (h : Change s t) (hs : StartlineInv s) : StartlineInv t := by
  cases h with
  | frame h => rwa [StartlineInv, h.startline]
  | home => exact ⟨rfl, Nat.zero_le _⟩
  | scroll hdelta hn => exact scrolledTo_range hdelta hn hs.1
  | issue | cursor | sequence | touch => exact hs

theorem Change.keeps_cursorRangeInv {s t : State} (h : Change s t) (hs : CursorRangeInv s) :
    CursorRangeInv t := by
  cases h with
  | frame h => rwa [CursorRangeInv, h.cache, h.seq]
  | home | scroll | touch => exact hs
  | cursor hc => exact ⟨hs.2 _ hc, hs.2⟩
  | sequence hops => exact ⟨hs.1, fun c hc => hs.2 c (hops c hc)⟩
  | issue hp htail =>
    obtain ⟨hlegal, -⟩ := hs
    refine ⟨hlegal, fun c hc => ?_⟩
    rcases List.mem_append.mp hc with hc | hc
    · exact (hp _ hlegal).2 c hc
    · exact absurd hc (htail c)

/-- The legal values of the touch registers (R33, R129). -/
def TouchInRange (t : Touch) : Prop :=
  t.settleCounter.toNat ≤ Config.settleThreshold + 2
    ∧ t.rawX.toNat < 2 ^ Config.adcBits ∧ t.rawY.toNat < 2 ^ Config.adcBits
    ∧ t.xx.toNat < 2 ^ Config.adcBits ∧ t.yy.toNat < 2 ^ Config.adcBits
    ∧ t.firstX.toNat < 2 ^ Config.adcBits ∧ t.firstY.toNat < 2 ^ Config.adcBits

theorem touchInv_iff (s : State) : TouchInv s ↔ TouchInRange s.touch := Iff.rfl

theorem settleNext_le (p : TouchParams) (ok : Bool) (c : BitVec 8) :
    (settleNext p ok c).toNat ≤ p.settleThreshold + 2 := by
  unfold settleNext
  split
  · rw [BitVec.toNat_ofNat]
    exact Nat.le_trans (Nat.mod_le _ _) (Nat.min_le_right _ _)
  · exact Nat.zero_le _

/-- A filter step stays below any bound of its two readings (R129). -/
theorem filterStep_lt {lowPass : Bool} {previous raw : TouchWord} {n : Nat} (hp : previous.toNat < n)
    (hr : raw.toNat < n) : (filterStep lowPass previous raw).toNat < n := by
  unfold filterStep
  split
  · rw [BitVec.toNat_ofNat]
    exact Nat.lt_of_le_of_lt (Nat.mod_le _ _) (by omega)
  · exact hr

section
variable {t : Touch} {raw : TouchWord} (hraw : raw.toNat < 2 ^ Config.adcBits) (ht : TouchInRange t)
include hraw ht

theorem storeRaw_inRange (a : Axis) : TouchInRange (storeRaw a raw t) := by
  obtain ⟨hc, hx, hy, hrest⟩ := ht
  cases a with
  | x => exact ⟨hc, hraw, hy, hrest⟩
  | y => exact ⟨hc, hx, hraw, hrest⟩

theorem storeFirst_inRange (a : Axis) : TouchInRange (storeFirst a raw t) := by
  obtain ⟨hc, hx, hy, hxx, hyy, hfx, hfy⟩ := ht
  cases a with
  | x => exact ⟨hc, hx, hy, hxx, hyy, hraw, hfy⟩
  | y => exact ⟨hc, hx, hy, hxx, hyy, hfx, hraw⟩

theorem storeFiltered_inRange (a : Axis) : TouchInRange (storeFiltered a raw t) := by
  obtain ⟨hc, hx, hy, hxx, hyy, hfirst⟩ := ht
  cases a with
  | x => exact ⟨hc, hx, hy, filterStep_lt hxx hraw, hyy, hfirst⟩
  | y => exact ⟨hc, hx, hy, hxx, filterStep_lt hyy hraw, hfirst⟩

theorem acceptSample_inRange (p : TouchParams) (a : Axis) :
    TouchInRange (acceptSample p a raw t) := by
  unfold acceptSample
  split
  · exact ht
  · split
    · exact storeFirst_inRange hraw ht a
    · exact storeFiltered_inRange hraw ht a

end

/-- A conversion result stays one in a touch register (R129). -/
theorem setWidth_adcMem_lt (v : BitVec Config.adcBits) :
    (v.setWidth 16 : TouchWord).toNat < 2 ^ Config.adcBits := by
  rw [BitVec.toNat_setWidth]
  exact Nat.lt_of_le_of_lt (Nat.mod_le _ _) v.isLt

theorem takeSample_inRange {t : Touch} (ht : TouchInRange t) :
    TouchInRange (takeSample Config.touchParams t) := by
  have hraw := setWidth_adcMem_lt t.adcMem
  have hcounted : ∀ ok, TouchInRange
      { storeRaw t.axis (t.adcMem.setWidth 16) t with
        settleCounter := settleNext Config.touchParams ok
          (storeRaw t.axis (t.adcMem.setWidth 16) t).settleCounter } :=
    fun ok => ⟨settleNext_le .., (storeRaw_inRange hraw ht t.axis).2⟩
  unfold takeSample
  simp only
  split
  · exact acceptSample_inRange hraw (hcounted _) ..
  · exact hcounted _

theorem TouchChange.inRange {t u : Touch} (h : TouchChange t u) (ht : TouchInRange t) :
    TouchInRange u := by
  cases h with
  | lowPass | converter => exact ht
  | sample => exact takeSample_inRange ht

theorem Change.keeps_touchInv {s t : State} (h : Change s t) (hs : TouchInv s) : TouchInv t := by
  cases h with
  | frame h => rwa [touchInv_iff, h.touch]
  | touch h => exact h.inRange hs
  | home | scroll | issue | cursor | sequence => exact hs

/-- No change reaches the outcome registers (R37). -/
theorem Change.keeps_running {s t : State} (h : Change s t) (hs : halted s = none) : halted t = none := by
  cases h with
  | frame h => rwa [halted_eq_none, h.faults, h.refused, ← halted_eq_none]
  | home | scroll | issue | cursor | sequence | touch => exact hs

end Sys2Proof.Machine
end

-- Proofs: O56 and O60
section

namespace Sys2Proof.Machine

/-- Settles O56: a step is a chain of changes, and each of them keeps each range. -/
theorem registerRangesAreKept : Obligations.RegisterRangesAreKept := fun _ _ h =>
  ⟨(step_changes h).keeps Change.keeps_startlineInv, (step_changes h).keeps Change.keeps_cursorRangeInv,
    (step_changes h).keeps Change.keeps_touchInv⟩

/-- Recording a fault stops the machine (R37). -/
theorem halted_afterOutcome_fault (s : State) (f : Fault) :
    halted (afterOutcome s (.fault f)) ≠ none := by
  intro h
  have hf := (mem_faults_afterOutcome_fault s f f).mpr (.inl rfl)
  rw [(halted_eq_none.mp h).1] at hf
  exact List.not_mem_nil hf

/-- Recording a refusal stops the machine (R37). -/
theorem halted_afterOutcome_refused (s : State) (r : Refusal) :
    halted (afterOutcome s (.refused r)) ≠ none :=
  fun h => Bool.noConfusion (halted_eq_none.mp h).2

theorem step_keeps_outcome {s t : State} (h : step s = .next t) :
    s.host.faults = [] ∧ s.host.refused = false ∧ t.host.faults = [] ∧ t.host.refused = false := by
  have hs := (step_next h).1
  obtain ⟨hfaults, hrefused⟩ := halted_eq_none.mp hs
  exact ⟨hfaults, hrefused, halted_eq_none.mp ((step_changes h).keeps Change.keeps_running hs)⟩

/-- Settles O60: a stopped machine answers no next state, and no change of a step reaches the outcome
registers. -/
theorem outcomeRegistersAreNeverCleared : Obligations.OutcomeRegistersAreNeverCleared := by
  refine ⟨fun s t => step_keeps_outcome, fun s => ?_⟩
  cases h : step s with
  | next t =>
    obtain ⟨hfaults, hrefused, -, -⟩ := step_keeps_outcome h
    refine ⟨?_, ?_, fun f h => ?_, fun r h => ?_⟩
    · simp [hfaults]
    · simp [hrefused]
    · cases h
    · cases h
  | fault e =>
    refine ⟨fun g hg => ?_, id, fun f hf => ?_, fun r hr => ?_⟩
    · exact (mem_faults_afterOutcome_fault s e g).mpr (.inr hg)
    · cases hf
      exact ⟨mem_faults_afterOutcome_fault s e, rfl,
        step_ne_next_of_halted (halted_afterOutcome_fault s e)⟩
    · cases hr
  | refused e =>
    refine ⟨fun g hg => hg, fun _ => rfl, fun f hf => ?_, fun r hr => ?_⟩
    · cases hf
    · exact ⟨rfl, step_ne_next_of_halted (halted_afterOutcome_refused s e)⟩

end Sys2Proof.Machine
end

-- Proofs: the status read (O8)
section
/-! SUPPORT. What the status-read cycle answers, and its frame in the terms of the obligations (R88). -/

namespace Sys2Proof.Machine

/-- Bit 5 of the status byte is `1 - on` (R88). -/
theorem statusByte_bit5 (d : Device) (b : Byte) : (statusByte d b).getLsbD 5 = !d.on := by
  have key : ∀ (x y : Bool) (c : Byte),
      (bitOfFlag x ++ c.extractLsb' 6 1 ++ bitOfFlag y ++ c.extractLsb' 0 5 : Byte).getLsbD 5 = y := by
    decide
  exact key (b.msb && !d.ready) (!d.on) b

/-- A status read of the selected chip completes, whatever it answers (R88). -/
theorem exec_statusRead {cs : BitVec 2} {k : Chip} {s : State} (d : Byte)
    (hk : chipOfSelect cs = some k) (hcs : s.lines.cs = cs) :
    exec (.statusRead cs d) s = .next (statusCycle k (driveLines false true d s)) := by
  show busCycle cs false true d s = _
  simp only [busCycle, hk, hcs, if_true]
  rfl

/-- A cycle that changes only the selected device keeps the frame of R82 and R83. -/
theorem BusFrame.cycleFrame {k : Chip} {s t : State} (h : BusFrame s t)
    (hdev : ∀ j, j ≠ k → t.dev j = s.dev j) : CycleFrame k s t :=
  ⟨hdev, h.cache, h.seq, h.invert, h.touch, h.host, h.client, h.program, h.agenda, h.reply⟩

/-- Settles O8: the status cycle, field by field; an answer of ready is recorded in the device. -/
theorem statusReadCycleAnswers : Obligations.StatusReadCycleAnswers := by
  intro cs d k s hk hcs
  have hframe : BusFrame s (statusCycle k (driveLines false true d s)) :=
    (driveLines_frame ..).trans (statusCycle_frame ..)
  have hdev := statusCycle_dev_same k (driveLines false true d s)
  rw [driveLines_dev] at hdev
  refine ⟨_, exec_statusRead d hk hcs, hframe.cycleFrame fun j hj => ?_, ?_, ?_, ?_, ?_, fun hmsb => ?_⟩
  · rw [statusCycle_dev_other hj, driveLines_dev]
  · exact statusCycle_lines ..
  · exact statusByte_bit5 ..
  · exact statusByte_msb ..
  · rw [hdev]; exact ⟨rfl, rfl, rfl, rfl, rfl, rfl⟩
  · have hready : (statusByte (s.dev k) (drawnByte (driveLines false true d s))).msb = false := hmsb
    exact .inl (by simp [hdev, hready])

end Sys2Proof.Machine
end

-- Proofs: the touch registers are not read (O50)
section
/-! SUPPORT. The operations of the bus and of the engine commute with a change of the touch registers
(R41, R159). -/

namespace Sys2Proof.Machine

/-- A meaning that neither reads nor writes the touch registers. -/
def IgnoresTouch (f : State → Result) : Prop :=
  ∀ (s : State) (x : Touch), f (withTouch x s) = outcomeWithTouch x (f s)

section
variable (x : Touch) (s : State)

theorem setDev_withTouch (k : Chip) (d : Device) :
    (withTouch x s).setDev k d = withTouch x (s.setDev k d) := by cases k <;> rfl

theorem dev_withTouch (k : Chip) : (withTouch x s).dev k = s.dev k := by cases k <;> rfl

theorem drawnByte_withTouch : drawnByte (withTouch x s) = drawnByte s := rfl

theorem afterDraw_withTouch : afterDraw (withTouch x s) = withTouch x (afterDraw s) := by
  simp only [afterDraw, withTouch]
  split <;> rfl

theorem statusCycle_withTouch (k : Chip) :
    statusCycle k (withTouch x s) = withTouch x (statusCycle k s) := by
  simp only [statusCycle, afterDraw_withTouch, setDev_withTouch, dev_withTouch, drawnByte_withTouch]
  rfl

theorem finish_withTouch : finish (withTouch x s) = withTouch x (finish s) := by
  simp only [finish, withTouch]
  split <;> rfl

theorem issue_withTouch (ops : List EngineOp) :
    issue ops (withTouch x s) = withTouch x (issue ops s) := by
  cases ops with
  | nil => exact finish_withTouch x s
  | cons op rest => rfl

theorem spillInto_withTouch (k : Chip) (col : BitVec 6) :
    spillInto k col (withTouch x s) = withTouch x (spillInto k col s) := by
  simp only [spillInto, afterDraw_withTouch, setDev_withTouch, dev_withTouch, drawnByte_withTouch]

theorem runNote_withTouch (n : Note) : runNote n (withTouch x s) = withTouch x (runNote n s) := by
  cases n with
  | spill k col => exact spillInto_withTouch x s k col
  | _ => rfl

end

theorem runNotes_withTouch (x : Touch) (ops : List EngineOp) (s : State) :
    runNotes ops (withTouch x s) = ((withTouch x (runNotes ops s).1), (runNotes ops s).2) := by
  induction ops generalizing s with
  | nil => rfl
  | cons op ops ih =>
    cases op with
    | bus b => rfl
    | note n => simp only [runNotes, runNote_withTouch, ih]

theorem leave_withTouch (x : Touch) (rest : List EngineOp) (s : State) :
    leave rest (withTouch x s) = withTouch x (leave rest s) := by
  simp only [leave, runNotes_withTouch]
  rcases runNotes rest s with ⟨s1, _ | _⟩
  · exact finish_withTouch x { s1 with seq := [] }
  · rfl

theorem afterBusOp_withTouch (x : Touch) (b : BusOp) (rest : List EngineOp) (s : State) :
    afterBusOp b rest (withTouch x s) = withTouch x (afterBusOp b rest s) := by
  cases b with
  | wait k =>
    simp only [afterBusOp, leave_withTouch]
    rw [apply_ite (withTouch x)]
    rfl
  | cycle w => exact leave_withTouch x rest s
  | merge k keep bits => exact leave_withTouch x rest s

/-! ### Bus cycles -/

theorem whenNotBusy_ignoresTouch {f : State → Result} (hf : IgnoresTouch f) (k : Chip) :
    IgnoresTouch fun s => whenNotBusy k s f := by
  intro s x
  simp only [whenNotBusy, dev_withTouch, drawnByte_withTouch, afterDraw_withTouch, hf _ x]
  split
  · rfl
  · split <;> rfl

theorem commandCycle_ignoresTouch (k : Chip) (c : Byte) : IgnoresTouch (commandCycle k c) := by
  intro s x
  simp only [commandCycle, dev_withTouch]
  split
  · rw [setDev_withTouch]; rfl
  · rfl

theorem dataWriteCycle_ignoresTouch (k : Chip) (v : Byte) : IgnoresTouch (dataWriteCycle k v) := by
  intro s x
  rw [dataWriteCycle, dev_withTouch, setDev_withTouch]
  rfl

theorem dataReadCycle_ignoresTouch (k : Chip) : IgnoresTouch (dataReadCycle k) := by
  intro s x
  rw [dataReadCycle, dev_withTouch, setDev_withTouch]
  rfl

theorem chipCycle_ignoresTouch (k : Chip) (di rw : Bool) (d : Byte) :
    IgnoresTouch (chipCycle k di rw d) := by
  intro s x
  cases di <;> cases rw
  · exact whenNotBusy_ignoresTouch (commandCycle_ignoresTouch k d) k s x
  · exact congrArg Host.Outcome.next (statusCycle_withTouch x s k)
  · exact whenNotBusy_ignoresTouch (dataWriteCycle_ignoresTouch k d) k s x
  · exact whenNotBusy_ignoresTouch (dataReadCycle_ignoresTouch k) k s x

theorem busCycle_ignoresTouch (cs : BitVec 2) (di rw : Bool) (d : Byte) :
    IgnoresTouch (busCycle cs di rw d) := by
  intro s x
  unfold busCycle
  split
  · rfl
  · rename_i k _
    rw [apply_ite (outcomeWithTouch x), ← chipCycle_ignoresTouch k di rw d]
    rfl

/-- A bus word neither reads nor writes the touch registers. -/
theorem runBusWord_ignoresTouch (w : BusWord) : IgnoresTouch (runBusWord w) := by
  intro s x
  unfold runBusWord
  split
  · rename_i i hi
    rw [exec_of_decodeBus hi, exec_of_decodeBus hi]
    exact busCycle_ignoresTouch _ _ _ _ (driveSelect (selectOf w) s) x
  · split <;> rfl

theorem busOpWord_withTouch (x : Touch) (b : BusOp) (s : State) :
    busOpWord b (withTouch x s) = busOpWord b s := by cases b <;> rfl

/-- An engine step neither reads nor writes the touch registers. -/
theorem engineStep_ignoresTouch : IgnoresTouch engineStep := by
  intro s x
  have hrun : runNotes (withTouch x s).seq (withTouch x s) = _ := runNotes_withTouch x s.seq s
  simp only [engineStep, hrun]
  rcases runNotes s.seq s with ⟨s1, _ | ⟨b, rest⟩⟩
  · exact congrArg Host.Outcome.next (finish_withTouch x { s1 with seq := [] })
  · simp only [busOpWord_withTouch, runBusWord_ignoresTouch _ s1 x]
    cases runBusWord (busOpWord b s1) s1 with
    | next s2 => exact congrArg Host.Outcome.next (afterBusOp_withTouch x b rest s2)
    | fault e => rfl
    | refused e => rfl

/-! ### Requests -/

theorem ite_ignoresTouch {p : State → Prop} [∀ s, Decidable (p s)] {f g : State → Result}
    (hp : ∀ s x, p (withTouch x s) ↔ p s) (hf : IgnoresTouch f) (hg : IgnoresTouch g) :
    IgnoresTouch fun s => if p s then f s else g s := by
  intro s x
  simp only [hp, hf s x, hg s x]
  split <;> rfl

theorem guarded_ignoresTouch {f : State → Result} (hf : IgnoresTouch f) :
    IgnoresTouch fun s => guarded s f :=
  ite_ignoresTouch (p := fun s => busAllowed s = true) (fun _ _ => Iff.rfl) hf fun _ _ => rfl

theorem next_ignoresTouch {f : State → State} (hf : ∀ s x, f (withTouch x s) = withTouch x (f s)) :
    IgnoresTouch fun s => .next (f s) :=
  fun s x => congrArg Host.Outcome.next (hf s x)

/-- A meaning that issues a list of entries from an updated state ignores the touch registers when the list
and the update do. -/
theorem issue_ignoresTouch {ops : State → List EngineOp} {f : State → State}
    (hops : ∀ s x, ops (withTouch x s) = ops s) (hf : ∀ s x, f (withTouch x s) = withTouch x (f s)) :
    IgnoresTouch fun s => .next (issue (ops s) (f s)) :=
  next_ignoresTouch fun s x => by rw [hops, hf, issue_withTouch]

theorem execReadData_ignoresTouch : IgnoresTouch execReadData := by
  refine guarded_ignoresTouch (ite_ignoresTouch (fun _ _ => Iff.rfl) ?_ ?_)
  · refine next_ignoresTouch fun s x => ?_
    simp only [afterDraw_withTouch]
    exact finish_withTouch x
      { afterDraw s with env := { (afterDraw s).env with reply := some (.byte (drawnByte s)) } }
  · exact issue_ignoresTouch (fun _ _ => rfl) fun _ _ => rfl

theorem execDoWriteCommand_ignoresTouch (cmd : Byte) (k : Chip) (di rw : Bool) :
    IgnoresTouch (execDoWriteCommand cmd k di rw) := by
  refine guarded_ignoresTouch (ite_ignoresTouch (fun _ _ => Iff.rfl) (fun _ _ => rfl)
    (ite_ignoresTouch (fun _ _ => Iff.rfl) (fun _ _ => rfl) ?_))
  exact issue_ignoresTouch (fun _ _ => rfl) fun _ _ => rfl

theorem execSetDot_ignoresTouch (x y : Byte) (color : Color) :
    IgnoresTouch (execSetDot x y color) := by
  refine guarded_ignoresTouch (ite_ignoresTouch (fun _ _ => Iff.rfl)
    (ite_ignoresTouch (fun _ _ => Iff.rfl) ?_ fun _ _ => rfl) ?_)
  · exact issue_ignoresTouch (fun _ _ => rfl) fun _ _ => rfl
  · exact next_ignoresTouch fun s x => finish_withTouch x s

theorem execClearPage_ignoresTouch (page : Byte) (color : Color) :
    IgnoresTouch (execClearPage page color) :=
  guarded_ignoresTouch (ite_ignoresTouch (fun _ _ => Iff.rfl) (fun _ _ => rfl)
    (issue_ignoresTouch (fun _ _ => rfl) fun _ _ => rfl))

theorem execScroll_ignoresTouch (delta : Byte) : IgnoresTouch (execScroll delta) := by
  refine guarded_ignoresTouch (ite_ignoresTouch (fun _ _ => Iff.rfl) (fun _ _ => rfl) fun s x => ?_)
  simp only [withTouch]
  split
  · exact congrArg Host.Outcome.next (finish_withTouch x s)
  · rename_i n _
    exact congrArg Host.Outcome.next
      (issue_withTouch x { s with client := { s.client with startline := n } } _)

theorem execDumpBuffer_ignoresTouch : IgnoresTouch execDumpBuffer :=
  guarded_ignoresTouch (ite_ignoresTouch (fun _ _ => Iff.rfl)
    (issue_ignoresTouch (fun _ _ => rfl) fun _ _ => rfl) fun _ _ => rfl)

/-- The instructions that drive the bus ignore the touch registers (R41, R159). -/
theorem exec_ignoresTouch {i : Instr} (h : i.kind = .busWord ∨ i.kind = .engine ∨ i.kind = .client) :
    IgnoresTouch (exec i) := by
  cases i with
  | cmdDisplayOn _ | cmdDisplayOff _ | cmdSetStartLine _ | cmdSetPage _ _ | cmdSetColumn _ _
  | statusRead _ _ | dataWrite _ _ | dataRead _ _ => exact busCycle_ignoresTouch _ _ _ _
  | waitReady _ | gotoXY _ _ | writeData _ | init _ | clearScreen _ | clearScreenUnsafe _ =>
    exact guarded_ignoresTouch (issue_ignoresTouch (fun _ _ => rfl) fun _ _ => rfl)
  | selectChip k =>
    exact guarded_ignoresTouch (next_ignoresTouch fun s x => finish_withTouch x (selectLines k s))
  | readData => exact execReadData_ignoresTouch
  | doWriteCommand cmd k di rw => exact execDoWriteCommand_ignoresTouch cmd k di rw
  | setDot x y color => exact execSetDot_ignoresTouch x y color
  | clearPage page color => exact execClearPage_ignoresTouch page color
  | scroll delta => exact execScroll_ignoresTouch delta
  | dumpBuffer => exact execDumpBuffer_ignoresTouch
  | getStartline => exact fun _ _ => rfl
  | toggleLowpass | snapshot | dint | eint | lpmWait | evConvDone _ | evTimer | evButton | isrTimer
  | isrAdc | isrButton => simp [Instr.kind] at h

/-- Settles O50: every meaning that drives the bus, and the engine step, commutes with a change of the touch
registers. -/
theorem requestsIgnoreTheTouchRegisters : Obligations.RequestsIgnoreTheTouchRegisters :=
  ⟨fun _ s x h => exec_ignoresTouch h s x, engineStep_ignoresTouch⟩

end Sys2Proof.Machine
end

-- Proofs: byte spaces and readiness, one move at a time
section
/-! SUPPORT. What the pure computation of the engine and an instruction that is no bus word do to the devices,
to `seq` and to the byte spaces, said once for the invariants of the byte spaces and of the busy waits (R45,
R57, R81). -/

namespace Sys2Proof.Machine

/-! ### Byte spaces -/

/-- What one move does to a byte space of `size` bytes. -/
inductive SpaceChange (size : Nat) (m : Memory) : Memory → Prop
  | same : SpaceChange size m m
  | cleared : SpaceChange size m []
  | write {a : Nat} (ha : a < size) (v : Byte) : SpaceChange size m (m.write a v)

/-- A change of a byte space keeps its canonical form and its size. -/
theorem SpaceChange.keeps {size : Nat} {m n : Memory} (h : SpaceChange size m n)
    (hm : m.wf ∧ m.within size) : n.wf ∧ n.within size := by
  cases h with
  | same => exact hm
  | cleared => exact ⟨Memory.empty_wf, fun _ hc => absurd hc List.not_mem_nil⟩
  | write ha v => exact ⟨Memory.write_wf hm.1 _ v, Memory.write_within hm.2 ha v⟩

theorem SpaceChange.ite {size : Nat} {m n : Memory} (h : SpaceChange size m n) (p : Prop) [Decidable p] :
    SpaceChange size m (if p then n else m) := by
  split
  · exact h
  · exact .same

/-! ### Notes -/

/-- A spill writes at most one byte of page 7 and moves the column of its own chip (R108). -/
theorem spillInto_dev (k : Chip) (col : BitVec 6) (s : State) (j : Chip) :
    ∃ m c, SpaceChange 512 (s.dev j).ram m
      ∧ (spillInto k col s).dev j = { s.dev j with ram := m, col := c } := by
  by_cases hj : j = k
  · subst hj
    simp only [spillInto, setDev_dev_same, afterDraw_dev]
    exact ⟨_, _, SpaceChange.ite (.write (ramAddr_lt ..) _) _, rfl⟩
  · simp only [spillInto, setDev_dev_other _ _ hj, afterDraw_dev]
    exact ⟨_, _, .same, rfl⟩

/-- A piece of pure computation changes no more of a device than its display RAM and its column. -/
theorem runNote_dev (n : Note) (s : State) (k : Chip) :
    ∃ m c, SpaceChange 512 (s.dev k).ram m
      ∧ (runNote n s).dev k = { s.dev k with ram := m, col := c } := by
  cases n with
  | spill j col => exact spillInto_dev j col s k
  | cache | deliver | clearBuffer => exact ⟨(s.dev k).ram, (s.dev k).col, .same, by cases k <;> rfl⟩

theorem runNote_buf (n : Note) (s : State) : SpaceChange 4096 s.client.buf (runNote n s).client.buf := by
  cases n with
  | spill k col => rw [runNote, spillInto_client]; exact .same
  | cache | deliver => exact .same
  | clearBuffer => exact .cleared

theorem runNote_ready (n : Note) (s : State) (k : Chip) :
    ((runNote n s).dev k).ready = (s.dev k).ready := by
  obtain ⟨m, c, -, h⟩ := runNote_dev n s k
  rw [h]

theorem runNotes_ready (ops : List EngineOp) (s : State) (k : Chip) :
    ((runNotes ops s).1.dev k).ready = (s.dev k).ready := by
  induction ops generalizing s with
  | nil => rfl
  | cons op ops ih =>
    cases op with
    | bus b => rfl
    | note n => exact (ih (runNote n s)).trans (runNote_ready n s k)

/-! ### Instructions -/

/-- What an instruction that is no bus word does to the devices, to `seq` and to the frame buffer: it performs
no cycle, and the entries that it issues wait for their own cycles (R81, R95). -/
structure Requested (s t : State) : Prop where
  dev0 : t.dev0 = s.dev0
  dev1 : t.dev1 = s.dev1
  buf : SpaceChange 4096 s.client.buf t.client.buf
  seq : t.seq = s.seq ∨ SelfWaited t.seq

theorem Requested.dev {s t : State} (h : Requested s t) (k : Chip) : t.dev k = s.dev k := by
  cases k with
  | zero => exact h.dev0
  | one => exact h.dev1

theorem Requested.refl (s : State) : Requested s s := ⟨rfl, rfl, .same, .inl rfl⟩

theorem Requested.finish {s t : State} (h : Requested s t) : Requested s (finish t) := by
  obtain ⟨h0, h1, hbuf, hseq⟩ := h
  exact ⟨by simpa, by simpa, by simpa, by simpa⟩

theorem Requested.issue {s t : State} {ops : List EngineOp} (h : Requested s t) (hops : SelfWaited ops) :
    Requested s (issue ops t) := by
  cases ops with
  | nil => exact h.finish
  | cons op rest => exact ⟨h.dev0, h.dev1, h.buf, .inr hops⟩

/-- A guarded meaning that does nothing but issue entries that wait for their own cycles. -/
theorem guarded_issue_requested {s t : State} {ops : State → List EngineOp} {f : State → State}
    (h : guarded s (fun s => .next (issue (ops s) (f s))) = .next t) (hf : Requested s (f s))
    (hops : SelfWaited (ops s)) : Requested s t := by
  cases (guarded_next h).2
  exact hf.issue hops

theorem execWaitReady_requested {k : Chip} {s t : State} (h : execWaitReady k s = .next t) : Requested s t :=
  guarded_issue_requested h (.refl s) (.wait k)

theorem execSelectChip_requested {k : Chip} {s t : State} (h : execSelectChip k s = .next t) :
    Requested s t := by
  cases (guarded_next h).2
  exact Requested.finish ⟨rfl, rfl, .same, .inl rfl⟩

theorem execGotoXY_requested {x y : Byte} {s t : State} (h : execGotoXY x y s = .next t) : Requested s t :=
  guarded_issue_requested h (.refl s) (PlanWaited.goto _ _ _)

theorem execWriteData_requested {d : Byte} {s t : State} (h : execWriteData d s = .next t) : Requested s t :=
  guarded_issue_requested h (.refl s) (PlanWaited.write _ _ _)

theorem execReadData_requested {s t : State} (h : execReadData s = .next t) : Requested s t := by
  have h := (guarded_next h).2
  split at h
  · cases h
    refine Requested.finish ⟨afterDraw_dev0 s, afterDraw_dev1 s, ?_, .inl (afterDraw_seq s)⟩
    simpa using .same
  · cases h
    exact (Requested.refl s).issue ((PlanWaited.read _).append (.note _))

theorem execDoWriteCommand_requested {cmd : Byte} {k : Chip} {di rw : Bool} {s t : State}
    (h : execDoWriteCommand cmd k di rw s = .next t) : Requested s t := by
  have h := (guarded_next h).2
  split at h
  · cases h
  · split at h
    · cases h
    · rename_i hlisted
      cases h
      exact (Requested.refl s).issue (PlanWaited.raw k (fun hdi => by simpa [hdi] using hlisted) _)

theorem execInit_requested {invert : Bool} {s t : State} (h : execInit invert s = .next t) : Requested s t :=
  guarded_issue_requested h ⟨rfl, rfl, .cleared, .inl rfl⟩ (PlanWaited.init _ _)

theorem execSetDot_requested {x y : Byte} {color : Color} {s t : State}
    (h : execSetDot x y color s = .next t) : Requested s t := by
  have h := (guarded_next h).2
  split at h
  · rename_i hdot
    simp only [dotInBounds, Bool.and_eq_true, decide_eq_true_eq] at hdot
    obtain ⟨⟨⟨-, hx⟩, -⟩, -⟩ := hdot
    simp only at h
    split at h
    · rename_i hrow
      cases h
      exact Requested.issue ⟨rfl, rfl, .write (bufAddr_lt hrow hx) _, .inl rfl⟩ (PlanWaited.dot _ _ _ _ _)
    · cases h
  · cases h; exact (Requested.refl s).finish

theorem execClearPage_requested {page : Byte} {color : Color} {s t : State}
    (h : execClearPage page color s = .next t) : Requested s t := by
  have h := (guarded_next h).2
  split at h
  · cases h
  · cases h; exact (Requested.refl s).issue (PlanWaited.clearPage _ _ _ _)

theorem execClearScreen_requested {color : Color} {s t : State} (h : execClearScreen color s = .next t) :
    Requested s t :=
  guarded_issue_requested h (.refl s) ((PlanWaited.clearScreen _ _ _).append (.note _))

theorem execClearScreenUnsafe_requested {color : Color} {s t : State}
    (h : execClearScreenUnsafe color s = .next t) : Requested s t :=
  guarded_issue_requested h (.refl s) (PlanWaited.clearScreen _ _ _)

theorem execScroll_requested {delta : Byte} {s t : State} (h : execScroll delta s = .next t) :
    Requested s t := by
  have h := (guarded_next h).2
  split at h
  · cases h
  · split at h
    · cases h; exact (Requested.refl s).finish
    · cases h; exact Requested.issue ⟨rfl, rfl, .same, .inl rfl⟩ (PlanWaited.dump _ _ _)

theorem execDumpBuffer_requested {s t : State} (h : execDumpBuffer s = .next t) : Requested s t := by
  have h := (guarded_next h).2
  split at h
  · cases h; exact (Requested.refl s).issue (PlanWaited.dump _ _ _)
  · cases h

theorem execToggleLowpass_requested {s t : State} (h : execToggleLowpass s = .next t) :
    Requested s t := by
  unfold execToggleLowpass at h
  split at h
  · cases h; exact ⟨rfl, rfl, .same, .inl rfl⟩
  · cases h

theorem execSnapshot_requested {s t : State} (h : execSnapshot s = .next t) : Requested s t := by
  unfold execSnapshot at h
  split at h
  · cases h; exact ⟨rfl, rfl, .same, .inl rfl⟩
  · cases h

theorem execLpmWait_requested {s t : State} (h : execLpmWait s = .next t) : Requested s t := by
  unfold execLpmWait at h
  split at h <;> cases h <;> exact ⟨rfl, rfl, .same, .inl rfl⟩

theorem execEvConvDone_requested {raw : BitVec 16} {s t : State} (h : execEvConvDone raw s = .next t) :
    Requested s t := by
  unfold execEvConvDone at h
  split at h
  · cases h
  · split at h <;> cases h <;> exact ⟨rfl, rfl, .same, .inl rfl⟩

theorem execIsrTimer_requested {s t : State} (h : execIsrTimer s = .next t) : Requested s t := by
  unfold execIsrTimer at h
  split at h <;> cases h <;> exact ⟨rfl, rfl, .same, .inl rfl⟩

theorem execIsrAdc_requested {s t : State} (h : execIsrAdc s = .next t) : Requested s t := by
  unfold execIsrAdc at h
  split at h <;> cases h <;> exact ⟨rfl, rfl, .same, .inl rfl⟩

theorem execIsrButton_requested {s t : State} (h : execIsrButton s = .next t) : Requested s t := by
  unfold execIsrButton at h
  split at h
  · simp only at h
    split at h
    · cases h; exact Requested.issue ⟨rfl, rfl, .same, .inl rfl⟩ (PlanWaited.dump _ _ _)
    · cases h
  · cases h; exact .refl s

/-- A request, an environment event or a handler performs no cycle, and issues only entries that wait for
their own. -/
theorem exec_requested {i : Instr} {s t : State} (hkind : i.kind ≠ .busWord) (h : exec i s = .next t) :
    Requested s t := by
  cases i with
  | cmdDisplayOn _ | cmdDisplayOff _ | cmdSetStartLine _ | cmdSetPage _ _ | cmdSetColumn _ _
  | statusRead _ _ | dataWrite _ _ | dataRead _ _ => exact absurd rfl hkind
  | waitReady k => exact execWaitReady_requested h
  | selectChip k => exact execSelectChip_requested h
  | gotoXY x y => exact execGotoXY_requested h
  | readData => exact execReadData_requested h
  | writeData d => exact execWriteData_requested h
  | doWriteCommand cmd k di rw => exact execDoWriteCommand_requested h
  | toggleLowpass => exact execToggleLowpass_requested h
  | snapshot => exact execSnapshot_requested h
  | lpmWait => exact execLpmWait_requested h
  | dint | eint | getStartline | evTimer | evButton => cases h; exact ⟨rfl, rfl, .same, .inl rfl⟩
  | init invert => exact execInit_requested h
  | setDot x y color => exact execSetDot_requested h
  | clearPage page color => exact execClearPage_requested h
  | clearScreen color => exact execClearScreen_requested h
  | clearScreenUnsafe color => exact execClearScreenUnsafe_requested h
  | scroll delta => exact execScroll_requested h
  | dumpBuffer => exact execDumpBuffer_requested h
  | evConvDone raw => exact execEvConvDone_requested h
  | isrTimer => exact execIsrTimer_requested h
  | isrAdc => exact execIsrAdc_requested h
  | isrButton => exact execIsrButton_requested h

/-- What a program, an interrupt or the environment runs is no bus word (R76). -/
theorem kind_ne_busWord_of_issued {i : Instr} (h : i.isRequest = true ∨ i.kind = .handler) :
    i.kind ≠ .busWord := by
  intro hb
  simp [Instr.isRequest, hb] at h

/-- What is kept by engine steps, by whatever a request, an event or a handler does, and by what changes only
the host context and the environment, is kept by every step. -/
theorem step_keeps_of_requested {I : State → Prop}
    (houter : ∀ s host env, I s → I { s with host, env })
    (hengine : ∀ s t, engineStep s = .next t → I s → I t)
    (hrequested : ∀ s t, Requested s t → I s → I t)
    {s t : State} (h : step s = .next t) (hs : I s) : I t := by
  refine step_keeps (fun u hu => ?_) (fun u _ _ hu => ?_) hengine (fun i u v hkind _ _ h => ?_)
    (fun i u v hkind h => ?_) h hs
  · exact houter u u.host _ hu
  · exact houter u _ u.env hu
  · exact hrequested u v (exec_requested (kind_ne_busWord_of_issued hkind) h)
  · exact hrequested u v (exec_requested (by simp [hkind]) h)

end Sys2Proof.Machine
end

-- Proofs: the form of the byte spaces (O55)
section

namespace Sys2Proof.Machine

theorem memoryInv_iff (s : State) :
    MemoryInv s ↔ (∀ k, (s.dev k).ram.wf ∧ (s.dev k).ram.within 512)
      ∧ s.client.buf.wf ∧ s.client.buf.within 4096 := by
  constructor
  · intro ⟨h0, h1, hbuf⟩
    refine ⟨fun k => ?_, hbuf⟩
    cases k with
    | zero => exact h0
    | one => exact h1
  · intro ⟨hram, hbuf⟩
    exact ⟨hram .zero, hram .one, hbuf⟩

theorem MemoryInv.of_change {s t : State} (hs : MemoryInv s)
    (hram : ∀ k, SpaceChange 512 (s.dev k).ram (t.dev k).ram)
    (hbuf : SpaceChange 4096 s.client.buf t.client.buf) : MemoryInv t := by
  obtain ⟨hram0, hbuf0⟩ := (memoryInv_iff s).mp hs
  exact (memoryInv_iff t).mpr ⟨fun k => (hram k).keeps (hram0 k), hbuf.keeps hbuf0⟩

theorem MemoryInv.finish {s : State} (hs : MemoryInv s) : MemoryInv (finish s) := by
  simpa [MemoryInv] using hs

/-- A command names a register and stores no byte (R84). -/
theorem deviceCommand_ram {d e : Device} {c : Byte} (h : deviceCommand d c = some e) : e.ram = d.ram := by
  unfold deviceCommand at h
  repeat' split at h
  all_goals cases h
  all_goals rfl

/-- A cycle stores at most one byte, at the device's own address (R84 to R88). -/
theorem DeviceChange.ram {d e : Device} (h : DeviceChange d e) : SpaceChange 512 d.ram e.ram := by
  cases h with
  | command h => rw [deviceCommand_ram h]; exact .same
  | write v => exact .write (ramAddr_lt ..) v
  | read | status => exact .same

theorem runNote_memoryInv (n : Note) {s : State} (hs : MemoryInv s) : MemoryInv (runNote n s) := by
  refine hs.of_change (fun k => ?_) (runNote_buf n s)
  obtain ⟨m, c, hm, h⟩ := runNote_dev n s k
  rw [h]
  exact hm

theorem runNotes_memoryInv (ops : List EngineOp) {s : State} (hs : MemoryInv s) :
    MemoryInv (runNotes ops s).1 := by
  induction ops generalizing s with
  | nil => exact hs
  | cons op ops ih =>
    cases op with
    | bus b => exact hs
    | note n => exact ih (runNote_memoryInv n hs)

theorem runBusWord_memoryInv {w : BusWord} {s t : State} (h : runBusWord w s = .next t)
    (hs : MemoryInv s) : MemoryInv t := by
  obtain ⟨hframe, k, -, hdev, hother⟩ := runBusWord_frame h
  refine hs.of_change (fun j => ?_) (hframe.client ▸ .same)
  by_cases hj : j = k
  · exact hj ▸ hdev.ram
  · rw [hother j hj]
    exact .same

theorem leave_memoryInv (rest : List EngineOp) {s : State} (hs : MemoryInv s) :
    MemoryInv (leave rest s) := by
  rcases leave_cases rest s with ⟨s1, h1, h⟩ | h
  · have h2 := runNotes_memoryInv rest hs
    rw [h1] at h2
    exact h ▸ MemoryInv.finish (s := { s1 with seq := [] }) h2
  · exact h ▸ hs

theorem engineStep_memoryInv {s t : State} (h : engineStep s = .next t) (hs : MemoryInv s) :
    MemoryInv t := by
  have hnotes := runNotes_memoryInv s.seq hs
  rcases engineStep_next h with ⟨s1, h1, rfl⟩ | ⟨s1, b, rest, s2, h1, h2, rfl⟩
  · rw [h1] at hnotes
    exact MemoryInv.finish (s := { s1 with seq := [] }) hnotes
  · rw [h1] at hnotes
    have hcycle := runBusWord_memoryInv h2 hnotes
    rcases afterBusOp_cases b rest s2 with ⟨k, -, h⟩ | h
    · exact h ▸ hcycle
    · exact h ▸ leave_memoryInv rest hcycle

theorem Requested.memoryInv {s t : State} (h : Requested s t) (hs : MemoryInv s) : MemoryInv t :=
  hs.of_change (fun k => h.dev k ▸ .same) h.buf

/-- Settles O55: every byte is stored by `Memory.write` at an address of its space, in a bus cycle, in the spill
of a split write, or by `setDot`; and an emptied frame buffer is in canonical form. -/
theorem memoryFormIsKept : Obligations.MemoryFormIsKept := fun _ _ hs h =>
  step_keeps_of_requested (I := MemoryInv) (fun _ _ _ hs => hs) (fun _ _ => engineStep_memoryInv)
    (fun _ _ => Requested.memoryInv) h hs

end Sys2Proof.Machine
end

-- Proofs: the busy waits (O53)
section
/-! SUPPORT. One engine step takes the first bus operation off `seq`: what is left waits for its own cycles
from the readiness that the cycle leaves (R57, R88, R93). -/

namespace Sys2Proof.Machine

/-- Which chips are known to be ready. -/
def State.readiness (s : State) (k : Chip) : Bool := (s.dev k).ready

theorem waitedInv_iff (s : State) : WaitedInv s ↔ Waited s.readiness s.seq := Iff.rfl

theorem runNotes_readiness (ops : List EngineOp) (s : State) :
    (runNotes ops s).1.readiness = s.readiness := funext (runNotes_ready ops s)

/-- Notes before the next bus operation take no part in the waits. -/
theorem Waited.after_notes {r : Chip → Bool} {ops rest : List EngineOp} {s s1 : State} {b : BusOp}
    (hw : Waited r ops) (h : runNotes ops s = (s1, some (b, rest))) : Waited r (.bus b :: rest) := by
  induction ops generalizing s with
  | nil => cases h
  | cons op ops ih =>
    cases op with
    | bus c => cases h; exact hw
    | note n => exact ih (s := runNote n s) hw h

/-- What is left after a cycle to `k` assumes nothing of `k`, and every other chip is as it was. -/
theorem Waited.after_cycle {k : Chip} {rest : List EngineOp} {s t : State}
    (hw : Waited (fun j => s.readiness j && j != k) rest) (hother : ∀ j, j ≠ k → t.dev j = s.dev j) :
    Waited t.readiness rest := by
  refine hw.mono fun j hj => ?_
  rw [Bool.and_eq_true, bne_iff_ne] at hj
  obtain ⟨hready, hjk⟩ := hj
  rw [State.readiness, hother j hjk]
  exact hready

/-- A bus word leaves every chip but the one it selects as it was. -/
theorem runBusWord_other {w : BusWord} {k : Chip} {s t : State} (h : runBusWord w s = .next t)
    (hk : chipOfSelect (selectOf w) = some k) : ∀ j, j ≠ k → t.dev j = s.dev j := by
  obtain ⟨-, l, hl, -, hother⟩ := runBusWord_frame h
  cases hk.symm.trans hl
  exact hother

/-- The status read of a wait: the chip is ready afterwards if it was before or answers so, and every other chip
is as it was (R88). -/
theorem waitCycle_readiness {k : Chip} {s t : State} (h : runBusWord (busOpWord (.wait k) s) s = .next t) :
    t.readiness k = (s.readiness k || !t.statusIn.msb) ∧ ∀ j, j ≠ k → t.dev j = s.dev j := by
  rw [busOpWord, runBusWord_chipWord _ _ _ _ _ (by simp)] at h
  cases h
  refine ⟨?_, fun j hj => ?_⟩
  · rw [State.readiness, statusCycle_dev_same]
    simp only [driveLines_dev, selectLines_dev]
    rfl
  · rw [statusCycle_dev_other hj]
    simp

/-- A chip known to be ready stays so in the status read of a wait (R88). -/
theorem waitCycle_keeps_readiness {k j : Chip} {s t : State}
    (h : runBusWord (busOpWord (.wait k) s) s = .next t) (hj : s.readiness j = true) :
    t.readiness j = true := by
  obtain ⟨hk, hother⟩ := waitCycle_readiness h
  by_cases hjk : j = k
  · subst hjk
    simp [hk, hj]
  · rw [State.readiness, hother j hjk]
    exact hj

theorem finish_waitedInv {s : State} (hs : s.seq = []) : WaitedInv (finish s) := by
  rw [WaitedInv, finish_seq, hs]
  trivial

theorem leave_waitedInv {rest : List EngineOp} {s : State} (hw : Waited s.readiness rest) :
    WaitedInv (leave rest s) := by
  rcases leave_cases rest s with ⟨s1, -, h⟩ | h
  · exact h ▸ finish_waitedInv rfl
  · exact h ▸ hw

theorem afterBusOp_waitedInv {b : BusOp} {rest : List EngineOp} {s t : State}
    (h : runBusWord (busOpWord b s) s = .next t) (hw : Waited s.readiness (.bus b :: rest)) :
    WaitedInv (afterBusOp b rest t) := by
  cases b with
  | wait k =>
    rw [afterBusOp]
    split
    · exact hw.mono (q := t.readiness) fun j hj => waitCycle_keeps_readiness h hj
    · rename_i hanswer
      refine leave_waitedInv (Waited.mono (r := fun j => s.readiness j || j == k) hw fun j hj => ?_)
      rcases Bool.or_eq_true_iff.mp hj with hj | hj
      · exact waitCycle_keeps_readiness h hj
      · rw [beq_iff_eq] at hj
        simp [hj, (waitCycle_readiness h).1, hanswer]
  | cycle w =>
    obtain ⟨k, i, hk, -, -, hrest⟩ := hw
    exact leave_waitedInv (hrest.after_cycle (runBusWord_other h hk))
  | merge k keep bits =>
    obtain ⟨-, hrest⟩ := hw
    exact leave_waitedInv (hrest.after_cycle (runBusWord_other h (by simp [busOpWord])))

theorem engineStep_waitedInv {s t : State} (h : engineStep s = .next t) (hs : WaitedInv s) :
    WaitedInv t := by
  have hready := runNotes_readiness s.seq s
  rcases engineStep_next h with ⟨s1, h1, rfl⟩ | ⟨s1, b, rest, s2, h1, h2, rfl⟩
  · exact finish_waitedInv rfl
  · rw [h1] at hready
    refine afterBusOp_waitedInv h2 ?_
    rw [hready]
    exact ((waitedInv_iff s).mp hs).after_notes h1

/-- Entries that wait for their own cycles do so whatever the chips' readiness (R95). -/
theorem SelfWaited.waited {ops : List EngineOp} (h : SelfWaited ops) (r : Chip → Bool) : Waited r ops := by
  have hw : Waited (fun _ => false) (ops ++ []) := h [] trivial
  rw [List.append_nil] at hw
  exact hw.mono (by simp)

theorem Requested.waitedInv {s t : State} (h : Requested s t) (hs : WaitedInv s) : WaitedInv t := by
  rcases h.seq with hseq | hseq
  · simpa only [WaitedInv, hseq, h.dev] using hs
  · exact hseq.waited _

/-- Settles O53: a request issues only entries that wait for their own cycles, and an engine step leaves behind
their waits the entries that it does not perform. -/
theorem busyWaitsAreKept : Obligations.BusyWaitsAreKept := fun _ _ hs h =>
  step_keeps_of_requested (I := WaitedInv) (fun _ _ _ hs => hs) (fun _ _ => engineStep_waitedInv)
    (fun _ _ => Requested.waitedInv) h hs

end Sys2Proof.Machine
end

-- Proofs: the fields of a request word
section
/-! SUPPORT. What the low 24 bits of a request word are once the bits that its code does not name are 0 (R73,
R74): one equation for each layout of R76, its right side in the encoder's own form. -/

namespace Sys2Proof.Machine

open BitVec (allOnes)

/-- A field of a field. -/
theorem extract_extract {n s l s' l' : Nat} (w : BitVec n) (h : s' + l' ≤ l) :
    (w.extractLsb' s l).extractLsb' s' l' = w.extractLsb' (s + s') l' := by
  apply BitVec.eq_of_getElem_eq
  intro i hi
  have hil : s' + i < l := by omega
  simp [hil, Nat.add_assoc]

theorem and_append_extract {m n : Nat} (w : BitVec (m + n)) (a : BitVec m) (b : BitVec n) :
    w &&& (a ++ b) = (w.extractLsb' n m &&& a) ++ (w.extractLsb' 0 n &&& b) := by
  rw [← BitVec.and_append, BitVec.extractLsb'_append_extractLsb']

/-- A field whose bits are all named stays as it is. -/
theorem and_append_field {m n : Nat} (w : BitVec (m + n)) (a : BitVec m) :
    w &&& (a ++ allOnes n) = (w.extractLsb' n m &&& a) ++ w.extractLsb' 0 n := by
  rw [and_append_extract, BitVec.and_allOnes]

/-- A field with no bit named is 0. -/
theorem and_append_gap {m n : Nat} (w : BitVec (m + n)) (a : BitVec m) :
    w &&& (a ++ 0#n) = (w.extractLsb' n m &&& a) ++ 0#n := by
  rw [and_append_extract, BitVec.and_zero]

theorem named_bit (w : RequestWord) :
    w.extractLsb' 0 24 &&& 0x000001#24 = 0#23 ++ w.extractLsb' 0 1 := by
  show w.extractLsb' 0 (23 + 1) &&& (0#23 ++ allOnes 1) = _
  simp (disch := omega) only [and_append_field, extract_extract, BitVec.and_zero]

theorem named_byte (w : RequestWord) :
    w.extractLsb' 0 24 &&& 0x0000FF#24 = 0#16 ++ w.extractLsb' 0 8 := by
  show w.extractLsb' 0 (16 + 8) &&& (0#16 ++ allOnes 8) = _
  simp (disch := omega) only [and_append_field, extract_extract, BitVec.and_zero]

theorem named_halfWord (w : RequestWord) :
    w.extractLsb' 0 24 &&& 0x00FFFF#24 = 0#8 ++ w.extractLsb' 0 16 := by
  show w.extractLsb' 0 (8 + 16) &&& (0#8 ++ allOnes 16) = _
  simp (disch := omega) only [and_append_field, extract_extract, BitVec.and_zero]

theorem named_twoBytes (w : RequestWord) :
    w.extractLsb' 0 24 &&& 0x00FFFF#24 = 0#8 ++ w.extractLsb' 8 8 ++ w.extractLsb' 0 8 := by
  show w.extractLsb' 0 (8 + 8 + 8) &&& (0#8 ++ allOnes 8 ++ allOnes 8) = _
  simp (disch := omega) only [and_append_field, extract_extract, BitVec.and_zero]

theorem named_rawCommand (w : RequestWord) :
    w.extractLsb' 0 24 &&& 0x0007FF#24
      = 0#13 ++ w.extractLsb' 10 1 ++ w.extractLsb' 9 1 ++ w.extractLsb' 8 1 ++ w.extractLsb' 0 8 := by
  show w.extractLsb' 0 (13 + 1 + 1 + 1 + 8)
    &&& (0#13 ++ allOnes 1 ++ allOnes 1 ++ allOnes 1 ++ allOnes 8) = _
  simp (disch := omega) only [and_append_field, extract_extract, BitVec.and_zero]

theorem named_dot (w : RequestWord) :
    w.extractLsb' 0 24 &&& 0x01FFFF#24
      = 0#7 ++ w.extractLsb' 16 1 ++ w.extractLsb' 8 8 ++ w.extractLsb' 0 8 := by
  show w.extractLsb' 0 (7 + 1 + 8 + 8) &&& (0#7 ++ allOnes 1 ++ allOnes 8 ++ allOnes 8) = _
  simp (disch := omega) only [and_append_field, extract_extract, BitVec.and_zero]

theorem named_colorAndByte (w : RequestWord) :
    w.extractLsb' 0 24 &&& 0x0100FF#24
      = 0#7 ++ w.extractLsb' 16 1 ++ 0#8 ++ w.extractLsb' 0 8 := by
  show w.extractLsb' 0 (7 + 1 + 8 + 8) &&& (0#7 ++ allOnes 1 ++ 0#8 ++ allOnes 8) = _
  simp (disch := omega) only [and_append_field, and_append_gap, extract_extract, BitVec.and_zero]

theorem named_color (w : RequestWord) :
    w.extractLsb' 0 24 &&& 0x010000#24 = 0#7 ++ w.extractLsb' 16 1 ++ 0#16 := by
  show w.extractLsb' 0 (7 + 1 + 16) &&& (0#7 ++ allOnes 1 ++ 0#16) = _
  simp (disch := omega) only [and_append_field, and_append_gap, extract_extract, BitVec.and_zero]

/-- The bits that no field names are 0 when the named ones are all there is. -/
theorem unnamed_eq_zero_iff {n : Nat} {low named : BitVec n} :
    low &&& ~~~named = 0 ↔ low &&& named = low := by
  simp only [BitVec.eq_of_getLsbD_eq_iff, BitVec.getLsbD_and]
  refine forall₂_congr fun i hi => ?_
  simp [hi]

theorem withFields_eq_ok_iff {op : Byte} {low named : BitVec 24} {i j : Instr} :
    withFields op low named i = .ok j ↔ low &&& ~~~named = 0 ∧ i = j := by
  unfold withFields
  split <;> simp_all

theorem withFields_of_named {op : Byte} {low named : BitVec 24} {i : Instr} (h : low &&& named = low) :
    withFields op low named i = .ok i :=
  withFields_eq_ok_iff.mpr ⟨unnamed_eq_zero_iff.mpr h, rfl⟩

@[simp] theorem bitOfFlag_flagOfBit (b : BitVec 1) : bitOfFlag (flagOfBit b) = b := by
  revert b; decide
@[simp] theorem bitOfChip_chipOfBit (b : BitVec 1) : bitOfChip (chipOfBit b) = b := by
  revert b; decide
@[simp] theorem bitOfColor_colorOfBit (b : BitVec 1) : bitOfColor (colorOfBit b) = b := by
  revert b; decide

@[simp] theorem op_requestWord (op : Byte) (low : BitVec 24) :
    (requestWord op low).extractLsb' 24 8 = op := BitVec.extractLsb'_append_eq_left

theorem field_requestWord (op : Byte) (low : BitVec 24) {start len : Nat} (h : start + len ≤ 24) :
    (requestWord op low).extractLsb' start len = low.extractLsb' start len :=
  extract_append_low op low h

/-- A request word is its code and its low 24 bits (R73). -/
theorem requestWord_fields (w : RequestWord) :
    requestWord (w.extractLsb' 24 8) (w.extractLsb' 0 24) = w :=
  BitVec.extractLsb'_append_extractLsb' (w := 8) (len := 24)

end Sys2Proof.Machine
end

-- Proofs: what the decoders read, and what a step runs (O1 to O4, O51)
section
/-! SUPPORT. The decoder of request words, row by row of R76, and of bus words, by their lines (R64);
and the instruction that a step runs (R75, R76, R81, R167). -/

namespace Sys2Proof.Machine

/-! ### Request words -/

/-- What a table of codes makes of a word: the row of its code names an instruction, whose word it is if no
unnamed bit is set (R73); or its code has no row (R77). -/
def ReadByTable (w : RequestWord) (rows : List (Byte × BitVec 24)) (r : Except Reject Instr) : Prop :=
  (∃ named i, (w.extractLsb' 24 8, named) ∈ rows
      ∧ r = withFields (w.extractLsb' 24 8) (w.extractLsb' 0 24) named i
      ∧ (w.extractLsb' 0 24 &&& ~~~named = 0 → encode i = .request w))
    ∨ (∀ named, (w.extractLsb' 24 8, named) ∉ rows)
      ∧ r = .error (.reservedOp (w.extractLsb' 24 8))

/-- One row of the decoder before the rows after it: the encoder writes its fields as they stand in the word. -/
theorem readByTable_cons {w : RequestWord} {op : Byte} {named fields : BitVec 24} {i : Instr}
    {rows : List (Byte × BitVec 24)} {r : Except Reject Instr}
    (hfields : w.extractLsb' 0 24 &&& named = fields)
    (hi : encode i = .request (requestWord op fields)) (hrest : ReadByTable w rows r) :
    ReadByTable w ((op, named) :: rows)
      (if w.extractLsb' 24 8 = op
        then withFields (w.extractLsb' 24 8) (w.extractLsb' 0 24) named i else r) := by
  by_cases hop : w.extractLsb' 24 8 = op
  · rw [if_pos hop]
    refine .inl ⟨named, i, hop ▸ List.mem_cons_self, rfl, fun h => ?_⟩
    rw [hi, ← hfields, unnamed_eq_zero_iff.mp h, ← hop, requestWord_fields]
  · rw [if_neg hop]
    simpa [ReadByTable, hop] using hrest

theorem decodeRequest_readByTable (w : RequestWord) :
    ReadByTable w requestFields (decodeRequest w) := by
  unfold decodeRequest
  refine readByTable_cons (named_bit w) (by simp [encode]) ?_
  refine readByTable_cons (named_bit w) (by simp [encode]) ?_
  refine readByTable_cons (named_twoBytes w) rfl ?_
  refine readByTable_cons BitVec.and_zero rfl ?_
  refine readByTable_cons (named_byte w) rfl ?_
  refine readByTable_cons (named_rawCommand w) (by simp [encode]) ?_
  refine readByTable_cons BitVec.and_zero rfl ?_
  refine readByTable_cons BitVec.and_zero rfl ?_
  refine readByTable_cons BitVec.and_zero rfl ?_
  refine readByTable_cons BitVec.and_zero rfl ?_
  refine readByTable_cons BitVec.and_zero rfl ?_
  refine readByTable_cons (named_bit w) (by simp [encode]) ?_
  refine readByTable_cons (named_dot w) (by simp [encode]) ?_
  refine readByTable_cons (named_colorAndByte w) (by simp [encode]) ?_
  refine readByTable_cons (named_color w) (by simp [encode]) ?_
  refine readByTable_cons (named_color w) (by simp [encode]) ?_
  refine readByTable_cons (named_byte w) rfl ?_
  refine readByTable_cons BitVec.and_zero rfl ?_
  refine readByTable_cons BitVec.and_zero rfl ?_
  refine readByTable_cons (named_halfWord w) rfl ?_
  refine readByTable_cons BitVec.and_zero rfl ?_
  refine readByTable_cons BitVec.and_zero rfl ?_
  refine readByTable_cons BitVec.and_zero rfl ?_
  refine readByTable_cons BitVec.and_zero rfl ?_
  refine readByTable_cons BitVec.and_zero rfl ?_
  exact .inr ⟨fun _ => List.not_mem_nil, rfl⟩

/-- R76 lists a code once. -/
theorem requestFields_unique {op : Byte} {a b : BitVec 24} (ha : (op, a) ∈ requestFields)
    (hb : (op, b) ∈ requestFields) : a = b := by
  have key : ∀ p ∈ requestFields, requestFields.lookup p.1 = some p.2 := by
    simp [requestFields, List.lookup]
  exact Option.some.inj ((key _ ha).symm.trans (key _ hb))

theorem encode_of_decodeRequest {w : RequestWord} {i : Instr} (h : decodeRequest w = .ok i) :
    encode i = .request w := by
  rcases decodeRequest_readByTable w with ⟨named, j, -, hdec, henc⟩ | ⟨-, hdec⟩
  · rw [hdec] at h
    obtain ⟨hnamed, rfl⟩ := withFields_eq_ok_iff.mp h
    exact henc hnamed
  · rw [hdec] at h
    cases h

theorem decodeRequest_ok_iff (w : RequestWord) :
    (∃ i, decodeRequest w = .ok i)
      ↔ ∃ named, (w.extractLsb' 24 8, named) ∈ requestFields
        ∧ w.extractLsb' 0 24 &&& ~~~named = 0 := by
  rcases decodeRequest_readByTable w with ⟨named, j, hrow, hdec, -⟩ | ⟨hno, hdec⟩
  · simp only [hdec, withFields_eq_ok_iff]
    constructor
    · rintro ⟨i, hnamed, -⟩
      exact ⟨named, hrow, hnamed⟩
    · rintro ⟨named', hrow', hnamed⟩
      exact ⟨j, requestFields_unique hrow' hrow ▸ hnamed, rfl⟩
  · simp [hdec, hno]

/-! ### Bus words -/

/-- A bus word is its chip select, its two lines and its byte (R63). -/
theorem busWord_fields (w : BusWord) :
    busWord (selectOf w) (flagOfBit (w.extractLsb' 9 1)) (flagOfBit (w.extractLsb' 8 1))
      (w.extractLsb' 0 8) = w := by
  simp only [busWord, selectOf, bitOfFlag_flagOfBit]
  rw [BitVec.extractLsb'_append_extractLsb'_eq_extractLsb',
    BitVec.extractLsb'_append_extractLsb'_eq_extractLsb',
    BitVec.extractLsb'_append_extractLsb'_eq_extractLsb', BitVec.extractLsb'_eq_self] <;> rfl

/-- A command byte that decodes is listed (R65, R70). -/
theorem decodeCommand_ok_iff {cs : BitVec 2} {c : Byte} :
    (∃ i, decodeCommand cs c = .ok i) ↔ commandListed c = true := by
  refine ⟨fun ⟨i, h⟩ => ?_, decodeCommand_listed cs⟩
  unfold decodeCommand at h
  repeat' split at h
  all_goals simp_all [commandListed]

/-- The listed bytes, as R65 writes them. -/
theorem commandListed_iff (c : Byte) :
    commandListed c = true
      ↔ c = 0x3E ∨ c = 0x3F ∨ (0x40 ≤ c.toNat ∧ c.toNat ≤ 0x7F)
        ∨ (0xB8 ≤ c.toNat ∧ c.toNat ≤ 0xBF) ∨ c = 0xC0 := by
  revert c; decide

theorem encode_of_decodeCommand {cs : BitVec 2} {c : Byte} {i : Instr}
    (h : decodeCommand cs c = .ok i) : encode i = .bus (busWord cs false false c) := by
  unfold decodeCommand at h
  repeat' split at h
  all_goals cases h
  · subst_vars; rfl
  · subst_vars; rfl
  · subst_vars; rfl
  · rename_i hp
    exact congrArg (fun c => Code.bus (busWord cs false false c)) (setPageByte_field hp)
  · rename_i hc
    exact congrArg (fun c => Code.bus (busWord cs false false c)) (setColumnByte_field hc)

theorem encode_of_decodeBus {w : BusWord} {i : Instr} (h : decodeBus w = .ok i) :
    encode i = .bus w := by
  rw [← busWord_fields w] at h ⊢
  generalize selectOf w = cs, flagOfBit (w.extractLsb' 9 1) = di, flagOfBit (w.extractLsb' 8 1) = rw,
    w.extractLsb' 0 8 = d at h ⊢
  rw [decodeBus_busWord] at h
  cases di <;> cases rw
  · exact encode_of_decodeCommand h
  all_goals cases h; rfl

/-! ### Where a step takes its instruction from -/

theorem step_of_running {s : State} (hh : halted s = none) :
    step s = move (nextTurn s) (popTurn s) := by
  simp only [step, machineStep, hh]

theorem step_run {s : State} (hh : halted s = none) (hrun : nextTurn s = .run) :
    step s = runStep (popTurn s) := by
  rw [step_of_running hh, hrun, move]

/-- With the engine idle the foreground's turn is a request's (R75). -/
theorem step_foreground {s : State} (hh : halted s = none) (hrun : nextTurn s = .run)
    (hseq : s.seq = []) (hctx : s.host.ctx = .fg) : step s = requestStep (popTurn s) := by
  simp [step_run hh hrun, runStep, hseq, hctx]

theorem requestStep_of_decoded {s : State} {w : RequestWord} {i : Instr} (hw : nextWord s = some w)
    (hi : decodeRequest w = .ok i) (hreq : i.isRequest = true) : requestStep s = issueStep i s := by
  simp only [requestStep, hw, hi, hreq, if_true]

/-- A word that spells no request of the foreground is refused (R76, R77). -/
theorem requestStep_refused {s : State} {w : RequestWord} (hw : nextWord s = some w)
    (hkind : ∀ i, decodeRequest w = .ok i → i.kind = .event ∨ i.kind = .handler) :
    requestStep s = .refused .badRequest := by
  simp only [requestStep, hw]
  cases hdec : decodeRequest w with
  | error e => rfl
  | ok i => rcases hkind i hdec with hk | hk <;> simp [Instr.isRequest, hk]

theorem runBusWord_of_decoded {w : BusWord} {i : Instr} (hi : decodeBus w = .ok i) (s : State) :
    runBusWord w s = exec i (driveSelect (selectOf w) s) := by
  simp only [runBusWord, hi]

/-- With a cycle at the head of `seq` there is no computation before it (R81). -/
theorem engineStep_bus {s : State} {b : BusOp} {rest : List EngineOp} (hseq : s.seq = .bus b :: rest) :
    engineStep s = onNext (runBusWord (busOpWord b s) s) fun t => .next (afterBusOp b rest t) := by
  simp only [engineStep, hseq, runNotes]

theorem step_engine {s : State} {op : EngineOp} {rest : List EngineOp} (hh : halted s = none)
    (hrun : nextTurn s = .run) (hseq : s.seq = op :: rest) : step s = engineStep (popTurn s) := by
  simp [step_run hh hrun, runStep, hseq]

/-! ### The obligations -/

/-- Settles O1: a bus word is read back by its lines, a request word by its code and by the fields that its row
names. -/
theorem decodeOfEncodeIsTheInstruction : Obligations.DecodeOfEncodeIsTheInstruction := by
  intro i
  cases i with
  | cmdDisplayOn | cmdDisplayOff | cmdSetStartLine => exact (decodeBus_busWord ..).trans rfl
  | cmdSetPage cs page => exact (decodeBus_busWord ..).trans (decodeCommand_setPage cs page)
  | cmdSetColumn cs col => exact (decodeBus_busWord ..).trans (decodeCommand_setColumn cs col)
  | statusRead | dataWrite | dataRead => exact decodeBus_busWord ..
  | evConvDone =>
    simp only [decode, encode, decodeRequest, op_requestWord, BitVec.ofNat_eq_ofNat, BitVec.reduceEq,
      if_true, if_false]
    refine (withFields_of_named ?_).trans (congrArg _ ?_)
    · rw [named_halfWord]
      simp (disch := omega) only [field_requestWord, extract_append_low, extract_all]
    · simp (disch := omega) only [field_requestWord, extract_append_low, extract_all]
  | _ =>
    simp only [decode, encode, decodeRequest, op_requestWord, BitVec.ofNat_eq_ofNat, BitVec.reduceEq,
      if_true, if_false]
    refine (withFields_of_named ?_).trans (congrArg _ ?_)
    · simp only [BitVec.and_zero, named_bit, named_byte, named_twoBytes, named_rawCommand, named_dot,
        named_colorAndByte, named_color]
      simp (disch := omega) only [field_requestWord, extract_append_low, extract_append_high, extract_all,
        Nat.reduceSub]
    · simp (disch := omega) only [field_requestWord, extract_append_low, extract_append_high, extract_all,
        Nat.reduceSub, flagOfBit_bitOfFlag, chipOfBit_bitOfChip, colorOfBit_bitOfColor]

/-- Settles O2: the row that reads a word rebuilds it. -/
theorem encodeOfDecodeIsTheWord : Obligations.EncodeOfDecodeIsTheWord := by
  intro c i h
  cases c with
  | bus w => exact encode_of_decodeBus h
  | request w => exact encode_of_decodeRequest h

/-- Settles O3: the rows of R76, the foreground's answer to a word that is no request of its own, and the bytes
of R65. -/
theorem wordsWithNoMeaningAreRefused : Obligations.WordsWithNoMeaningAreRefused := by
  refine ⟨decodeRequest_ok_iff, fun s w hh hrun hseq hctx hw hkind => ?_, fun cs c => ?_⟩
  · rw [step_foreground hh hrun hseq hctx]
    exact requestStep_refused (s := popTurn s) hw hkind
  · rw [decodeBus_busWord]
    exact decodeCommand_ok_iff.trans (commandListed_iff c)

/-- Settles O4: each word is evaluated. -/
theorem writtenOutWordsDecode : Obligations.WrittenOutWordsDecode :=
  ⟨rfl, rfl, rfl, rfl, rfl, rfl, rfl, rfl, rfl, rfl, rfl, rfl, rfl⟩

/-- Settles O51: the move of whoever's turn it is runs the instruction that its word, event or source names. -/
theorem stepRunsTheDecodedInstruction : Obligations.StepRunsTheDecodedInstruction := by
  refine fun s hh => ⟨fun w i hrun hseq hctx hw hi hreq => ?_, fun b i rest hrun hseq hi => ?_,
    fun e he => ?_, fun src hsrc htake => ?_⟩
  · rw [step_foreground hh hrun hseq hctx]
    exact requestStep_of_decoded (s := popTurn s) hw hi hreq
  · rw [step_engine hh hrun hseq, engineStep_bus (s := popTurn s) hseq]
    exact congrArg (onNext · _) (runBusWord_of_decoded hi (popTurn s))
  · rw [step_of_running hh, he, move]
  · rw [step_of_running hh, hsrc, move]
    exact if_pos htake

end Sys2Proof.Machine
end

-- Proofs: the command and data cycles (O5, O6, O7, O9)
section
/-! SUPPORT. A command or data cycle to the selected chip, said once for the three kinds: what the chip becomes if
it is not busy, and the fault if it is (R82 to R87, R92). -/

namespace Sys2Proof.Machine

/-- What a command or data cycle makes of the selected device, where it has a meaning; a status read is neither
(R84 to R86). -/
def cycleDevice (di rw : Bool) (d : Byte) (dev : Device) : Option Device :=
  match di, rw with
  | false, false => deviceCommand dev d
  | false, true => none
  | true, false => some (deviceDataWrite dev d)
  | true, true => some (deviceDataRead dev)

/-- The state in which a chip that is not busy performs a cycle: the same, but perhaps for one drawn byte. -/
theorem whenNotBusy_of_notBusy {k : Chip} {s : State} (hn : NotBusy k s) (f : State → Result) :
    ∃ s0, whenNotBusy k s f = f s0 ∧ BusFrame s s0 ∧ s0.lines = s.lines ∧ s0.dataIn = s.dataIn
      ∧ ∀ j, s0.dev j = s.dev j := by
  unfold whenNotBusy
  split
  · exact ⟨s, rfl, .refl s, rfl, rfl, fun _ => rfl⟩
  · rename_i hready
    rw [if_neg (by simp [hn.resolve_left hready])]
    exact ⟨afterDraw s, rfl, afterDraw_frame s, afterDraw_lines s, afterDraw_dataIn s, afterDraw_dev s⟩

theorem chipCycle_of_notBusy {k : Chip} {di rw : Bool} {d : Byte} {s : State} {e : Device}
    (hn : NotBusy k s) (he : cycleDevice di rw d (s.dev k) = some e) :
    ∃ t, chipCycle k di rw d s = .next t ∧ t.lines = s.lines ∧ t.dev k = e
      ∧ t.dataIn = if rw then (s.dev k).latch else s.dataIn := by
  cases di <;> cases rw
  case false.false =>
    obtain ⟨s0, hrun, -, hlines, hdata, hdev⟩ := whenNotBusy_of_notBusy hn (commandCycle k d)
    have he : deviceCommand (s0.dev k) d = some e := by rwa [hdev]
    exact ⟨s0.setDev k e, by simp [chipCycle, hrun, commandCycle, he], by simpa, by simp, by simpa⟩
  case false.true => cases he
  case true.false =>
    obtain ⟨s0, hrun, -, hlines, hdata, hdev⟩ := whenNotBusy_of_notBusy hn (dataWriteCycle k d)
    cases he
    exact ⟨_, hrun, by simpa, by simp [hdev], by simpa⟩
  case true.true =>
    obtain ⟨s0, hrun, -, hlines, hdata, hdev⟩ := whenNotBusy_of_notBusy hn (dataReadCycle k)
    cases he
    refine ⟨_, hrun, by simpa, ?_, by simp [hdev]⟩
    rw [← hdev k]
    cases k <;> rfl

/-- A bus word on lines that hold its own pattern is the selected chip's cycle (R82, R83). -/
theorem busCycle_of_selected {cs : BitVec 2} {k : Chip} {s : State} (hk : chipOfSelect cs = some k)
    (hcs : s.lines.cs = cs) (di rw : Bool) (d : Byte) :
    busCycle cs di rw d s = chipCycle k di rw d (driveLines di rw d s) := by
  simp only [busCycle, hk, hcs, if_true]

theorem notBusy_driveLines (k : Chip) (di rw : Bool) (d : Byte) (s : State) :
    NotBusy k (driveLines di rw d s) ↔ NotBusy k s := by
  simp only [NotBusy, driveLines_dev]
  rfl

theorem notBusy_driveSelect (k : Chip) (cs : BitVec 2) (s : State) :
    NotBusy k (driveSelect cs s) ↔ NotBusy k s := by
  simp only [NotBusy, driveSelect_dev]
  rfl

/-- A command or data cycle to a chip that is not busy completes, drives the lines, and changes the selected
device alone (R82 to R86). -/
theorem busCycle_of_notBusy {cs : BitVec 2} {k : Chip} {di rw : Bool} {d : Byte} {s : State} {e : Device}
    (hk : chipOfSelect cs = some k) (hcs : s.lines.cs = cs) (hn : NotBusy k s)
    (he : cycleDevice di rw d (s.dev k) = some e) :
    ∃ t, busCycle cs di rw d s = .next t ∧ CycleFrame k s t ∧ t.lines = (driveLines di rw d s).lines
      ∧ t.dev k = e ∧ t.dataIn = if rw then (s.dev k).latch else s.dataIn := by
  rw [busCycle_of_selected hk hcs]
  obtain ⟨t, hrun, hlines, hdev, hdata⟩ :=
    chipCycle_of_notBusy ((notBusy_driveLines k di rw d s).mpr hn) (by rwa [driveLines_dev])
  obtain ⟨hframe, -, hother⟩ := chipCycle_next hrun
  refine ⟨t, hrun, ((driveLines_frame ..).trans hframe).cycleFrame fun j hj => ?_, hlines, hdev, ?_⟩
  · rw [hother j hj, driveLines_dev]
  · rw [hdata, driveLines_dev, driveLines_dataIn]

/-- A command or data cycle to a busy chip faults (R92). -/
theorem chipCycle_of_busy {k : Chip} {di rw : Bool} {s : State} (hcycle : ¬(di = false ∧ rw = true))
    (hn : ¬ NotBusy k s) (d : Byte) : chipCycle k di rw d s = .fault .cycleWhileBusy := by
  have hbusy : ∀ f, whenNotBusy k s f = .fault .cycleWhileBusy := by
    obtain ⟨hready, hdraw⟩ := not_or.mp hn
    intro f
    rw [whenNotBusy, if_neg hready, if_pos (by simpa using hdraw)]
  cases di <;> cases rw
  case false.true => exact absurd ⟨rfl, rfl⟩ hcycle
  all_goals exact hbusy _

/-- Settles O5: each command byte names its register, and the cycle is that of a chip that is not busy. -/
theorem commandCyclesWriteTheirRegister : Obligations.CommandCyclesWriteTheirRegister := by
  intro cs k s hk hcs hn
  have command : ∀ {c : Byte} {e : Device}, deviceCommand (s.dev k) c = some e →
      ∃ t, busCycle cs false false c s = .next t ∧ CycleFrame k s t ∧ t.lines = writeLines s false c
        ∧ SameDevice e (t.dev k) := by
    intro c e he
    obtain ⟨t, hrun, hframe, hlines, hdev, -⟩ :=
      busCycle_of_notBusy (di := false) (rw := false) hk hcs hn he
    exact ⟨t, hrun, hframe, hlines, hdev ▸ ⟨rfl, rfl, rfl, rfl, rfl, rfl⟩⟩
  exact ⟨(command (c := 0x3F) rfl :), (command (c := 0x3E) rfl :), (command (c := 0xC0) rfl :),
    fun page => (command (deviceCommand_setPage (s.dev k) page) :),
    fun col => (command (deviceCommand_setColumn (s.dev k) col) :)⟩

/-- The byte of display RAM that a data write stores, and every other one (R85). -/
theorem ramByte_of_dataWrite {k : Chip} {v : Byte} {s t : State} (hm : Memory.wf (s.dev k).ram)
    (hdev : t.dev k = deviceDataWrite (s.dev k) v) (hother : ∀ j, j ≠ k → t.dev j = s.dev j)
    (j : Chip) (p : BitVec 3) (c : BitVec 6) :
    ramByte t j p c
      = if j = k ∧ p = (s.dev k).page ∧ c = (s.dev k).col then v else ramByte s j p c := by
  by_cases hj : j = k
  · subst hj
    simp [ramByte, hdev, read_deviceDataWrite hm]
  · simp [ramByte, hother j hj, hj]

/-- The column register counts modulo 64 (R87). -/
theorem toNat_succ_col (c : BitVec 6) : (c + 1).toNat = (c.toNat + 1) % 64 := BitVec.toNat_add c 1

/-- Settles O6: the device's data write, read back cell by cell. -/
theorem dataWriteCycleStoresItsByte : Obligations.DataWriteCycleStoresItsByte := by
  intro cs d k s hk hcs hn hm
  obtain ⟨t, hrun, hframe, hlines, hdev, -⟩ :=
    busCycle_of_notBusy (di := true) (rw := false) (d := d) hk hcs hn rfl
  obtain ⟨hwf, -⟩ := ((memoryInv_iff s).mp hm).1 k
  refine ⟨t, hrun, hframe, hlines, ramByte_of_dataWrite hwf hdev hframe.1, ?_⟩
  rw [hdev]
  exact ⟨toNat_succ_col _, rfl, rfl, rfl, rfl⟩

/-- A data read that completes returns the latch (R86). -/
theorem dataRead_returns_latch {cs : BitVec 2} {k : Chip} {d : Byte} {s t : State}
    (hk : chipOfSelect cs = some k) (hcs : s.lines.cs = cs) (h : exec (.dataRead cs d) s = .next t) :
    t.dataIn = (s.dev k).latch := by
  replace h : busCycle cs true true d s = .next t := h
  by_cases hn : NotBusy k s
  · obtain ⟨u, hrun, -, -, -, hdata⟩ :=
      busCycle_of_notBusy (di := true) (rw := true) (d := d) hk hcs hn rfl
    cases h.symm.trans hrun
    exact hdata
  · rw [busCycle_of_selected hk hcs,
      chipCycle_of_busy (by simp) (mt (notBusy_driveLines k true true d s).mp hn)] at h
    cases h

/-- Settles O7: the latch is returned and reloaded, so the next read returns the byte addressed before. -/
theorem dataReadCycleReturnsTheLatch : Obligations.DataReadCycleReturnsTheLatch := by
  intro cs d k s hk hcs hn
  obtain ⟨t, hrun, hframe, hlines, hdev, hdata⟩ :=
    busCycle_of_notBusy (di := true) (rw := true) (d := d) hk hcs hn rfl
  have hlatch : (t.dev k).latch = ramByte s k (s.dev k).page (s.dev k).col := by rw [hdev]; rfl
  refine ⟨t, hrun, hframe, hlines, hdata, hlatch, ?_, ?_, ?_, ?_, fun j p c => ?_, fun e u hu => ?_⟩
  · rw [hdev]; exact toNat_succ_col _
  · rw [hdev]; rfl
  · rw [hdev]; rfl
  · rw [hdev]; rfl
  · by_cases hj : j = k
    · subst hj
      rw [ramByte, hdev]; rfl
    · rw [ramByte, hframe.1 j hj]; rfl
  · rw [← hlatch]
    exact dataRead_returns_latch hk (by rw [hlines]; exact hcs) hu

/-- A pattern other than the two of R71 selects no chip or both. -/
theorem chipOfSelect_eq_none {cs : BitVec 2} (h0 : cs ≠ 0b01) (h1 : cs ≠ 0b10) :
    chipOfSelect cs = none := by
  exact (if_neg h0).trans (if_neg h1)

/-- A bus word that reads the status is the only one with DI = 0 and RW = 1 (R64). -/
theorem statusRead_of_decodeBus {w : BusWord} {i : Instr} (hi : decodeBus w = .ok i)
    (hdi : flagOfBit (w.extractLsb' 9 1) = false) (hrw : flagOfBit (w.extractLsb' 8 1) = true) :
    ∃ cs d, i = .statusRead cs d := by
  rw [← busWord_fields w, decodeBus_busWord, hdi, hrw] at hi
  cases hi
  exact ⟨_, _, rfl⟩

/-- Settles O9: the pattern is looked at first, the byte next, the chip's busy bit last. -/
theorem cyclesWithNoMeaningFault : Obligations.CyclesWithNoMeaningFault := by
  refine ⟨fun w s h0 h1 => ?_, fun k c s hc => ?_, fun w k i s hk hi hread hbusy => ?_⟩
  · have hnone := chipOfSelect_eq_none h0 h1
    have hexec : ∀ i u, decodeBus w = .ok i → exec i u = .fault .unmodelledChipSelect := by
      intro i u hi
      simp only [exec_of_decodeBus hi, busCycle, hnone]
    refine ⟨?_, fun i => hexec i s⟩
    cases hdec : decodeBus w with
    | ok i => rw [runBusWord_of_decoded hdec]; exact hexec i _ hdec
    | error e => simp only [runBusWord, hdec, hnone]
  · have hdec : ∀ i, decodeBus (chipWord k false false c) ≠ .ok i := by
      intro i hi
      rw [chipWord, decodeBus_busWord] at hi
      simp [decodeCommand_ok_iff.mp ⟨i, hi⟩] at hc
    cases h : decodeBus (chipWord k false false c) with
    | ok i => exact absurd h (hdec i)
    | error e => simp only [runBusWord, h, chipWord_select, chipOfSelect_csEncode]
  · rw [runBusWord_of hk hi]
    refine chipCycle_of_busy ?_ ?_ _
    · rintro ⟨hdi, hrw⟩
      obtain ⟨cs, d, rfl⟩ := statusRead_of_decodeBus hi hdi hrw
      exact hread cs d rfl
    · rwa [notBusy_driveLines, notBusy_driveSelect]

end Sys2Proof.Machine
end

-- Proofs: the pixels shown (O10)
section

namespace Sys2Proof.Machine

/-- Settles O10: start line 0 maps every row to itself. -/
theorem displayShowsItsRam : Obligations.DisplayShowsItsRam := by
  intro s x y _ hy
  refine ⟨fun hoff => by simp [shownPixel, hoff], fun hon hstart => ?_⟩
  have hrow : (y + (s.dev (chipOf x)).start.toNat) % 64 = y := by
    rw [hstart]
    exact Nat.mod_eq_of_lt hy
  simp [shownPixel, hon, hrow, yoff]

end Sys2Proof.Machine
end

-- Proofs: an engine request and its view (O15, O17)
section
/-! SUPPORT. The run of a foreground request of plain entries, its end state told by the view alone; and what a
re-home, a data read and an aligned write do to the whole view, the devices' registers included (R100 to R104). -/

namespace Sys2Proof.Machine

/-! ### The view at the end of a run -/

/-- The context guard lets a foreground with `gie = 0` pass (R116). -/
theorem guarded_of_free {s : State} (h : EngineFree s) (f : State → Result) : guarded s f = f s := by
  obtain ⟨-, hctx, hgie⟩ := h
  simp [guarded, busAllowed, hctx, hgie]

theorem viewOf_finish (s : State) : viewOf (finish s) = viewOf s := by
  unfold finish
  split <;> rfl

/-- A foreground operation that ends moves `pc` on, and touches nothing else outside the view (R81). -/
theorem OuterFrame.engineFrame {s u : State} (h : OuterFrame s u) (hctx : s.host.ctx = .fg) :
    EngineFrame s (finish { u with seq := [] }) := by
  obtain ⟨htouch, hhost, hprogram, hagenda⟩ := h
  have hfinish : finish { u with seq := [] } = advance { u with seq := [] } := by
    simp [finish, hhost, hctx]
  rw [hfinish]
  exact ⟨htouch, by simp [advance, hhost], hprogram, hagenda⟩

/-- A foreground operation of plain entries, each cycle behind its wait, runs to an end that its effect on the view
describes. -/
theorem runsTo_issue_view {ops : List EngineOp} {s : State} {P : State → Prop} (hfree : EngineFree s)
    (hchips : ChipsAnswer s) (hbus : busOpCount ops ≠ 0) (hplain : plainOps ops = true)
    (hself : SelfWaited ops) (hwaits : waitCount ops ≤ 4096)
    (h : ∀ u, EngineFrame s u → viewOf u = opsEffect ops (viewOf s) → P u) : RunsTo (issue ops s) P := by
  rw [← List.append_nil ops]
  refine runsTo_issue hfree.1 rfl hbus hplain hself (AnswersReady.mono hchips hwaits) fun u hview houter _ => ?_
  exact h _ (houter.engineFrame hfree.2.1) ((viewOf_finish _).trans hview)

/-- What a view says of a device: everything but its readiness. -/
theorem sameDevice_of_view {s : State} {v : View} (h : viewOf s = v) (k : Chip) : SameDevice (v.dev k) (s.dev k) := by
  rw [← h, viewOf_dev]
  exact ⟨rfl, rfl, rfl, rfl, rfl, rfl⟩

theorem ramByte_of_view {s : State} {v : View} (h : viewOf s = v) : ramByte s = v.ram := by
  funext k p c
  rw [← h, viewOf_ram]

/-! ### A re-home -/

theorem goneTo_dev (x y : Nat) (v : View) (j : Chip) :
    (v.goneTo x y).dev j
      = { v.dev j with page := pageOf y, col := if j = chipOf x then colOf x else (v.dev j).col } := by
  unfold View.goneTo
  generalize chipOf x = k
  cases k <;> cases j <;> rfl

/-- The cursor that a re-home leaves: where it was, with no stale flag (R100). -/
def Cache.homed (c : Cache) : Cache :=
  { c with pageStale := false, colStale := false, lastColChip := chipOf c.x.toNat }

theorem cacheHomed_self {c : Cache} (hc : CursorLegal c) : cacheHomed c.x.toNat c.y.toNat c = c.homed := by
  simp [cacheHomed, cacheAt, Cache.homed, ← hc.2]

theorem homed_eq_self {c : Cache} (h : HomedFlags c) : c.homed = c := by
  obtain ⟨hpage, hcol, hchip⟩ := h
  cases c
  simp_all [Cache.homed]

theorem rehome_not_homed {c : Cache} (h : ¬ HomedFlags c) : rehomePlan c = gotoPlan c.x.toNat c.y.toNat c := by
  unfold rehomePlan
  refine if_pos (Classical.byContradiction fun hflags => h ?_)
  simp only [not_or, Bool.not_eq_true, ne_eq, Classical.not_not] at hflags
  obtain ⟨hcol, hpage, hchip⟩ := hflags
  exact ⟨hpage, hcol, hchip⟩

/-- Two views with the same parts and the same devices are one. -/
theorem View.eq_of_parts {v w : View} (hcache : v.cache = w.cache) (hdev : ∀ k, v.dev k = w.dev k)
    (hdata : v.dataIn = w.dataIn) (hframe : ViewFrame w v) : v = w := by
  obtain ⟨hinvert, hclient, hreply⟩ := hframe
  have h0 : v.dev0 = w.dev0 := hdev .zero
  have h1 : v.dev1 = w.dev1 := hdev .one
  cases v
  cases w
  simp_all

theorem goneTo_dataIn (x y : Nat) (v : View) : (v.goneTo x y).dataIn = v.dataIn := by simp [View.goneTo]

/-- The view with the devices brought to the cursor (R100). -/
def View.rehomed (v : View) : View := v.goneTo v.cache.x.toNat v.cache.y.toNat

@[simp] theorem rehomed_ram (v : View) : v.rehomed.ram = v.ram := goneTo_ram ..

theorem rehomed_frame (v : View) : ViewFrame v v.rehomed := goneTo_frame ..

theorem rehomed_bare {v : View} (hb : v.Bare) : v.rehomed.Bare := goneTo_bare hb

section
variable {v : View} (hl : CursorLegal v.cache)
include hl

theorem rehomed_cache : v.rehomed.cache = v.cache.homed := by
  rw [← cacheHomed_self hl]
  simp [View.rehomed, View.goneTo]

/-- Every chip is at the cursor's page, and the cursor's own chip at its column. -/
theorem rehomed_dev (j : Chip) :
    v.rehomed.dev j
      = { v.dev j with
          page := v.cache.page
          col := if j = chipOf v.cache.x.toNat then colOf v.cache.x.toNat else (v.dev j).col } := by
  rw [View.rehomed, goneTo_dev, ← hl.2]

/-- With the devices at the cursor and no stale flag there is nothing to re-home (R99, R100). -/
theorem rehomed_of_homedFlags (ha : Agrees v.addressing) (hx : v.cache.x.toNat < Config.width)
    (hf : HomedFlags v.cache) : v.rehomed = v := by
  obtain ⟨hpages, hcols⟩ := ha
  obtain ⟨hpage, hcol, hchip⟩ := hf
  obtain ⟨h0, h1⟩ := hpages hpage
  have hat : (v.dev (chipOf v.cache.x.toNat)).col = colOf v.cache.x.toNat := by
    refine Eq.trans ?_ (hcols hcol hx hchip)
    show _ = v.addressing.col (chipOf v.cache.x.toNat)
    generalize chipOf v.cache.x.toNat = k
    cases k <;> rfl
  refine View.eq_of_parts ?_ (fun j => ?_) (goneTo_dataIn ..) (rehomed_frame v)
  · rw [rehomed_cache hl, homed_eq_self ⟨hpage, hcol, hchip⟩]
  · have hj : (v.dev j).page = v.cache.page := by
      cases j
      · exact h0
      · exact h1
    rw [rehomed_dev hl, ← hj]
    split
    · rename_i hk
      rw [← hat, ← hk]
    · rfl

/-- A re-home brings the devices to the cursor, and does nothing else (R100). -/
theorem rehome_effect (ha : Agrees v.addressing) (hb : v.Bare) (hx : v.cache.x.toNat < Config.width) :
    opsEffect (rehomePlan v.cache).1 v = v.rehomed ∧ (rehomePlan v.cache).2 = v.rehomed.cache := by
  have hy : v.cache.y.toNat < Config.height := v.cache.y.isLt
  rw [rehomed_cache hl]
  by_cases hf : HomedFlags v.cache
  · rw [rehome_homed hf, homed_eq_self hf, rehomed_of_homedFlags hl ha hx hf]
    exact ⟨rfl, rfl⟩
  · rw [rehome_not_homed hf, goto_cache hx hy, cacheHomed_self hl]
    exact ⟨opsEffect_goto hx hy ha.pages hb, rfl⟩

end

/-! ### `readData` -/

/-- The view after the two data reads and the column command of `readData` at chip `k`: the byte under the cursor
sampled, the latch reloaded from the next column (R86, R102). -/
def View.sampled (k : Chip) (v : View) : View :=
  { v.setDev k { v.dev k with latch := v.ram k (v.dev k).page ((v.dev k).col + 1) } with
    dataIn := v.ram k (v.dev k).page (v.dev k).col }

theorem sampled_dev (k : Chip) (v : View) (j : Chip) :
    (v.sampled k).dev j
      = { v.dev j with
          latch := if j = k then v.ram k (v.dev k).page ((v.dev k).col + 1) else (v.dev j).latch } := by
  cases k <;> cases j <;> rfl

theorem noteEffect_deliver_dev (v : View) (j : Chip) : (noteEffect .deliver v).dev j = v.dev j := by
  cases j <;> rfl

theorem readOps_effect {c : Cache} {v : View} (hb : v.Bare)
    (hcol : (v.dev (chipOf c.x.toNat)).col = colOf c.x.toNat) :
    opsEffect (readOps c) v = v.sampled (chipOf c.x.toNat) := by
  obtain ⟨h0, h1⟩ := hb
  simp only [readOps, opsEffect_append, opsEffect_waitedCycle, opsEffect_setColumn, chipEffect, ← hcol]
  generalize chipOf c.x.toNat = k
  cases k <;> simp [View.sampled, View.setDev, View.dev, View.ram, deviceDataRead, Device.current, h0, h1]

/-- The entries that `readData` issues with the cursor on the display (R102). -/
def readDataOps (c : Cache) : List EngineOp := (readPlan c).1 ++ [.note .deliver]

theorem exec_readData {s : State} (hfree : EngineFree s) (hx : s.cache.x.toNat < Config.width) :
    exec .readData s = .next (issue (readDataOps s.cache) s) := by
  rw [exec, execReadData, guarded_of_free hfree, if_neg (by omega)]
  rfl

/-- The effect of `readData`: a re-home, a sample, and the byte returned (R102). -/
theorem readData_effect {v : View} (hl : CursorLegal v.cache) (ha : Agrees v.addressing) (hb : v.Bare)
    (hx : v.cache.x.toNat < Config.width) :
    opsEffect (readDataOps v.cache) v
      = noteEffect .deliver (v.rehomed.sampled (chipOf v.cache.x.toNat)) := by
  obtain ⟨hhome, hcache⟩ := rehome_effect hl ha hb hx
  have hx' : v.rehomed.cache.x = v.cache.x := by rw [rehomed_cache hl]; rfl
  have hsample : opsEffect (readOps v.rehomed.cache) v.rehomed = v.rehomed.sampled (chipOf v.cache.x.toNat) := by
    rw [readOps_effect (rehomed_bare hb) (by rw [hx', rehomed_dev hl, if_pos rfl]), hx']
  simp only [readDataOps, readPlan, planThen, opsEffect_append, hhome, hcache, hsample]
  rfl

/-- `readData` issues plain entries, six waits at most, each cycle behind one (R95, R102). -/
theorem readData_plain (c : Cache) :
    plainOps (readDataOps c) = true ∧ waitCount (readDataOps c) ≤ 6 ∧ busOpCount (readDataOps c) ≠ 0
      ∧ SelfWaited (readDataOps c) := by
  obtain ⟨hplain, hwaits⟩ := plain_rehome c
  refine ⟨?_, ?_, ?_, (PlanWaited.read c).append (.note _)⟩
  · simp [readDataOps, readPlan, planThen, readOps, writeCommand, plainOps_append, plainOps_waitedCycle, hplain,
      plainOps, Note.plain]
  · simp [readDataOps, readPlan, planThen, readOps, writeCommand, waitCount_append, waitCount_waitedCycle, waitCount]
    omega
  · simp [readDataOps, readPlan, planThen, readOps, writeCommand, busOpCount_append, waitedCycle, waitOp, cycleOp,
      busOpCount]

/-- An idle engine's cursor agrees with the devices (R99). -/
theorem agrees_of_idle {s : State} (hseq : s.seq = []) (h : CursorInv s) : Agrees (viewOf s).addressing := by
  rwa [CursorInv, hseq] at h

/-- The devices after `readData`: at the cursor, and the latch of the cursor's chip reloaded (R86, R102). -/
theorem readData_devices {s u : State} (hl : CursorLegal s.cache)
    (hview : viewOf u = noteEffect .deliver ((viewOf s).rehomed.sampled (chipOf s.cache.x.toNat))) (j : Chip) :
    SameDevice
      { s.dev j with
        page := s.cache.page
        col := if j = chipOf s.cache.x.toNat then colOf s.cache.x.toNat else (s.dev j).col
        latch := if j = chipOf s.cache.x.toNat then
            ramByte s (chipOf s.cache.x.toNat) s.cache.page (colOf s.cache.x.toNat + 1)
          else (s.dev j).latch } (u.dev j) := by
  have hl' : CursorLegal (viewOf s).cache := hl
  have h := sameDevice_of_view hview j
  simp only [noteEffect_deliver_dev, sampled_dev, rehomed_dev hl', viewOf_cache, viewOf_dev, rehomed_ram, viewOf_ram,
    if_true] at h
  exact h

/-- Settles O15: the run of `readData` has the effect of a re-home and a sample, read off field by field. -/
theorem readDataReturnsTheLogicalByte : Obligations.ReadDataReturnsTheLogicalByte := by
  intro s hfree hchips hcursor hlegal hx k c
  have hl : CursorLegal (viewOf s).cache := hlegal.1
  have ha := agrees_of_idle hfree.1 hcursor
  obtain ⟨hplain, hwaits, hbus, hself⟩ := readData_plain s.cache
  refine ⟨_, exec_readData hfree hx,
    runsTo_issue_view hfree hchips hbus hplain hself (by omega) fun u hframe hview => ?_⟩
  replace hview := hview.trans (readData_effect hl ha (viewOf_bare s) hx)
  obtain ⟨hinvert, hclient, -⟩ := rehomed_frame (viewOf s)
  have hdev := readData_devices hl hview
  simp only [SameDevice, forall_and] at hdev
  obtain ⟨hram, hpage, hcol, hon, hstart, hlatch⟩ := hdev
  refine ⟨hframe, (congrArg View.client hview).trans ?_, (congrArg View.invert hview).trans ?_,
    (congrArg View.reply hview).trans ?_, (congrArg View.cache hview).trans ?_, hpage .zero, hpage .one,
    (hcol k).trans (if_pos rfl), (hlatch k).trans (if_pos rfl),
    fun j hj => ⟨(hcol j).trans (if_neg hj), (hlatch j).trans (if_neg hj)⟩, fun j => ⟨hon j, hstart j⟩,
    fun j p c => ?_⟩
  · simpa [noteEffect, View.sampled] using hclient
  · simpa [noteEffect, View.sampled] using hinvert
  · simp [noteEffect, View.sampled, hinvert, rehomed_dev hl, viewOf_ram, logicalByte, k, c]
  · simp [noteEffect, View.sampled, rehomed_cache hl, Cache.homed, k]
  · rw [ramByte, hram]; rfl

/-! ### An aligned `writeData` -/

/-- The effect of an aligned `writeData`: a re-home, one data write, and the cursor one column on (R104). -/
theorem writeData_effect {inv : Bool} {v : View} (hl : CursorLegal v.cache) (ha : Agrees v.addressing) (hb : v.Bare)
    (hx : v.cache.x.toNat < Config.width) (ho : yoff v.cache.y.toNat = 0) (d : Byte) :
    opsEffect (writePlan inv d v.cache).1 v
      = { chipEffect (chipOf v.cache.x.toNat) true false (onBus inv d) v.rehomed with
          cache := cacheNext v.cache.homed } := by
  obtain ⟨hhome, hcache⟩ := rehome_effect hl ha hb hx
  rw [writePlan, if_neg (by omega), if_pos ho]
  simp only [planThen, alignedPlan, opsEffect_append, hhome, hcache, opsEffect_waitedCycle, opsEffect_cacheNote,
    opsEffect_nil, rehomed_cache hl, Cache.homed]

/-- The devices after an aligned `writeData`: at the cursor, and the cursor's chip written and one column on
(R85, R104). -/
theorem writeData_devices {s u : State} {b : Byte} {c : Cache} (hl : CursorLegal s.cache)
    (hview : viewOf u
      = { chipEffect (chipOf s.cache.x.toNat) true false b (viewOf s).rehomed with cache := c }) (j : Chip) :
    SameDevice
      { s.dev j with
        ram := if j = chipOf s.cache.x.toNat then
            (s.dev j).ram.write (ramAddr s.cache.page (colOf s.cache.x.toNat)) b
          else (s.dev j).ram
        page := s.cache.page
        col := if j = chipOf s.cache.x.toNat then colOf s.cache.x.toNat + 1 else (s.dev j).col } (u.dev j) := by
  have hl' : CursorLegal (viewOf s).cache := hl
  have hcache : ∀ v : View, ({ v with cache := c } : View).dev j = v.dev j := by intro v; cases j <;> rfl
  have h := sameDevice_of_view hview j
  rw [hcache, chipEffect] at h
  by_cases hj : j = chipOf s.cache.x.toNat
  · subst hj
    simp only [View.setDev_dev_same, rehomed_dev hl', viewOf_cache, viewOf_dev, if_true] at h ⊢
    exact h
  · simp only [View.setDev_dev_other _ _ hj, rehomed_dev hl', viewOf_cache, viewOf_dev, if_neg hj] at h ⊢
    exact h

/-- Settles O17: the run of an aligned `writeData` has the effect of a re-home and one data write. -/
theorem writeDataAlignedStoresTheByte : Obligations.WriteDataAlignedStoresTheByte := by
  intro d s hfree hchips hcursor hlegal hm hx hy k c
  have hl : CursorLegal (viewOf s).cache := hlegal.1
  have ha := agrees_of_idle hfree.1 hcursor
  have ho : yoff s.cache.y.toNat = 0 := hy
  obtain ⟨hplain, hwaits⟩ := plain_write_aligned s.invert d s.cache ho
  have hbus : busOpCount (writePlan s.invert d s.cache).1 ≠ 0 := by
    rw [writePlan, if_neg (by simpa using hx), if_pos ho]
    simp [planThen, alignedPlan, busOpCount_append, waitedCycle, waitOp, cycleOp, busOpCount]
  refine ⟨issue (writePlan s.invert d s.cache).1 s, ?_,
    runsTo_issue_view hfree hchips hbus hplain (PlanWaited.write _ _ _) (by omega) fun u hframe hview => ?_⟩
  · rw [exec, execWriteData, guarded_of_free hfree]
  · replace hview := hview.trans (writeData_effect hl ha (viewOf_bare s) hx ho d)
    obtain ⟨hinvert, hclient, hreply⟩ := rehomed_frame (viewOf s)
    have hdev := writeData_devices hl hview
    simp only [SameDevice, forall_and] at hdev
    obtain ⟨hram, hpage, hcol, hon, hstart, hlatch⟩ := hdev
    refine ⟨hframe, ⟨(congrArg View.client hview).trans ?_, (congrArg View.invert hview).trans ?_,
      (congrArg View.reply hview).trans ?_⟩, congrArg View.cache hview, hpage .zero, hpage .one,
      (hcol k).trans (if_pos rfl), fun j hj => (hcol j).trans (if_neg hj),
      ⟨hon .zero, hstart .zero, hlatch .zero⟩, ⟨hon .one, hstart .one, hlatch .one⟩, fun j p b => ?_⟩
    · simpa [chipEffect] using hclient
    · simpa [chipEffect] using hinvert
    · simpa [chipEffect] using hreply
    · obtain ⟨hwf, -⟩ := ((memoryInv_iff s).mp hm).1 k
      by_cases hj : j = k
      · rw [ramByte, hram, if_pos hj, hj]
        simp only [true_and]
        exact read_deviceDataWrite (d := { s.dev k with page := s.cache.page, col := c }) hwf _ p b
      · rw [ramByte, hram, if_neg hj, if_neg (fun h => hj h.1)]
        rfl

end Sys2Proof.Machine
end

-- Proofs: where a step stops (O54)
section
/-! SUPPORT. The stops of a step (R90 to R92, R172): a cycle behind its wait completes, so the engine never stops; a
handler completes; a request stops at its start, for the context it runs in; an event stops on a result that the
converter cannot produce. -/

namespace Sys2Proof.Machine

/-! ### The engine never stops -/

/-- A chip known to be ready performs any cycle whose byte, if a command, is a listed one (R82, R92). -/
theorem chipCycle_completes {k : Chip} {di rw : Bool} {d : Byte} {s : State} (hready : (s.dev k).ready = true)
    (hlisted : di = false → rw = false → commandListed d = true) :
    ∃ t, chipCycle k di rw d s = .next t := by
  by_cases hstatus : di = false ∧ rw = true
  · obtain ⟨rfl, rfl⟩ := hstatus
    exact ⟨_, rfl⟩
  · obtain ⟨t, ht, -⟩ := chipCycle_ready hready hlisted hstatus
    exact ⟨t, ht⟩

/-- The byte of a command cycle that decodes is a listed one (R65). -/
theorem commandListed_of_decodeBus {w : BusWord} {i : Instr} (hi : decodeBus w = .ok i)
    (hdi : flagOfBit (w.extractLsb' 9 1) = false) (hrw : flagOfBit (w.extractLsb' 8 1) = false) :
    commandListed (w.extractLsb' 0 8) = true := by
  rw [← busWord_fields w, decodeBus_busWord, hdi, hrw] at hi
  exact decodeCommand_ok_iff.mp ⟨i, hi⟩

/-- A bus operation behind its wait completes (R57, R95). -/
theorem busOp_completes {b : BusOp} {rest : List EngineOp} {s : State}
    (hw : Waited s.readiness (.bus b :: rest)) : ∃ t, runBusWord (busOpWord b s) s = .next t := by
  cases b with
  | wait k => exact ⟨_, runBusWord_chipWord k false true 0 s (by simp)⟩
  | cycle w =>
    obtain ⟨k, i, hk, hi, hready, -⟩ := hw
    rw [busOpWord, runBusWord_of hk hi]
    exact chipCycle_completes (by simpa [State.readiness] using hready) (commandListed_of_decodeBus hi)
  | merge k keep bits =>
    obtain ⟨hready, -⟩ := hw
    rw [busOpWord, runBusWord_chipWord _ _ _ _ _ (by simp)]
    exact chipCycle_completes (by simpa [State.readiness] using hready) (by simp)

theorem engineStep_completes {s : State} (hw : WaitedInv s) : ∃ t, engineStep s = .next t := by
  unfold engineStep
  split
  · exact ⟨_, rfl⟩
  · rename_i s1 b rest hnotes
    have hready : s1.readiness = s.readiness := by simpa [hnotes] using runNotes_readiness s.seq s
    obtain ⟨t, ht⟩ := busOp_completes (hready ▸ ((waitedInv_iff s).mp hw).after_notes hnotes)
    exact ⟨_, by rw [ht, onNext_next]⟩

/-- What is issued and completes goes on to perform its first cycle (R81). -/
theorem issueStep_of_next {i : Instr} {s u : State} (hw : WaitedInv s) (hkind : i.kind ≠ .busWord)
    (h : exec i s = .next u) : ∃ t, issueStep i s = .next t := by
  rw [issueStep, h, onNext_next]
  split
  · exact ⟨u, rfl⟩
  · exact engineStep_completes ((exec_requested hkind h).waitedInv hw)

/-! ### The buffer rows exist -/

theorem windowExists_of_startline {client : Client} (h : client.startline.toNat ≤ Config.startlineMax) :
    windowExists client = true := by
  simp only [windowExists, decide_eq_true_eq, Config.npages, Config.pagesTotal, Config.screens,
    Config.startlineMax] at *
  omega

/-! ### Handlers and events -/

theorem exec_handler_completes {s : State} (hs : StartlineInv s) (src : Source) :
    ∃ t, exec (handlerInstr src) s = .next t := by
  cases src with
  | timer =>
    show ∃ t, execIsrTimer s = .next t
    unfold execIsrTimer
    split <;> exact ⟨_, rfl⟩
  | adc =>
    show ∃ t, execIsrAdc s = .next t
    unfold execIsrAdc
    split <;> exact ⟨_, rfl⟩
  | button =>
    have hwindow : windowExists (buttonHandler (takeInterrupt .button s)).client = true :=
      windowExists_of_startline hs.2
    show ∃ t, execIsrButton s = .next t
    simp only [execIsrButton, hwindow, if_true]
    split <;> exact ⟨_, rfl⟩

/-- An event completes, or is a conversion result that is refused (R121). -/
theorem exec_event (e : EnvEvent) (s : State) :
    (∃ t, exec (eventInstr e) s = .next t)
      ∨ ∃ raw, e = .convDone raw ∧ exec (eventInstr e) s = .refused .badEvent := by
  cases e with
  | convDone raw =>
    show (∃ t, execEvConvDone raw s = .next t) ∨ ∃ raw', _ ∧ execEvConvDone raw s = _
    unfold execEvConvDone
    split
    · exact .inr ⟨raw, rfl, rfl⟩
    · split <;> exact .inl ⟨_, rfl⟩
  | timer | button => exact .inl ⟨_, rfl⟩

/-! ### Requests -/

/-- Of the faults, an answer can be only one of those a request meets at its start: the context it runs in does not
allow it (R116, R132, R133). -/
def FaultsByContext (r : Result) : Prop :=
  ∀ f, r = .fault f → f = .busWithInterruptsEnabled ∨ f = .sharedWriteWithInterruptsEnabled
    ∨ f = .sharedReadWithInterruptsEnabled

theorem FaultsByContext.next (t : State) : FaultsByContext (.next t) := fun _ h => by cases h

theorem FaultsByContext.refused (r : Refusal) : FaultsByContext (.refused r) := fun _ h => by cases h

theorem FaultsByContext.guarded {s : State} {f : State → Result} (h : FaultsByContext (f s)) :
    FaultsByContext (guarded s f) := by
  unfold Machine.guarded
  split
  · exact h
  · rintro f ⟨⟩
    exact .inl rfl

theorem execSetDot_faults {s : State} (hs : StartlineInv s) (x y : Byte) (color : Color) :
    FaultsByContext (execSetDot x y color s) := by
  refine .guarded ?_
  simp only
  split
  · rename_i hdot
    have hrow : y.toNat / 8 + s.client.startline.toNat / 8 < Config.pagesTotal := by
      obtain ⟨-, hmax⟩ := hs
      simp only [dotInBounds, Bool.and_eq_true, decide_eq_true_eq, Config.height] at hdot
      simp only [Config.startlineMax, Config.pagesTotal, Config.screens] at *
      omega
    rw [if_pos hrow]
    exact .next _
  · exact .next _

theorem exec_request_faults {i : Instr} {s : State} (hs : StartlineInv s) (hi : i.isRequest = true) :
    FaultsByContext (exec i s) := by
  cases i with
  | cmdDisplayOn _ | cmdDisplayOff _ | cmdSetStartLine _ | cmdSetPage _ _ | cmdSetColumn _ _
  | statusRead _ _ | dataWrite _ _ | dataRead _ _ | evConvDone _ | evTimer | evButton | isrTimer | isrAdc
  | isrButton => cases hi
  | waitReady _ | selectChip _ | gotoXY _ _ | writeData _ | init _ | clearScreen _ | clearScreenUnsafe _ =>
    rw [exec]
    refine .guarded ?_
    exact .next _
  | dint | eint | getStartline => exact .next _
  | readData =>
    rw [exec]
    refine .guarded ?_
    split <;> exact .next _
  | doWriteCommand cmd k di rw =>
    rw [exec]
    refine .guarded ?_
    split
    · exact .refused _
    · split
      · exact .refused _
      · exact .next _
  | clearPage page color =>
    rw [exec]
    refine .guarded ?_
    split
    · exact .refused _
    · exact .next _
  | scroll delta =>
    rw [exec]
    refine .guarded ?_
    split
    · exact .refused _
    · split <;> exact .next _
  | dumpBuffer =>
    rw [exec]
    refine .guarded ?_
    rw [if_pos (windowExists_of_startline hs.2)]
    exact .next _
  | setDot x y color => exact execSetDot_faults hs x y color
  | lpmWait =>
    show FaultsByContext (execLpmWait s)
    unfold execLpmWait
    split <;> exact .next _
  | toggleLowpass =>
    show FaultsByContext (execToggleLowpass s)
    unfold execToggleLowpass
    split
    · exact .next _
    · rintro f ⟨⟩; exact .inr (.inl rfl)
  | snapshot =>
    show FaultsByContext (execSnapshot s)
    unfold execSnapshot
    split
    · exact .next _
    · rintro f ⟨⟩; exact .inr (.inr rfl)

theorem requestStep_faults {s : State} (hw : WaitedInv s) (hs : StartlineInv s) :
    FaultsByContext (requestStep s) := by
  unfold requestStep
  split
  · exact .next _
  · split
    · exact .refused _
    · rename_i i _
      split
      · rename_i hreq
        have hfaults := exec_request_faults hs hreq
        cases h : exec i s with
        | next u =>
          obtain ⟨t, ht⟩ := issueStep_of_next hw (kind_ne_busWord_of_issued (.inl hreq)) h
          rw [ht]
          exact .next t
        | fault f => simpa only [issueStep, h, onNext_fault] using hfaults
        | refused r => simpa only [issueStep, h, onNext_refused] using hfaults
      · exact .refused _

/-! ### A step -/

/-- The foreground is about to start a request, no engine operation being in progress (R75, R172). -/
def AtRequest (s : State) : Prop := s.seq = [] ∧ s.host.ctx = .fg ∧ nextTurn s = .run

/-- What a step can answer: a next state; at the start of a request, a stop; or the refusal of a conversion
result. -/
theorem step_answers {s : State} (hw : WaitedInv s) (hs : StartlineInv s) (hh : halted s = none) :
    (∃ t, step s = .next t) ∨ (AtRequest s ∧ FaultsByContext (step s))
      ∨ ∃ raw, nextTurn s = .event (.convDone raw) ∧ step s = .refused .badEvent := by
  have hw' : WaitedInv (popTurn s) := hw
  have hs' : StartlineInv (popTurn s) := hs
  cases hturn : nextTurn s with
  | run =>
    cases hseq : s.seq with
    | nil =>
      by_cases hctx : s.host.ctx = .fg
      · rw [step_foreground hh hturn hseq hctx]
        exact .inr (.inl ⟨⟨hseq, hctx, hturn⟩, requestStep_faults hw' hs'⟩)
      · refine .inl ⟨returnFromInterrupt (popTurn s), ?_⟩
        simp [step_run hh hturn, runStep, hseq, hctx]
    | cons op rest =>
      rw [step_engine hh hturn hseq]
      exact .inl (engineStep_completes hw')
  | interrupt src =>
    rw [step_of_running hh, hturn, move, interruptStep]
    split
    · obtain ⟨u, hu⟩ := exec_handler_completes hs' src
      exact .inl (issueStep_of_next hw' (kind_ne_busWord_of_issued (.inr (handlerInstr_kind src))) hu)
    · exact .inl ⟨_, rfl⟩
  | event e =>
    rw [step_of_running hh, hturn, move]
    rcases exec_event e (popTurn s) with hnext | ⟨raw, rfl, hrefused⟩
    · exact .inl hnext
    · exact .inr (.inr ⟨raw, rfl, hrefused⟩)

/-- Settles O54: a step that stops is at the start of a request, whose faults are of its context, or refuses a
conversion result. -/
theorem faultsComeBeforeAnyBusCycle : Obligations.FaultsComeBeforeAnyBusCycle := by
  intro s hw hs hh
  rcases step_answers hw hs hh with ⟨t, ht⟩ | ⟨⟨hseq, hctx, hturn⟩, hfaults⟩ | ⟨raw, hturn, hrefused⟩
  · simp [ht]
  · refine ⟨fun h => ?_, fun h => ?_, fun h => ?_, fun h => ?_, fun f _ => ⟨hseq, hctx, hturn⟩,
      fun r _ => .inl ⟨hseq, hctx, hturn⟩⟩
    all_goals simpa using hfaults _ h
  · simp [hrefused, hturn]

end Sys2Proof.Machine
end

-- Proofs: the cursor and the context, one step at a time (O52, O57)
section
/-! SUPPORT. What an engine step does to the address registers and to the host context, and what a request or a
handler leaves when it is issued (R81, R99, R116): a cycle moves the address registers as its word says, so what
`AgreesAfter` foresees comes about; and what is issued either is complete at once, or stands in `seq` with
interrupts disabled. -/

namespace Sys2Proof.Machine

/-! ### The address registers -/

@[simp] theorem addressing_afterDraw (s : State) : addressing (afterDraw s) = addressing s := by
  simp [addressing]

@[simp] theorem addressing_finish (s : State) : addressing (finish s) = addressing s := by
  simp [addressing]

@[simp] theorem addressing_statusCycle (k : Chip) (s : State) :
    addressing (statusCycle k s) = addressing s := by
  cases k <;> simp [addressing, statusCycle, State.setDev, State.dev]

/-- A device put in the place of a chip brings its page and its column. -/
theorem addressing_setDev (s : State) (k : Chip) (d : Device) :
    addressing (s.setDev k d) = ((addressing s).setPage k d.page).setCol k d.col := by
  cases k <;> rfl

theorem addressing_setDev_col {s : State} {k : Chip} {d : Device} (hpage : d.page = (s.dev k).page) :
    addressing (s.setDev k d) = (addressing s).setCol k d.col := by
  rw [addressing_setDev, hpage]
  cases k <;> rfl

theorem addressing_col (s : State) (k : Chip) : (addressing s).col k = (s.dev k).col := by cases k <;> rfl

theorem whenNotBusy_next {k : Chip} {s t : State} {f : State → Result} (h : whenNotBusy k s f = .next t) :
    f s = .next t ∨ f (afterDraw s) = .next t := by
  unfold whenNotBusy at h
  split at h
  · exact .inl h
  · split at h
    · cases h
    · exact .inr h

/-- A command moves the address register its byte names, as the word of that byte says (R84). -/
theorem addressing_command {k : Chip} {c : Byte} {s : State} {d : Device}
    (h : deviceCommand (s.dev k) c = some d) :
    addressing (s.setDev k d) = addressAfterWord (chipWord k false false c) (addressing s) := by
  rw [addressAfterWord_chipWord]
  unfold deviceCommand at h
  unfold decodeCommand
  repeat' split at h
  all_goals cases h
  all_goals simp_all only [if_true, if_false]
  all_goals cases k <;> rfl

theorem commandCycle_addressing {k : Chip} {c : Byte} {s t : State} (h : commandCycle k c s = .next t) :
    addressing t = addressAfterWord (chipWord k false false c) (addressing s) := by
  unfold commandCycle at h
  split at h
  · cases h; exact addressing_command ‹_›
  · cases h

/-- A data cycle moves its chip's column on (R85 to R87). -/
theorem dataCycle_addressing {k : Chip} {s : State} {d : Device} (hpage : d.page = (s.dev k).page)
    (hcol : d.col = (s.dev k).col + 1) :
    addressing (s.setDev k d) = (addressing s).setCol k ((addressing s).col k + 1) := by
  rw [addressing_setDev_col hpage, hcol, addressing_col]

theorem chipCycle_addressing {k : Chip} {di rw : Bool} {d : Byte} {s t : State}
    (h : chipCycle k di rw d s = .next t) :
    addressing t = addressAfterWord (chipWord k di rw d) (addressing s) := by
  have draw : ∀ {f : State → Result} {a : Addressing → Addressing},
      (∀ u, f u = .next t → addressing t = a (addressing u)) → whenNotBusy k s f = .next t →
      addressing t = a (addressing s) := by
    intro f a hf h
    rcases whenNotBusy_next h with h | h
    · exact hf s h
    · exact (hf _ h).trans (congrArg a (addressing_afterDraw s))
  cases di <;> cases rw
  case false.false => exact draw (fun u => commandCycle_addressing) h
  case false.true =>
    cases h
    rw [addressAfterWord_chipWord]
    exact addressing_statusCycle k s
  all_goals
    rw [addressAfterWord_chipWord]
    refine draw (a := fun a => a.setCol k (a.col k + 1)) (fun u h => ?_) h
    cases h
    exact dataCycle_addressing rfl rfl

theorem chipOfSelect_eq_some {cs : BitVec 2} {k : Chip} (h : chipOfSelect cs = some k) :
    cs = Config.csEncode k := by
  unfold chipOfSelect at h
  repeat' split at h
  all_goals cases h
  all_goals assumption

/-- A bus word that runs moves the address registers as it says (R82 to R87). -/
theorem runBusWord_addressing {w : BusWord} {s t : State} (h : runBusWord w s = .next t) :
    addressing t = addressAfterWord w (addressing s) := by
  obtain ⟨k, i, hk, -, h⟩ := runBusWord_next h
  have hw := busWord_fields w
  rw [chipOfSelect_eq_some hk] at hw
  rw [chipCycle_addressing h, chipWord, hw]
  rfl

/-! ### The engine keeps the cursor invariant -/

/-- A spill leaves its chip at some column, and no other address register moved (R108). -/
theorem addressing_spillInto (k : Chip) (col : BitVec 6) (s : State) :
    ∃ c, addressing (spillInto k col s) = (addressing s).setCol k c := by
  refine ⟨(drawnByte (afterDraw (afterDraw s))).extractLsb' 0 6, ?_⟩
  simp only [spillInto]
  rw [addressing_setDev_col (by simp)]
  simp

theorem runNote_agreesAfter {n : Note} {rest : List EngineOp} {s : State}
    (h : AgreesAfter (.note n :: rest) (addressing s)) : AgreesAfter rest (addressing (runNote n s)) := by
  cases n with
  | spill k col =>
    obtain ⟨c, hc⟩ := addressing_spillInto k col s
    rw [runNote, hc]
    exact h c
  | cache | deliver | clearBuffer => exact h

/-- The entries left when the notes before the next cycle have run. -/
def entriesLeft : Option (BusOp × List EngineOp) → List EngineOp
  | none => []
  | some (b, rest) => .bus b :: rest

theorem runNotes_agreesAfter {ops : List EngineOp} {s s1 : State} {r : Option (BusOp × List EngineOp)}
    (h : AgreesAfter ops (addressing s)) (hrun : runNotes ops s = (s1, r)) :
    AgreesAfter (entriesLeft r) (addressing s1) := by
  induction ops generalizing s with
  | nil => cases hrun; exact h
  | cons op ops ih =>
    cases op with
    | bus b => cases hrun; exact h
    | note n => exact ih (runNote_agreesAfter h) hrun

theorem cursorInv_of_idle {s : State} (hseq : s.seq = []) (h : Agrees (addressing s)) : CursorInv s := by
  rw [CursorInv, hseq]
  exact h

theorem leave_cursorInv {rest : List EngineOp} {s : State} (h : AgreesAfter rest (addressing s)) :
    CursorInv (leave rest s) := by
  rcases leave_cases rest s with ⟨s1, h1, hl⟩ | hl
  · refine hl ▸ cursorInv_of_idle (by simp) ?_
    rw [addressing_finish]
    exact runNotes_agreesAfter h h1
  · exact hl ▸ h

/-- The cycle of a bus operation moves the address registers as `AgreesAfter` foresees. -/
theorem busOp_agreesAfter {b : BusOp} {rest : List EngineOp} {s t : State}
    (hrun : runBusWord (busOpWord b s) s = .next t) (h : AgreesAfter (.bus b :: rest) (addressing s)) :
    AgreesAfter rest (addressing t) := by
  rw [runBusWord_addressing hrun]
  cases b with
  | wait k => rw [busOpWord, addressAfterWord_chipWord]; exact h
  | cycle w => exact h
  | merge k keep bits => rw [busOpWord, addressAfterWord_chipWord]; exact h

theorem engineStep_cursorInv {s t : State} (h : engineStep s = .next t) (hs : CursorInv s) : CursorInv t := by
  rcases engineStep_next h with ⟨s1, h1, rfl⟩ | ⟨s1, b, rest, s2, h1, h2, rfl⟩
  · refine cursorInv_of_idle (by simp) ?_
    rw [addressing_finish]
    exact runNotes_agreesAfter hs h1
  · have hrest := busOp_agreesAfter h2 (runNotes_agreesAfter hs h1)
    rcases afterBusOp_cases b rest s2 with ⟨k, -, h⟩ | h
    · exact h ▸ hrest
    · exact h ▸ leave_cursorInv hrest

/-! ### The engine keeps the context -/

theorem runNotes_host (ops : List EngineOp) (s : State) : (runNotes ops s).1.host = s.host := by
  induction ops generalizing s with
  | nil => rfl
  | cons op ops ih =>
    cases op with
    | bus b => rfl
    | note n =>
      refine (ih (runNote n s)).trans ?_
      cases n with
      | spill k col => exact spillInto_host k col s
      | cache | deliver | clearBuffer => rfl

/-- An engine step leaves the host context alone while entries are left, and else ends the operation (R81). -/
theorem engineStep_host {s t : State} (h : engineStep s = .next t) :
    (s.seq ≠ [] ∧ t.seq ≠ [] ∧ t.host = s.host) ∨ ∃ u, u.seq = [] ∧ u.host = s.host ∧ t = finish u := by
  have hnotes := runNotes_host s.seq s
  rcases engineStep_next h with ⟨s1, h1, rfl⟩ | ⟨s1, b, rest, s2, h1, h2, rfl⟩
  · rw [h1] at hnotes
    exact .inr ⟨{ s1 with seq := [] }, rfl, hnotes, rfl⟩
  · rw [h1] at hnotes
    have hhost : s2.host = s.host := (runBusWord_frame h2).1.host.trans hnotes
    have hseq : s.seq ≠ [] := fun hnil => by rw [hnil] at h1; cases h1
    rcases afterBusOp_cases b rest s2 with ⟨k, -, h⟩ | h
    · exact h ▸ .inl ⟨hseq, List.cons_ne_nil _ _, hhost⟩
    · have hrest := runNotes_host rest s2
      rw [h, leave]
      split
      · rename_i s3 h3
        rw [h3] at hrest
        exact .inr ⟨{ s3 with seq := [] }, rfl, hrest.trans hhost, rfl⟩
      · rename_i h3
        exact .inl ⟨hseq, fun hnil : rest = [] => (by rw [hnil] at h3; cases h3), hhost⟩

/-- The foreground and the button handler end an operation in the foreground (R81, R167). -/
theorem finish_ctx {s : State} (hctx : s.host.ctx = .fg ∨ s.host.ctx = .isrButton) :
    (finish s).host.ctx = .fg := by
  rcases hctx with hctx | hctx <;> simp [finish, hctx, advance, returnFromInterrupt]

theorem contextInv_of_idle {s : State} (hseq : s.seq = []) (hctx : s.host.ctx = .fg) : ContextInv s :=
  ⟨.inl hctx, fun h => absurd hseq h⟩

theorem contextInv_of_busy {s : State} (hseq : s.seq ≠ []) (hctx : s.host.ctx = .fg ∨ s.host.ctx = .isrButton)
    (hgie : s.host.gie = false) : ContextInv s :=
  ⟨hctx.imp_right fun h => ⟨h, hgie, hseq⟩, fun _ => hgie⟩

theorem ContextInv.ctx {s : State} (h : ContextInv s) : s.host.ctx = .fg ∨ s.host.ctx = .isrButton :=
  h.1.imp_right fun h => h.1

theorem engineStep_contextInv {s t : State} (h : engineStep s = .next t) (hs : ContextInv s) :
    ContextInv t := by
  rcases engineStep_host h with ⟨hbusy, hseq, hhost⟩ | ⟨u, hseq, hhost, rfl⟩
  · exact contextInv_of_busy hseq (hhost ▸ hs.ctx) (hhost ▸ hs.2 hbusy)
  · exact contextInv_of_idle (by simpa using hseq) (finish_ctx (hhost ▸ hs.ctx))

/-! ### What is issued -/

/-- What a request or a handler leaves, issued to an idle engine with the foreground running: it is complete, or
entries stand in `seq` with interrupts disabled, after which the cursor will agree with the devices if it does now
(R81, R99, R116, R168). -/
inductive Issued (s : State) : State → Prop
  | done {t : State} (haddr : addressing t = addressing s) (hseq : t.seq = []) (hctx : t.host.ctx = .fg) :
      Issued s t
  | entries {t : State} (haddr : addressing t = addressing s) (hseq : t.seq ≠ [])
      (hagrees : Agrees (addressing s) → AgreesAfter t.seq (addressing s))
      (hctx : t.host.ctx = .fg ∨ t.host.ctx = .isrButton) (hgie : t.host.gie = false) : Issued s t

theorem Issued.cursorInv {s t : State} (h : Issued s t) (hs : Agrees (addressing s)) : CursorInv t := by
  cases h with
  | done haddr hseq => exact cursorInv_of_idle hseq (haddr ▸ hs)
  | entries haddr hseq hagrees =>
    rw [CursorInv, haddr]
    exact hagrees hs

theorem Issued.contextInv {s t : State} (h : Issued s t) : ContextInv t := by
  cases h with
  | done haddr hseq hctx => exact contextInv_of_idle hseq hctx
  | entries haddr hseq hagrees hctx hgie => exact contextInv_of_busy hseq hctx hgie

/-- Entries after which the cursor agrees with the devices if it does before (R99). -/
def EntriesAgree (ops : List EngineOp) (a : Addressing) : Prop := Agrees a → AgreesAfter ops a

theorem PlanAgrees.entries {p : Plan} (hp : PlanAgrees p) (s : State) :
    EntriesAgree (p s.cache).1 (addressing s) := fun ha => by
  have h := hp (addressing s) [] ha fun a' ha' _ => ha'
  rwa [List.append_nil] at h

theorem issued_issue {s u : State} {ops : List EngineOp} (hops : EntriesAgree ops (addressing s))
    (haddr : addressing u = addressing s) (hseq : u.seq = [])
    (hctx : u.host.ctx = .fg ∨ u.host.ctx = .isrButton) (hgie : u.host.gie = false) :
    Issued s (issue ops u) := by
  cases ops with
  | nil => exact .done ((addressing_finish u).trans haddr) (by simpa [issue] using hseq) (finish_ctx hctx)
  | cons op rest => exact .entries haddr (List.cons_ne_nil _ _) hops hctx hgie

theorem issued_finish {s u : State} (haddr : addressing u = addressing s) (hseq : u.seq = [])
    (hctx : u.host.ctx = .fg) : Issued s (finish u) :=
  .done ((addressing_finish u).trans haddr) (by rw [finish_seq, hseq]) (finish_ctx (.inl hctx))

section
variable {s t : State}

/-- A guarded request that answers runs in the foreground with `gie = 0` (R116). -/
theorem guarded_foreground {f : State → Result} (hctx : s.host.ctx = .fg) (h : guarded s f = .next t) :
    s.host.gie = false ∧ f s = .next t := by
  obtain ⟨hallowed, h⟩ := guarded_next h
  exact ⟨by simpa [busAllowed, hctx] using hallowed, h⟩

variable (hseq : s.seq = []) (hctx : s.host.ctx = .fg)
include hseq hctx

/-- A guarded request that does nothing but issue entries from a state that differs in no register of the engine. -/
theorem guarded_issue_issued {ops : State → List EngineOp} {f : State → State}
    (h : guarded s (fun s => .next (issue (ops s) (f s))) = .next t)
    (hops : EntriesAgree (ops s) (addressing s)) (haddr : addressing (f s) = addressing s)
    (hf : (f s).seq = s.seq) (hhost : (f s).host = s.host) : Issued s t := by
  obtain ⟨hgie, h⟩ := guarded_foreground hctx h
  cases h
  exact issued_issue hops haddr (hf.trans hseq) (.inl (hhost ▸ hctx)) (hhost ▸ hgie)

theorem execSelectChip_issued {k : Chip} (h : execSelectChip k s = .next t) : Issued s t := by
  cases (guarded_next h).2
  exact issued_finish rfl hseq hctx

theorem execReadData_issued (h : execReadData s = .next t) : Issued s t := by
  obtain ⟨hgie, h⟩ := guarded_foreground hctx h
  split at h
  · cases h
    exact issued_finish (addressing_afterDraw s) (by simpa using hseq) (by simpa using hctx)
  · rename_i hx
    cases h
    refine issued_issue (fun ha => ?_) rfl hseq (.inl hctx) hgie
    exact agrees_read ha (Nat.lt_of_not_le hx) fun a' ha' _ => ha'

theorem execDoWriteCommand_issued {cmd : Byte} {k : Chip} {di rw : Bool}
    (h : execDoWriteCommand cmd k di rw s = .next t) : Issued s t := by
  obtain ⟨hgie, h⟩ := guarded_foreground hctx h
  split at h
  · cases h
  · split at h
    · cases h
    · rename_i hlisted
      cases h
      have hraw : PlanAgrees (rawPlan cmd k di) := .raw k fun hdi => by simpa [hdi] using hlisted
      exact issued_issue (hraw.entries s) rfl hseq (.inl hctx) hgie

theorem execSetDot_issued {x y : Byte} {color : Color} (h : execSetDot x y color s = .next t) :
    Issued s t := by
  obtain ⟨hgie, h⟩ := guarded_foreground hctx h
  split at h
  · simp only at h
    split at h
    · cases h
      exact issued_issue ((PlanAgrees.dot _ _ _ _).entries s) rfl hseq (.inl hctx) hgie
    · cases h
  · cases h; exact issued_finish rfl hseq hctx

theorem execClearPage_issued {page : Byte} {color : Color} (h : execClearPage page color s = .next t) :
    Issued s t := by
  obtain ⟨hgie, h⟩ := guarded_foreground hctx h
  split at h
  · cases h
  · cases h; exact issued_issue ((PlanAgrees.clearPage _ _ _).entries s) rfl hseq (.inl hctx) hgie

theorem execScroll_issued {delta : Byte} (h : execScroll delta s = .next t) : Issued s t := by
  obtain ⟨hgie, h⟩ := guarded_foreground hctx h
  split at h
  · cases h
  · split at h
    · cases h; exact issued_finish rfl hseq hctx
    · cases h; exact issued_issue ((PlanAgrees.dump _ _).entries s) rfl hseq (.inl hctx) hgie

theorem execDumpBuffer_issued (h : execDumpBuffer s = .next t) : Issued s t := by
  obtain ⟨hgie, h⟩ := guarded_foreground hctx h
  split at h
  · cases h; exact issued_issue ((PlanAgrees.dump _ _).entries s) rfl hseq (.inl hctx) hgie
  · cases h

theorem execToggleLowpass_issued (h : execToggleLowpass s = .next t) : Issued s t := by
  unfold execToggleLowpass at h
  split at h
  · cases h; exact .done rfl hseq hctx
  · cases h

theorem execSnapshot_issued (h : execSnapshot s = .next t) : Issued s t := by
  unfold execSnapshot at h
  split at h
  · cases h; exact .done rfl hseq hctx
  · cases h

theorem execLpmWait_issued (h : execLpmWait s = .next t) : Issued s t := by
  unfold execLpmWait at h
  split at h <;> cases h <;> exact .done rfl hseq hctx

theorem execIsrTimer_issued (h : execIsrTimer s = .next t) : Issued s t := by
  unfold execIsrTimer at h
  split at h
  · cases h; exact .done rfl hseq rfl
  · cases h; exact .done rfl hseq hctx

theorem execIsrAdc_issued (h : execIsrAdc s = .next t) : Issued s t := by
  unfold execIsrAdc at h
  split at h
  · cases h; exact .done rfl hseq rfl
  · cases h; exact .done rfl hseq hctx

/-- The button handler repaints in its own context, taken with `gie = 0` (R167, R168). -/
theorem execIsrButton_issued (h : execIsrButton s = .next t) : Issued s t := by
  unfold execIsrButton at h
  split at h
  · simp only at h
    split at h
    · cases h
      exact issued_issue (u := buttonHandler (takeInterrupt .button s)) ((PlanAgrees.dump _ _).entries s) rfl hseq
        (.inr rfl) rfl
    · cases h
  · cases h; exact .done rfl hseq hctx

/-- Whatever a program or an interrupt runs is complete, or stands in `seq` with interrupts disabled. -/
theorem exec_issued {i : Instr} (hkind : i.isRequest = true ∨ i.kind = .handler) (h : exec i s = .next t) :
    Issued s t := by
  cases i with
  | cmdDisplayOn _ | cmdDisplayOff _ | cmdSetStartLine _ | cmdSetPage _ _ | cmdSetColumn _ _
  | statusRead _ _ | dataWrite _ _ | dataRead _ _ | evConvDone _ | evTimer | evButton =>
    simp [Instr.isRequest, Instr.kind] at hkind
  | waitReady k =>
    rw [exec, execWaitReady] at h
    exact guarded_issue_issued hseq hctx h (fun ha => ha) rfl rfl rfl
  | selectChip k => exact execSelectChip_issued hseq hctx h
  | gotoXY x y =>
    rw [exec, execGotoXY] at h
    exact guarded_issue_issued hseq hctx h ((PlanAgrees.goto _ _).entries s) rfl rfl rfl
  | readData => exact execReadData_issued hseq hctx h
  | writeData d =>
    rw [exec, execWriteData] at h
    exact guarded_issue_issued hseq hctx h ((PlanAgrees.write _ _).entries s) rfl rfl rfl
  | doWriteCommand cmd k di rw => exact execDoWriteCommand_issued hseq hctx h
  | toggleLowpass => exact execToggleLowpass_issued hseq hctx h
  | snapshot => exact execSnapshot_issued hseq hctx h
  | lpmWait => exact execLpmWait_issued hseq hctx h
  | dint | eint | getStartline => cases h; exact .done rfl hseq hctx
  | init invert =>
    rw [exec, execInit] at h
    exact guarded_issue_issued hseq hctx h ((PlanAgrees.init _).entries s) rfl rfl rfl
  | setDot x y color => exact execSetDot_issued hseq hctx h
  | clearPage page color => exact execClearPage_issued hseq hctx h
  | clearScreen color =>
    rw [exec, execClearScreen] at h
    exact guarded_issue_issued hseq hctx h
      (fun ha => (PlanAgrees.clearScreen _ _) (addressing s) _ ha fun a' ha' _ => ha') rfl rfl rfl
  | clearScreenUnsafe color =>
    rw [exec, execClearScreenUnsafe] at h
    exact guarded_issue_issued hseq hctx h ((PlanAgrees.clearScreen _ _).entries s) rfl rfl rfl
  | scroll delta => exact execScroll_issued hseq hctx h
  | dumpBuffer => exact execDumpBuffer_issued hseq hctx h
  | isrTimer => exact execIsrTimer_issued hseq hctx h
  | isrAdc => exact execIsrAdc_issued hseq hctx h
  | isrButton => exact execIsrButton_issued hseq hctx h

end

/-- An environment event reaches neither the engine nor the context (R121, R122, R165). -/
theorem exec_event_frame {i : Instr} {s t : State} (hkind : i.kind = .event) (h : exec i s = .next t) :
    addressing t = addressing s ∧ t.seq = s.seq ∧ t.host.ctx = s.host.ctx ∧ t.host.gie = s.host.gie := by
  cases i with
  | evConvDone raw =>
    rw [exec, execEvConvDone] at h
    split at h
    · cases h
    · split at h <;> cases h <;> exact ⟨rfl, rfl, rfl, rfl⟩
  | evTimer | evButton => cases h; exact ⟨rfl, rfl, rfl, rfl⟩
  | _ => cases hkind

/-- Settles O52: an engine step moves the address registers as `AgreesAfter` foresees, and every plan that is issued
ends with the cursor in agreement. -/
theorem cursorAgreementIsKept : Obligations.CursorAgreementIsKept := by
  intro s t hs h
  refine step_keeps (I := CursorInv) (fun _ hs => hs) (fun _ _ _ hs => hs) (fun _ _ => engineStep_cursorInv)
    (fun i u v hkind hseq hctx h hu => ?_) (fun i u v hkind h hu => ?_) h hs
  · rw [CursorInv, hseq] at hu
    exact (exec_issued hseq hctx hkind h).cursorInv hu
  · obtain ⟨haddr, hseq, -, -⟩ := exec_event_frame hkind h
    rwa [CursorInv, haddr, hseq]

/-- Settles O57: what is issued stands in `seq` with `gie = 0`, in the foreground or the button handler; an engine
step leaves the context alone until the operation ends. -/
theorem engineOperationsExcludeHandlers : Obligations.EngineOperationsExcludeHandlers := by
  intro s t hs h
  refine step_keeps (I := ContextInv) (fun _ hs => hs) (fun u hseq _ _ => contextInv_of_idle hseq rfl)
    (fun _ _ => engineStep_contextInv) (fun i u v hkind hseq hctx h _ => ?_) (fun i u v hkind h hu => ?_) h hs
  · exact (exec_issued hseq hctx hkind h).contextInv
  · obtain ⟨-, hseq, hctx, hgie⟩ := exec_event_frame hkind h
    rwa [ContextInv, hctx, hgie, hseq]

end Sys2Proof.Machine
end

-- Proofs: requests that issue no cycle (O12, O14, O16, O23, O24)
section

namespace Sys2Proof.Machine

/-- The foreground's request is complete: `pc` moves on (R81). -/
theorem finish_foreground {s : State} (hctx : s.host.ctx = .fg) : finish s = advance s := by
  simp [finish, hctx]

/-- Settles O12: behind the guard, the lines and `pc`. -/
theorem selectChipDrivesTheLines : Obligations.SelectChipDrivesTheLines := by
  intro k s hfree
  rw [exec, execSelectChip, guarded_of_free hfree, finish_foreground (s := selectLines k s) hfree.2.1]
  rfl

/-- Settles O16: behind the guard, one drawn byte and the reply. -/
theorem readDataPastTheLastColumn : Obligations.ReadDataPastTheLastColumn := by
  intro s hfree hx
  obtain ⟨hseq, hctx, -⟩ := id hfree
  let t := { afterDraw s with env := { (afterDraw s).env with reply := some (.byte (drawnByte s)) } }
  have hrun : exec .readData s = .next (advance t) := by
    rw [exec, execReadData, guarded_of_free hfree, if_pos hx, ← finish_foreground (s := t) (by simpa [t] using hctx)]
  exact ⟨advance t, hrun, rfl, by simpa [t] using hseq, by simp [t, EngineFrame, advance], by simp [t], by simp [t],
    by simp [t], by simp [t], by simp [t], by simp [t]⟩

theorem gotoPlan_outside {x y : Nat} (h : Config.width ≤ x ∨ Config.height ≤ y) (c : Cache) :
    gotoPlan x y c = ([], c) := if_pos h

theorem writePlan_outside {c : Cache} (h : Config.width ≤ c.x.toNat) (inv : Bool) (d : Byte) :
    writePlan inv d c = ([], c) := if_pos h

theorem dotInBounds_eq_false {x y : Nat}
    (h : x = 0 ∨ Config.width ≤ x ∨ y = 0 ∨ Config.height ≤ y) : dotInBounds x y = false := by
  simp only [dotInBounds, Bool.and_eq_false_iff, decide_eq_false_iff_not]
  omega

theorem scrolledTo_eq_none {v delta : Byte}
    (h : (v.toNat : Int) + signedDelta delta < 0 ∨ (v.toNat : Int) + signedDelta delta > Config.startlineMax) :
    scrolledTo v delta = none := if_pos h

/-- A scroll by 8 rows past a bound is a no-op (R151). -/
theorem exec_scroll_past {s : State} {delta : Byte} (hfree : EngineFree s)
    (hdelta : signedDelta delta = 8 ∨ signedDelta delta = -8)
    (h : (s.client.startline.toNat : Int) + signedDelta delta < 0
      ∨ (s.client.startline.toNat : Int) + signedDelta delta > Config.startlineMax) :
    exec (.scroll delta) s = .next (finish s) := by
  rw [exec, execScroll, guarded_of_free hfree, if_neg (by omega), scrolledTo_eq_none h]

/-- Settles O14: out of range a plan is empty, and an empty plan moves `pc` on and does nothing else. -/
theorem outOfRangeRequestsDoNothing : Obligations.OutOfRangeRequestsDoNothing := by
  intro s hfree done
  have hdone : .next (finish s) = done := by rw [finish_foreground hfree.2.1]; rfl
  refine ⟨fun x y h => ?_, fun d h => ?_, fun x y color h => ?_, fun h => ?_, fun h => ?_⟩
  · rw [exec, execGotoXY, guarded_of_free hfree, gotoPlan_outside h]
    exact hdone
  · rw [exec, execWriteData, guarded_of_free hfree, writePlan_outside h]
    exact hdone
  · rw [exec, execSetDot, guarded_of_free hfree, dotInBounds_eq_false h]
    exact hdone
  · have hdelta : signedDelta 8 = 8 := by decide
    refine (exec_scroll_past hfree (.inl hdelta) (.inr ?_)).trans hdone
    simp only [hdelta, Config.startlineMax, Config.screens]
    omega
  · have hdelta : signedDelta 0xF8 = -8 := by decide
    refine (exec_scroll_past hfree (.inr hdelta) (.inl ?_)).trans hdone
    omega

/-- Settles O23: each meaning looks at its operand before it issues anything. -/
theorem operandsWithNoMeaningAreRefused : Obligations.OperandsWithNoMeaningAreRefused := by
  refine fun s hfree => ⟨fun cmd k di => ?_, fun cmd k hlisted => ?_, fun page color hpage => ?_,
    fun delta h8 hm8 => ?_⟩
  · rw [exec, execDoWriteCommand, guarded_of_free hfree, if_pos rfl]
  · rw [exec, execDoWriteCommand, guarded_of_free hfree, if_neg (by simp), if_pos (by simp [hlisted])]
  · rw [exec, execClearPage, guarded_of_free hfree, if_pos hpage]
  · rw [exec, execScroll, guarded_of_free hfree, if_pos ⟨h8, hm8⟩]

theorem guarded_eq_fault {s : State} (h : busAllowed s = false) (f : State → Result) :
    guarded s f = .fault .busWithInterruptsEnabled := by
  simp [guarded, h]

/-- An engine request, and a client request but the accessor of R156, stands behind the context guard (R116). -/
theorem exec_eq_fault {i : Instr} {s : State} (h : busAllowed s = false)
    (hkind : i.kind = .engine ∨ (i.kind = .client ∧ i ≠ .getStartline)) :
    exec i s = .fault .busWithInterruptsEnabled := by
  cases i with
  | waitReady _ | selectChip _ | gotoXY _ _ | readData | writeData _ | doWriteCommand _ _ _ _ =>
    simp only [exec, execWaitReady, execSelectChip, execGotoXY, execReadData, execWriteData, execDoWriteCommand,
      guarded_eq_fault h]
  | init _ | setDot _ _ _ | clearPage _ _ | clearScreen _ | clearScreenUnsafe _ | scroll _ | dumpBuffer =>
    simp only [exec, execInit, execSetDot, execClearPage, execClearScreen, execClearScreenUnsafe, execScroll,
      execDumpBuffer, guarded_eq_fault h]
  | _ => simp [Instr.kind] at hkind

/-- Where the guard lets nothing pass (R116). -/
theorem busAllowed_eq_false {s : State} (h : ¬(s.host.ctx = .fg ∧ s.host.gie = false))
    (hctx : s.host.ctx ≠ .isrButton) : busAllowed s = false := by
  unfold busAllowed
  cases hc : s.host.ctx with
  | fg => simpa [hc] using h
  | isrTimer | isrAdc => rfl
  | isrButton => exact absurd hc hctx

/-- Settles O24: the guard comes first, and it lets only the foreground with `gie = 0` and the button handler
pass. -/
theorem busRequestsNeedInterruptsDisabled : Obligations.BusRequestsNeedInterruptsDisabled := by
  intro i s hkind
  have hfault : ¬(s.host.ctx = .fg ∧ s.host.gie = false) → s.host.ctx ≠ .isrButton →
      exec i s = .fault .busWithInterruptsEnabled := fun h hctx =>
    exec_eq_fault (busAllowed_eq_false h hctx) hkind
  refine ⟨fun hctx hgie => hfault (by simp [hgie]) (by simp [hctx]), fun h hctx t ht => ?_⟩
  rw [hfault h hctx] at ht
  cases ht

end Sys2Proof.Machine
end

-- Proofs: the busy wait (O11)
section
/-! SUPPORT. One poll of a wait, and the polls up to the first ready answer (R88, R93). -/

namespace Sys2Proof.Machine

/-- The state after one status read of a wait on chip `k` (R82, R88). -/
def pollState (k : Chip) (s : State) : State := statusCycle k (driveLines false true 0 (selectLines k s))

/-- What polls of chip `k` leave of a state: everything but the lines, the drawn bytes, the status byte and what is
known of the chip's readiness (R88, R93). -/
structure Polled (k : Chip) (s t : State) : Prop where
  frame : BusFrame s t
  dev : ∀ j, SameDevice (s.dev j) (t.dev j)
  lines : t.lines = { readLines s false with cs := Config.csEncode k }

theorem SameDevice.trans {d e f : Device} (h : SameDevice d e) (g : SameDevice e f) : SameDevice d f := by
  obtain ⟨h1, h2, h3, h4, h5, h6⟩ := h
  obtain ⟨g1, g2, g3, g4, g5, g6⟩ := g
  exact ⟨g1.trans h1, g2.trans h2, g3.trans h3, g4.trans h4, g5.trans h5, g6.trans h6⟩

theorem Polled.trans {k : Chip} {s t u : State} (h : Polled k s t) (g : Polled k t u) : Polled k s u := by
  refine ⟨h.frame.trans g.frame, fun j => (h.dev j).trans (g.dev j), ?_⟩
  rw [g.lines, readLines, h.lines]
  rfl

theorem pollState_polled (k : Chip) (s : State) : Polled k s (pollState k s) := by
  refine ⟨((driveSelect_frame ..).trans (driveLines_frame ..)).trans (statusCycle_frame ..), fun j => ?_, ?_⟩
  · by_cases hj : j = k
    · subst hj
      rw [pollState, statusCycle_dev_same, driveLines_dev, selectLines_dev]
      exact ⟨rfl, rfl, rfl, rfl, rfl, rfl⟩
    · rw [pollState, statusCycle_dev_other hj, driveLines_dev, selectLines_dev]
      exact ⟨rfl, rfl, rfl, rfl, rfl, rfl⟩
  · rw [pollState, statusCycle_lines]
    rfl

/-- The answer is busy when the chip is not known to be ready and a busy bit is drawn (R88). -/
theorem pollState_answer (k : Chip) (s : State) :
    (pollState k s).statusIn.msb = ((drawnByte s).msb && !(s.dev k).ready) := by
  refine (statusByte_msb _ _).trans ?_
  rw [driveLines_dev, selectLines_dev]
  rfl

theorem pollState_draws (k : Chip) (s : State) : (pollState k s).env.draws = s.env.draws.tail := by
  simp [pollState, statusCycle]

/-- An engine step with a wait at the head of `seq` is one poll (R81, R93). -/
theorem engineStep_wait {k : Chip} {rest : List EngineOp} {s : State} (hseq : s.seq = .bus (.wait k) :: rest) :
    engineStep s = .next (afterBusOp (.wait k) rest (pollState k s)) := by
  rw [engineStep_bus hseq, busOpWord, runBusWord_chipWord _ _ _ _ _ (by simp)]
  rfl

/-- A poll answered busy leaves the wait where it was (R93). -/
theorem engineStep_wait_busy {k : Chip} {rest : List EngineOp} {s : State} (hseq : s.seq = .bus (.wait k) :: rest)
    (hbusy : (pollState k s).statusIn.msb = true) : engineStep s = .next (pollState k s) := by
  rw [engineStep_wait hseq, afterBusOp, if_pos hbusy, ← hseq, ← (pollState_polled k s).frame.seq]

/-- A poll answered ready ends the wait (R93). -/
theorem engineStep_wait_ready {k : Chip} {s : State} (hseq : s.seq = [waitOp k])
    (hready : (pollState k s).statusIn.msb = false) :
    engineStep s = .next (finish { pollState k s with seq := [] }) := by
  rw [engineStep_wait hseq, afterBusOp, if_neg (by simp [hready])]
  rfl

/-- With a ready answer to come, polls go on up to it, and the wait ends (R93). -/
theorem wait_completes {k : Chip} (l : List Byte) :
    ∀ {s : State}, s.seq = [waitOp k] → s.env.draws = l →
      ((s.dev k).ready = true ∨ ∃ b ∈ l, b.msb = false) →
      ∃ n u, engineRun n s = .next (finish { u with seq := [] }) ∧ Polled k s u := by
  induction l with
  | nil =>
    intro s hseq _ hready
    have hready : (s.dev k).ready = true := by simpa using hready
    exact ⟨1, _, by rw [engineRun, engineStep_wait_ready hseq (by simp [pollState_answer, hready])]; rfl,
      pollState_polled k s⟩
  | cons b l ih =>
    intro s hseq hdraws hready
    cases hanswer : (pollState k s).statusIn.msb with
    | false =>
      exact ⟨1, _, by rw [engineRun, engineStep_wait_ready hseq hanswer]; rfl, pollState_polled k s⟩
    | true =>
      have hpoll := pollState_polled k s
      rw [pollState_answer, drawnByte, hdraws] at hanswer
      obtain ⟨hb, hnot⟩ : b.msb = true ∧ (s.dev k).ready = false := by simpa using hanswer
      obtain ⟨n, u, hrun, hu⟩ := ih (s := pollState k s) (hpoll.frame.seq.trans hseq)
        (by rw [pollState_draws, hdraws, List.tail_cons]) (.inr (by simpa [hb, hnot] using hready))
      refine ⟨n + 1, u, ?_, hpoll.trans hu⟩
      rw [engineRun, engineStep_wait_busy hseq (by rw [pollState_answer, drawnByte, hdraws]; exact hanswer),
        onNext_next, hrun]

/-- Settles O11: polls change nothing but the lines, and go on up to the first ready answer; a busy one leaves the
wait at the head of `seq`. -/
theorem waitReadyPollsUntilReady : Obligations.WaitReadyPollsUntilReady := by
  refine ⟨fun k s hfree hready => ?_, fun k rest s hseq hbusy => ?_⟩
  · let t : State := { s with seq := [waitOp k] }
    have hexec : exec (.waitReady k) s = .next t := by
      rw [exec, execWaitReady, guarded_of_free hfree]
      rfl
    obtain ⟨n, u, hrun, hframe, hdev, hlines⟩ := wait_completes (s := t) s.env.draws rfl rfl hready
    have houter : OuterFrame s u := OuterFrame.trans (t := t) ⟨rfl, rfl, rfl, rfl⟩ hframe.outer
    refine ⟨t, hexec, n, _, hrun, by simp, houter.engineFrame hfree.2.1, ⟨?_, ?_, ?_⟩, ?_, ?_, ?_, ?_⟩
    · simpa using hframe.client
    · simpa using hframe.invert
    · simpa using hframe.reply
    · simpa using hframe.cache
    · rw [finish_dev0]; exact hdev .zero
    · rw [finish_dev1]; exact hdev .one
    · rw [finish_lines]; exact hlines
  · obtain ⟨hready, hdraw⟩ := not_or.mp hbusy
    have hanswer : (pollState k s).statusIn.msb = true := by
      rw [pollState_answer, eq_true_of_ne_false hdraw, eq_false_of_ne_true hready]
      rfl
    obtain ⟨hframe, hdev, -⟩ := pollState_polled k s
    exact ⟨_, engineStep_wait_busy hseq hanswer, hframe.seq, hframe.cache, hframe.host, hframe.client, hframe.touch,
      hdev .zero, hdev .one⟩

end Sys2Proof.Machine
end

-- Proofs: `gotoXY` and raw cycles (O13, O21, O22)
section
/-! SUPPORT. The view after `gotoXY`, whether the devices agree with the cursor before it or not (R96, R98), and after
a raw cycle (R111, R112). -/

namespace Sys2Proof.Machine

/-! ### Issuing -/

theorem issue_of_ne_nil {ops : List EngineOp} (h : ops ≠ []) (s : State) : issue ops s = { s with seq := ops } := by
  cases ops with
  | nil => exact absurd rfl h
  | cons op rest => rfl

theorem ne_nil_of_busOpCount {ops : List EngineOp} (h : busOpCount ops ≠ 0) : ops ≠ [] := by
  rintro rfl
  exact h rfl

/-- What the view keeps, in the terms of the obligations. -/
theorem ViewFrame.clientFrame {s u : State} {v : View} (hframe : ViewFrame (viewOf s) v) (h : viewOf u = v) :
    ClientFrame s u := by
  subst h
  exact ⟨hframe.client, hframe.invert, hframe.reply⟩

/-! ### `gotoXY` -/

/-- The page a chip is at once the page commands of `gotoXY` have run (R96, R98). -/
def pageAfter (p : BitVec 3) (c : Cache) (old : BitVec 3) : BitVec 3 :=
  if p ≠ c.page ∨ c.pageStale = true then p else old

theorem opsEffect_pageCommands {p : BitVec 3} {v : View} (hb : v.Bare) :
    opsEffect (pageCommands p v.cache) v
      = { v with
          dev0 := { v.dev0 with page := pageAfter p v.cache v.dev0.page }
          dev1 := { v.dev1 with page := pageAfter p v.cache v.dev1.page } } := by
  obtain ⟨h0, h1⟩ := hb
  unfold pageCommands pageAfter
  split
  · rw [opsEffect_append, opsEffect_setPage, opsEffect_setPage]
    simp [View.setDev, View.dev, h0, h1]
  · rfl

section
variable {x y : Nat} (hx : x < Config.width) (hy : y < Config.height)
include hx hy

theorem gotoPlan_inside (c : Cache) :
    (gotoPlan x y c).1
      = pageCommands (pageOf y) c ++ .note (.cache (cacheAt x y c))
        :: (writeCommand (setColumnByte (colOf x)) (chipOf x) ++ [.note (.cache (cacheHomed x y c))]) := by
  rw [gotoPlan, if_neg (by omega)]
  simp

/-- `gotoXY` in range brings the cursor to its operands, and the devices where it says they are (R96, R98). -/
theorem goto_effect {v : View} (hb : v.Bare) :
    ViewFrame v (opsEffect (gotoPlan x y v.cache).1 v)
      ∧ (opsEffect (gotoPlan x y v.cache).1 v).cache = cacheHomed x y v.cache
      ∧ ∀ j, (opsEffect (gotoPlan x y v.cache).1 v).dev j
          = { v.dev j with
              page := pageAfter (pageOf y) v.cache (v.dev j).page
              col := if j = chipOf x then colOf x else (v.dev j).col } := by
  obtain ⟨h0, h1⟩ := id hb
  rw [gotoPlan_inside hx hy]
  simp only [opsEffect_append, opsEffect_pageCommands hb, opsEffect_cacheNote, opsEffect_setColumn, opsEffect_nil]
  generalize chipOf x = k
  refine ⟨?_, trivial, fun j => ?_⟩
  · cases k <;> exact ⟨rfl, rfl, rfl⟩
  · cases k <;> cases j <;> simp [View.setDev, View.dev, h0, h1]

theorem goto_plain (c : Cache) :
    plainOps (gotoPlan x y c).1 = true ∧ waitCount (gotoPlan x y c).1 ≤ 3 ∧ busOpCount (gotoPlan x y c).1 ≠ 0 := by
  obtain ⟨hplain, hwaits, -⟩ := plain_goto x y c
  refine ⟨hplain, hwaits, ?_⟩
  rw [gotoPlan_inside hx hy]
  simp [busOpCount_append, busOpCount, writeCommand, waitedCycle, waitOp, cycleOp]

/-- The cycles of `gotoXY`: the page commands, where they are needed, and the column command (R96). -/
theorem goto_cycleTrace (c : Cache) :
    cycleTrace (gotoPlan x y c).1
      = (if pageOf y ≠ c.page ∨ c.pageStale = true then
          [some (chipWord .zero false false (setPageByte (pageOf y))),
            some (chipWord .one false false (setPageByte (pageOf y)))]
        else [])
        ++ [some (chipWord (chipOf x) false false (setColumnByte (colOf x)))] := by
  rw [gotoPlan_inside hx hy, cycleTrace_append, pageCommands]
  congr 1
  split <;> rfl

end

theorem exec_gotoXY {x y : Byte} {s : State} (hfree : EngineFree s) :
    exec (.gotoXY x y) s = .next (issue (gotoPlan x.toNat y.toNat s.cache).1 s) := by
  rw [exec, execGotoXY, guarded_of_free hfree]

/-- Settles O13: the run of `gotoXY` has the effect of its page and column commands. -/
theorem gotoXYAddressesTheCursor : Obligations.GotoXYAddressesTheCursor := by
  intro x y s hfree hchips hx hy p k paged
  obtain ⟨hplain, hwaits, hbus⟩ := goto_plain hx hy s.cache
  refine ⟨_, exec_gotoXY hfree, ?_, runsTo_issue_view hfree hchips hbus hplain (PlanWaited.goto _ _ _) (by omega)
    fun u hframe hview => ?_⟩
  · rw [issue_of_ne_nil (ne_nil_of_busOpCount hbus)]
    simp only [paged, decide_eq_true_eq]
    exact goto_cycleTrace hx hy s.cache
  · obtain ⟨hkeep, hcache, hdev⟩ := goto_effect hx hy (viewOf_bare s)
    have hsame := fun j => hdev j ▸ sameDevice_of_view hview j
    simp only [SameDevice, forall_and, viewOf_dev] at hsame
    obtain ⟨hram, hpage, hcol, hon, hstart, hlatch⟩ := hsame
    refine ⟨hframe, hkeep.clientFrame hview, ?_, (hpage .zero).trans ?_, (hpage .one).trans ?_, hcol,
      ⟨hon .zero, hstart .zero, hlatch .zero⟩, ⟨hon .one, hstart .one, hlatch .one⟩, fun j p c => ?_⟩
    · refine (congrArg View.cache hview).trans (hcache.trans ?_)
      rw [cacheHomed, cacheAt, BitVec.ofNat_toNat, BitVec.ofNat_toNat, BitVec.setWidth_eq]
    · simp only [paged, decide_eq_true_eq]; rfl
    · simp only [paged, decide_eq_true_eq]; rfl
    · rw [ramByte, hram]; rfl

/-! ### Raw cycles -/

/-- The view after a raw cycle: what the cycle does, and the flags it marks (R111, R112). -/
theorem raw_effect (cmd : Byte) (k : Chip) (di : Bool) (v : View) :
    opsEffect (rawPlan cmd k di v.cache).1 v
      = { chipEffect k di false cmd v with cache := staleAfterRaw di cmd v.cache } := by
  simp only [rawPlan, planThen, planOps, planCache, opsEffect_append, opsEffect_waitedCycle, opsEffect_cacheNote,
    opsEffect_nil]

theorem raw_plain (cmd : Byte) (k : Chip) (di : Bool) (c : Cache) :
    plainOps (rawPlan cmd k di c).1 = true ∧ waitCount (rawPlan cmd k di c).1 ≤ 1
      ∧ busOpCount (rawPlan cmd k di c).1 ≠ 0 := by
  refine ⟨?_, ?_, ?_⟩
  · simp [rawPlan, planThen, planOps, planCache, plainOps_append, plainOps_waitedCycle, plainOps, Note.plain]
  · simp [rawPlan, planThen, planOps, planCache, waitCount_append, waitCount_waitedCycle, waitCount]
  · simp [rawPlan, planThen, planOps, planCache, waitedCycle, waitOp, cycleOp, busOpCount]

theorem cycleDevice_bare (di rw : Bool) (d : Byte) (dev : Device) :
    cycleDevice di rw d dev.bare = (cycleDevice di rw d dev).map Device.bare := by
  cases di <;> cases rw
  · exact deviceCommand_bare dev d
  all_goals rfl

theorem chipEffect_of_cycleDevice {k : Chip} {di : Bool} {d : Byte} {v : View} {e : Device}
    (he : cycleDevice di false d (v.dev k) = some e) : chipEffect k di false d v = v.setDev k e := by
  cases di
  · simp only [cycleDevice] at he
    simp only [chipEffect, he]
  · cases he
    rfl

@[simp] theorem View.withCache_dev (v : View) (c : Cache) (j : Chip) : ({ v with cache := c } : View).dev j = v.dev j := by
  cases j <;> rfl

theorem View.setDev_frame (v : View) (k : Chip) (d : Device) : ViewFrame v (v.setDev k d) :=
  ⟨v.setDev_invert k d, v.setDev_client k d, v.setDev_reply k d⟩

theorem ViewFrame.withCache {v w : View} (h : ViewFrame v w) (c : Cache) : ViewFrame v { w with cache := c } :=
  ⟨h.invert, h.client, h.reply⟩

/-- A raw data byte, or a raw command byte of the table, runs as one cycle and marks its flags, and does nothing
else (R111, R112). -/
theorem raw_runs {cmd : Byte} {k : Chip} {di : Bool} {s : State} {e : Device} (hfree : EngineFree s)
    (hchips : ChipsAnswer s) (hlisted : di = false → commandListed cmd = true)
    (he : cycleDevice di false cmd (s.dev k) = some e) :
    ∃ t, exec (.doWriteCommand cmd k di false) s = .next t ∧ RunsTo t fun u =>
      EngineFrame s u ∧ ClientFrame s u ∧ u.cache = staleAfterRaw di cmd s.cache ∧ SameDevice e (u.dev k)
        ∧ ∀ j, j ≠ k → SameDevice (s.dev j) (u.dev j) := by
  obtain ⟨hplain, hwaits, hbus⟩ := raw_plain cmd k di s.cache
  refine ⟨_, ?_, runsTo_issue_view hfree hchips hbus hplain (PlanWaited.raw k hlisted _) (by omega)
    fun u hframe hview => ?_⟩
  · rw [exec, execDoWriteCommand, guarded_of_free hfree, if_neg (by simp), if_neg]
    cases di <;> simp [hlisted]
  · have hbare : cycleDevice di false cmd ((viewOf s).dev k) = some e.bare := by
      rw [viewOf_dev, cycleDevice_bare, he, Option.map_some]
    replace hview := hview.trans (raw_effect cmd k di (viewOf s))
    rw [chipEffect_of_cycleDevice hbare] at hview
    have hdev := sameDevice_of_view hview
    simp only [View.withCache_dev] at hdev
    refine ⟨hframe, ((View.setDev_frame ..).withCache _).clientFrame hview, congrArg View.cache hview, ?_,
      fun j hj => ?_⟩
    · have h := hdev k
      rwa [View.setDev_dev_same] at h
    · have h := hdev j
      rwa [View.setDev_dev_other _ _ hj, viewOf_dev] at h

theorem RunsTo.imp {t : State} {P Q : State → Prop} (h : RunsTo t P) (hPQ : ∀ u, P u → Q u) : RunsTo t Q := by
  obtain ⟨n, u, hrun, hseq, hu⟩ := h
  exact ⟨n, u, hrun, hseq, hPQ u hu⟩

theorem SameDevice.ramByte_eq {s u : State} {k : Chip} (h : SameDevice (s.dev k) (u.dev k)) (p : BitVec 3)
    (c : BitVec 6) : ramByte u k p c = ramByte s k p c := by
  rw [ramByte, h.1]
  rfl

/-- Settles O21: the byte goes to the chip's own address, and the column is marked stale. -/
theorem rawDataByteBypassesTheCursor : Obligations.RawDataByteBypassesTheCursor := by
  intro cmd k s hfree hchips hm
  obtain ⟨t, hexec, hruns⟩ := raw_runs (cmd := cmd) (k := k) (di := true) hfree hchips (by simp) rfl
  refine ⟨t, hexec, hruns.imp fun u ⟨hframe, hclient, hcache, hk, hother⟩ => ?_⟩
  obtain ⟨hram, hpage, hcol, hon, hstart, hlatch⟩ := hk
  refine ⟨hframe, hclient, hcache, hother, hpage, hcol, ⟨hon, hstart, hlatch⟩, fun j p c => ?_⟩
  by_cases hj : j = k
  · obtain ⟨hwf, -⟩ := ((memoryInv_iff s).mp hm).1 k
    rw [hj, ramByte, hram, read_deviceDataWrite hwf]
    simp only [true_and]
    rfl
  · rw [if_neg fun h => hj h.1]
    exact (hother j hj).ramByte_eq p c

theorem staleAfterRaw_setPage (p : BitVec 3) (c : Cache) :
    staleAfterRaw false (setPageByte p) c = { c with pageStale := true } := by
  have key : ∀ p : BitVec 3, (setPageByte p).extractLsb' 3 5 = 0b10111#5 := by decide
  simp [staleAfterRaw, key]

theorem staleAfterRaw_setColumn (col : BitVec 6) (c : Cache) :
    staleAfterRaw false (setColumnByte col) c = { c with colStale := true } := by
  have key : ∀ c : BitVec 6, (setColumnByte c).extractLsb' 3 5 ≠ 0b10111#5
      ∧ (setColumnByte c).extractLsb' 6 2 = 0b01#2 := by decide
  simp [staleAfterRaw, key]

/-- Settles O22: each listed command byte names its register and the flag it marks. -/
theorem rawCommandMarksWhatItMoves : Obligations.RawCommandMarksWhatItMoves := by
  intro k s hfree hchips
  have command {cmd : Byte} {e : Device} (hlisted : commandListed cmd = true)
      (he : deviceCommand (s.dev k) cmd = some e) :=
    raw_runs (di := false) hfree hchips (fun _ => hlisted) he
  refine ⟨fun page => ?_, fun col => ?_, fun cmd hcmd => ?_⟩
  · rw [← staleAfterRaw_setPage page s.cache]
    exact (command (commandListed_setPage page) (deviceCommand_setPage _ page) :)
  · rw [← staleAfterRaw_setColumn col s.cache]
    exact (command (commandListed_setColumn col) (deviceCommand_setColumn _ col) :)
  · rcases hcmd with rfl | rfl | rfl
    · exact (command (cmd := 0x3E) rfl rfl :)
    · exact (command (cmd := 0x3F) rfl rfl :)
    · exact (command (cmd := 0xC0) rfl rfl :)

end Sys2Proof.Machine
end

-- Proofs: what no addressing and no data write touches, and `clearPage` (O44)
section
/-! SUPPORT. The registers of a device that a plan leaves alone: a reading of a device that is the same after a page
command, a column command and a data write is the same after every plan of aligned writes, and, if a data read keeps
it too, after every plan of the engine requests (R84 to R86). -/

namespace Sys2Proof.Machine

/-! ### Readings of a device -/

/-- A reading of a device that neither addressing nor a data write changes. -/
structure WriteProof {α : Type} (f : Device → α) : Prop where
  page : ∀ d p, f { d with page := p, ready := false } = f d
  col : ∀ d c, f { d with col := c, ready := false } = f d
  write : ∀ d b, f (deviceDataWrite d b) = f d

/-- The power and start-line registers and the latch (R21 to R25). -/
def Device.quiet (d : Device) : Bool × BitVec 6 × Byte := (d.on, d.start, d.latch)

/-- The power and start-line registers. -/
def Device.power (d : Device) : Bool × BitVec 6 := (d.on, d.start)

theorem writeProof_quiet : WriteProof Device.quiet := ⟨fun _ _ => rfl, fun _ _ => rfl, fun _ _ => rfl⟩

theorem writeProof_power : WriteProof Device.power := ⟨fun _ _ => rfl, fun _ _ => rfl, fun _ _ => rfl⟩

theorem power_deviceDataRead (d : Device) : (deviceDataRead d).power = d.power := rfl

theorem deviceFrame_iff {d e : Device} : DeviceFrame d e ↔ e.quiet = d.quiet := by
  simp [DeviceFrame, Device.quiet]

/-- Entries that keep a reading of every device. -/
def Keeps {α : Type} (f : Device → α) (ops : List EngineOp) : Prop :=
  ∀ v j, f ((opsEffect ops v).dev j) = f (v.dev j)

section
variable {α : Type} {f : Device → α}

theorem Keeps.nil : Keeps f [] := fun _ _ => rfl

theorem Keeps.append {p q : List EngineOp} (hp : Keeps f p) (hq : Keeps f q) : Keeps f (p ++ q) := fun v j => by
  rw [opsEffect_append, hq, hp]

theorem Keeps.cacheNote (c : Cache) : Keeps f [.note (.cache c)] := fun v j =>
  congrArg f (View.withCache_dev v c j)

/-- A chip replaced by one of the same reading. -/
theorem keeps_setDev {v : View} {k : Chip} {d : Device} (hd : f d = f (v.dev k)) (j : Chip) :
    f ((v.setDev k d).dev j) = f (v.dev j) := by
  by_cases hj : j = k
  · rw [hj, View.setDev_dev_same, hd]
  · rw [View.setDev_dev_other _ _ hj]

theorem Keeps.setPage (hf : WriteProof f) (k : Chip) (p : BitVec 3) : Keeps f (writeCommand (setPageByte p) k) :=
  fun v j => by
    rw [opsEffect_setPage]
    exact keeps_setDev (hf.page _ p) j

theorem Keeps.setColumn (hf : WriteProof f) (k : Chip) (c : BitVec 6) :
    Keeps f (writeCommand (setColumnByte c) k) := fun v j => by
  rw [opsEffect_setColumn]
  exact keeps_setDev (hf.col _ c) j

theorem Keeps.write (hf : WriteProof f) (k : Chip) (b : Byte) : Keeps f (waitedCycle k true false b) := fun v j => by
  rw [opsEffect_waitedCycle]
  exact keeps_setDev (hf.write _ b) j

theorem Keeps.merge (hf : WriteProof f) (k : Chip) (keep bits : Byte) :
    Keeps f [waitOp k, .bus (.merge k keep bits)] := fun _ j => keeps_setDev (hf.write _ _) j

theorem Keeps.read (hread : ∀ d, f (deviceDataRead d) = f d) (k : Chip) (b : Byte) :
    Keeps f (waitedCycle k true true b) := fun v j => by
  have hset := keeps_setDev (v := v) (k := k) (hread (v.dev k)) j
  rw [opsEffect_waitedCycle]
  cases j <;> exact hset

theorem Keeps.goto (hf : WriteProof f) (x y : Nat) (c : Cache) : Keeps f (gotoPlan x y c).1 := by
  unfold gotoPlan
  split
  · exact .nil
  · refine ((Keeps.append ?_ (.cacheNote _)).append (.setColumn hf _ _)).append (.cacheNote _)
    unfold pageCommands
    split
    · exact (Keeps.setPage hf _ _).append (.setPage hf _ _)
    · exact .nil

theorem Keeps.rehome (hf : WriteProof f) (c : Cache) : Keeps f (rehomePlan c).1 := by
  unfold rehomePlan
  split
  · exact .goto hf _ _ c
  · exact .nil

/-- An aligned write keeps the reading, and the cursor's row (R104). -/
theorem keeps_write_aligned (hf : WriteProof f) {inv : Bool} {d : Byte} {c : Cache} (ho : yoff c.y.toNat = 0) :
    Keeps f (writePlan inv d c).1 ∧ (writePlan inv d c).2.y = c.y := by
  unfold writePlan
  split
  · exact ⟨.nil, rfl⟩
  · exact ⟨(Keeps.rehome hf c).append ((Keeps.write hf _ _).append (.cacheNote _)), (rehome_keeps_cursor c).2⟩

theorem keeps_row (hf : WriteProof f) {inv : Bool} (l : List Byte) {c : Cache} (ho : yoff c.y.toNat = 0) :
    Keeps f (planEach (writePlan inv) l c).1 := by
  induction l generalizing c with
  | nil => exact .nil
  | cons d l ih =>
    obtain ⟨hwrite, hy⟩ := keeps_write_aligned hf (inv := inv) (d := d) ho
    exact hwrite.append (ih (by rw [hy]; exact ho))

theorem keeps_page (hf : WriteProof f) {inv : Bool} {page : Nat} (hp : page < Config.npages) (l : List Byte)
    (c : Cache) : Keeps f (pagePlan inv page l c).1 := by
  simp only [Config.npages] at hp
  have hy : 8 * page < Config.height := by simp only [Config.height]; omega
  refine (Keeps.goto hf 0 (8 * page) c).append (keeps_row hf l ?_)
  rw [goto_cache (by decide) hy]
  show (BitVec.ofNat 6 (8 * page)).toNat % 8 = 0
  rw [toNat_ofNat6 hy]
  omega

end

/-! ### `clearPage` -/

theorem onBus_onBus (inv : Bool) (b : Byte) : onBus inv (onBus inv b) = b := by
  cases inv <;> simp [onBus]

theorem logicalByte_of_view {u : State} {v : View} (h : viewOf u = v) (k : Chip) (p : BitVec 3) (c : BitVec 6) :
    logicalByte u k p c = onBus v.invert (v.ram k p c) := by
  subst h
  rw [viewOf_ram]
  rfl

theorem fillByte_eq (color : Color) : fillByte color = if color = .black then 0xFF else 0x00 := by
  cases color <;> rfl

theorem getD_replicate_width (b : Byte) (k : Chip) (c : BitVec 6) :
    (List.replicate Config.width b).getD (displayColumn k c) 0 = b := by
  rw [List.getD_eq_getElem?_getD, List.getElem?_replicate, if_pos (displayColumn_lt k c), Option.getD_some]

theorem exec_clearPage {page : Byte} {s : State} (hfree : EngineFree s) (hp : page.toNat < Config.npages)
    (color : Color) :
    exec (.clearPage page color) s = .next (issue (clearPagePlan s.invert page.toNat color s.cache).1 s) := by
  rw [exec, execClearPage, guarded_of_free hfree, if_neg (by omega)]

theorem memOk_of_memoryInv {s : State} (h : MemoryInv s) : (viewOf s).MemOk := ⟨h.1.1, h.2.1.1⟩

/-- Settles O44: a page plan writes its page's bytes, and no addressing and no data write touches the rest. -/
theorem clearPageFillsItsPage : Obligations.ClearPageFillsItsPage := by
  intro page color s hfree hchips hcursor hm hp
  have hy : 8 * page.toNat < Config.height := by simp only [Config.height]; omega
  obtain ⟨hat, -, hkeep, -, hram, hplain, hwaits⟩ :=
    opsEffect_page (inv := s.invert) hp (List.length_replicate (a := fillByte color)) rfl
      (agrees_of_idle hfree.1 hcursor) (viewOf_bare s) (memOk_of_memoryInv hm)
  have hquiet := keeps_page writeProof_quiet (inv := s.invert) hp (List.replicate Config.width (fillByte color))
    s.cache (viewOf s)
  rw [viewOf_cache, ← clearPagePlan_eq] at hat hkeep hram hplain hwaits
  have hbus : busOpCount (clearPagePlan s.invert page.toNat color s.cache).1 ≠ 0 := by
    have hgoto := (goto_plain (x := 0) (by decide) hy s.cache).2.2
    rw [clearPagePlan, planThen, busOpCount_append]
    omega
  refine ⟨_, exec_clearPage hfree hp color, runsTo_issue_view hfree hchips hbus hplain (PlanWaited.clearPage _ _ _ _)
    (by omega) fun u hframe hview => ?_⟩
  rw [← clearPagePlan_eq, ← hview] at hquiet
  rw [← hview] at hat hkeep hram
  refine ⟨hframe, hkeep.clientFrame rfl, fun k p c => ?_, hat.atX, hat.atY, ?_, hat.pageStale, hat.colStale,
    deviceFrame_iff.mpr (hquiet .zero), deviceFrame_iff.mpr (hquiet .one)⟩
  · rw [logicalByte_of_view rfl, hram, hkeep.invert, getD_replicate_width, ← fillByte_eq]
    split
    · exact onBus_onBus ..
    · exact (logicalByte_of_view rfl k p c).symm
  · have hpage : u.cache.page = pageOf (8 * page.toNat) := hat.page
    rw [hpage, pageOf_mul, BitVec.toNat_ofNat, Nat.mod_eq_of_lt (by omega)]

end Sys2Proof.Machine
end

-- Proofs: streamed writes (O20)
section
/-! SUPPORT. One request after another: an engine step draws at most one byte, so the ready answers that a request
leaves are counted by its bus operations; and a row of `writeData` requests has the effect of one plan (R75, R81,
R115). -/

namespace Sys2Proof.Machine

/-! ### Draws -/

/-- At most `n` bytes are drawn between two states. -/
def DrewAtMost (n : Nat) (s t : State) : Prop := ∃ j ≤ n, t.env.draws = s.env.draws.drop j

theorem DrewAtMost.of_eq {n : Nat} {s t : State} (h : t.env.draws = s.env.draws) : DrewAtMost n s t :=
  ⟨0, Nat.zero_le n, h⟩

theorem DrewAtMost.trans {m n : Nat} {s t u : State} (h : DrewAtMost m s t) (g : DrewAtMost n t u) :
    DrewAtMost (m + n) s u := by
  obtain ⟨i, hi, ht⟩ := h
  obtain ⟨j, hj, hu⟩ := g
  exact ⟨i + j, by omega, by rw [hu, ht, List.drop_drop]⟩

/-- The answers that are still to come. -/
theorem AnswersReady.drew {m n : Nat} {s t : State} (h : AnswersReady (m + n) s) (hdrew : DrewAtMost m s t) :
    AnswersReady n t := by
  obtain ⟨hlength, hready⟩ := h
  obtain ⟨j, hj, ht⟩ := hdrew
  rw [AnswersReady, ht, List.length_drop]
  refine ⟨by omega, fun b hb => hready b ?_⟩
  rw [List.take_drop] at hb
  exact List.take_subset_take_left _ (by omega) (List.mem_of_mem_drop hb)

theorem whenNotBusy_drew {k : Chip} {s t : State} {f : State → Result}
    (hf : ∀ u, f u = .next t → t.env.draws = u.env.draws) (h : whenNotBusy k s f = .next t) : DrewAtMost 1 s t := by
  rcases whenNotBusy_next h with h | h
  · exact .of_eq (hf s h)
  · exact ⟨1, Nat.le_refl 1, by rw [hf _ h, afterDraw_draws, List.drop_one]⟩

/-- A cycle draws at most one byte (R88; log 2). -/
theorem chipCycle_drew {k : Chip} {di rw : Bool} {d : Byte} {s t : State} (h : chipCycle k di rw d s = .next t) :
    DrewAtMost 1 s t := by
  cases di <;> cases rw
  case false.false =>
    refine whenNotBusy_drew (f := commandCycle k d) (fun u hu => ?_) h
    unfold commandCycle at hu
    split at hu
    · cases hu; simp
    · cases hu
  case false.true =>
    cases h
    exact ⟨1, Nat.le_refl 1, by simp [statusCycle]⟩
  case true.false =>
    refine whenNotBusy_drew (f := dataWriteCycle k d) (fun u hu => ?_) h
    cases hu; simp
  case true.true =>
    refine whenNotBusy_drew (f := dataReadCycle k) (fun u hu => ?_) h
    cases hu; simp

theorem runBusWord_drew {w : BusWord} {s t : State} (h : runBusWord w s = .next t) : DrewAtMost 1 s t := by
  obtain ⟨k, i, -, -, h⟩ := runBusWord_next h
  exact (chipCycle_drew h :)

theorem finish_draws (s : State) : (finish s).env.draws = s.env.draws := by simp

/-- Plain entries keep plain what they leave, and their notes draw nothing. -/
theorem leave_plain {rest : List EngineOp} (hplain : plainOps rest = true) (s : State) :
    (leave rest s).env.draws = s.env.draws ∧ plainOps (leave rest s).seq = true := by
  obtain ⟨s1, r, hnotes, -, -, hdraws, -⟩ := runNotes_split rest s hplain
  unfold leave
  rw [hnotes]
  cases r with
  | none => exact ⟨(finish_draws _).trans hdraws, by simp [plainOps]⟩
  | some p => exact ⟨rfl, hplain⟩

theorem engineStep_drew {s t : State} (hplain : plainOps s.seq = true) (h : engineStep s = .next t) :
    DrewAtMost 1 s t ∧ plainOps t.seq = true := by
  obtain ⟨s1, r, hnotes, -, -, hdraws, -, hr⟩ := runNotes_split s.seq s hplain
  rcases engineStep_next h with ⟨s2, h1, rfl⟩ | ⟨s2, b, rest, s3, h1, h2, rfl⟩
  · cases hnotes.symm.trans h1
    exact ⟨.of_eq ((finish_draws _).trans hdraws), by simp [plainOps]⟩
  · cases hnotes.symm.trans h1
    obtain ⟨-, hb, hrest, -⟩ := hr
    have hdrew : DrewAtMost 1 s s3 := (DrewAtMost.of_eq (n := 0) hdraws).trans (runBusWord_drew h2)
    rcases afterBusOp_cases b rest s3 with ⟨k, -, h⟩ | h
    · exact h ▸ ⟨hdrew, by simpa [plainOps, BusOp.plain] using hrest⟩
    · obtain ⟨hl, hp⟩ := leave_plain hrest s3
      exact h ▸ ⟨hdrew.trans (n := 0) (.of_eq hl), hp⟩

/-- A run of `n` engine steps over plain entries draws at most `n` bytes. -/
theorem engineRun_drew {n : Nat} {s t : State} (hplain : plainOps s.seq = true) (h : engineRun n s = .next t) :
    DrewAtMost n s t := by
  induction n generalizing s with
  | zero => cases h; exact .of_eq rfl
  | succ n ih =>
    obtain ⟨u, hstep, hrun⟩ := onNext_eq_next h
    obtain ⟨hdrew, hu⟩ := engineStep_drew hplain hstep
    rw [Nat.add_comm]
    exact hdrew.trans (ih hu hrun)

/-! ### Requests in a row -/

theorem waitCount_le_busOpCount (ops : List EngineOp) : waitCount ops ≤ busOpCount ops := by
  induction ops with
  | nil => exact Nat.le_refl 0
  | cons op ops ih => rcases op with (_ | _ | _) | _ <;> simp only [waitCount, busOpCount] <;> omega

/-- The engine is free again when a foreground request has ended. -/
theorem EngineFrame.free {s u : State} (h : EngineFrame s u) (hfree : EngineFree s) (hseq : u.seq = []) :
    EngineFree u := by
  obtain ⟨-, hhost, -⟩ := h
  obtain ⟨-, hctx, hgie⟩ := hfree
  exact ⟨hseq, by rw [hhost, hctx], by rw [hhost, hgie]⟩

/-- A request of plain entries leaves the ready answers that its bus operations have not taken. -/
theorem request_runs {i : Instr} {ops : List EngineOp} {m : Nat} {s : State} (hfree : EngineFree s)
    (hexec : exec i s = .next (issue ops s)) (hbus : busOpCount ops ≠ 0) (hplain : plainOps ops = true)
    (hself : SelfWaited ops) (hready : AnswersReady (busOpCount ops + m) s) :
    ∃ u, (∀ rest v, RunsRequests rest u v → RunsRequests (i :: rest) s v) ∧ EngineFree u
      ∧ viewOf u = opsEffect ops (viewOf s) ∧ AnswersReady m u := by
  obtain ⟨n, hn⟩ := Nat.exists_eq_succ_of_ne_zero hbus
  let t : State := { s with seq := ops }
  have hissue : issue ops s = t := issue_of_ne_nil (ne_nil_of_busOpCount hbus) s
  obtain ⟨u, hrun, hview, houter⟩ := engineRun_ops n (s := t) hn hplain (Waited.of_self hself _)
    (AnswersReady.mono (hready.of_draws rfl) (Nat.le_add_right_of_le (waitCount_le_busOpCount ops)))
  have hframe : EngineFrame s (finish { u with seq := [] }) :=
    (OuterFrame.trans (t := t) ⟨rfl, rfl, rfl, rfl⟩ houter).engineFrame hfree.2.1
  have hdrew := engineRun_drew hplain hrun
  rw [← Nat.succ_eq_add_one, ← hn] at hdrew
  refine ⟨_, fun rest v hv => ⟨t, n + 1, _, hexec.trans (congrArg _ hissue), hrun, by simp, hv⟩,
    hframe.free hfree (by simp), (viewOf_finish _).trans hview, ?_⟩
  exact AnswersReady.drew (s := t) (hready.of_draws rfl) hdrew

theorem busOpCount_waitedCycle (k : Chip) (di rw : Bool) (d : Byte) : busOpCount (waitedCycle k di rw d) = 2 := rfl

/-- Every cycle of `gotoXY` is behind its own wait. -/
theorem goto_busOpCount (x y : Nat) (c : Cache) : busOpCount (gotoPlan x y c).1 = 2 * waitCount (gotoPlan x y c).1 := by
  unfold gotoPlan
  split
  · rfl
  · simp only [busOpCount_append, waitCount_append, writeCommand, pageCommands, busOpCount_waitedCycle,
      waitCount_waitedCycle]
    split <;> rfl

/-- Every cycle of an aligned write is behind its own wait. -/
theorem write_aligned_busOpCount {inv : Bool} {d : Byte} {c : Cache} (ho : yoff c.y.toNat = 0) :
    busOpCount (writePlan inv d c).1 = 2 * waitCount (writePlan inv d c).1 := by
  have hrehome : busOpCount (rehomePlan c).1 = 2 * waitCount (rehomePlan c).1 := by
    unfold rehomePlan
    split
    · exact goto_busOpCount _ _ c
    · rfl
  unfold writePlan
  split
  · rfl
  · simp only [planThen, alignedPlan, busOpCount_append, waitCount_append, busOpCount_waitedCycle,
      waitCount_waitedCycle, hrehome, busOpCount, waitCount]
    omega

theorem write_aligned_busOpCount_ne {inv : Bool} {d : Byte} {c : Cache} (hx : c.x.toNat < Config.width)
    (ho : yoff c.y.toNat = 0) : busOpCount (writePlan inv d c).1 ≠ 0 := by
  rw [writePlan, if_neg (by omega), if_pos ho]
  simp [planThen, alignedPlan, busOpCount_append, busOpCount_waitedCycle]

theorem exec_writeData {d : Byte} {s : State} (hfree : EngineFree s) :
    exec (.writeData d) s = .next (issue (writePlan s.invert d s.cache).1 s) := by
  rw [exec, execWriteData, guarded_of_free hfree]

/-- A row of `writeData` requests from a cursor at home has the effect of the row's plan (R104, R115). -/
theorem writes_run (l : List Byte) :
    ∀ {x y : Nat} {s : State}, EngineFree s → HomedAt x y (viewOf s) → yoff y = 0 → x + l.length ≤ Config.width →
      (viewOf s).MemOk → AnswersReady (4 * l.length) s →
      ∃ u, RunsRequests (l.map .writeData) s u
        ∧ viewOf u = opsEffect (planEach (writePlan s.invert) l s.cache).1 (viewOf s) := by
  induction l with
  | nil => exact fun _ _ _ _ _ _ => ⟨_, rfl, rfl⟩
  | cons d l ih =>
    intro x y s hfree hat ho hl hm hready
    simp only [List.length_cons] at hl hready
    have hx : (viewOf s).cache.x.toNat < Config.width := by rw [hat.atX]; omega
    have ho' : yoff s.cache.y.toNat = 0 := (congrArg yoff hat.atY).trans ho
    obtain ⟨hplain, hwaits⟩ := plain_write_homed s.invert d hat ho
    have hcount := write_aligned_busOpCount (inv := s.invert) (d := d) ho'
    obtain ⟨u, hcons, hufree, hview, hu⟩ := request_runs (m := 4 * l.length) hfree (exec_writeData hfree)
      (write_aligned_busOpCount_ne hx ho') hplain (PlanWaited.write _ _ _)
      (hready.mono (by rw [hcount]; simp only [viewOf_cache] at hwaits; omega))
    obtain ⟨hat', hcache, -, hkeep, hm', -⟩ := opsEffect_write_aligned (inv := s.invert) rfl hat.agrees hat.bare
      (hat.legal (by omega)) hx ho' hm d
    rw [viewOf_cache, ← hview] at hat' hcache hkeep hm'
    have hinvert : u.invert = s.invert := hkeep.invert
    rw [← viewOf_cache, hat.atX, hat.atY] at hat'
    obtain ⟨v, hrun, hv⟩ := ih hufree hat' ho (by omega) hm' hu
    refine ⟨v, hcons _ _ hrun, hv.trans ?_⟩
    rw [hinvert, hview, ← viewOf_cache u, hcache]
    exact (opsEffect_append ..).symm

/-- Settles O20: `gotoXY` brings the cursor home, and the writes run as one row. -/
theorem streamedBytesLandInTheirColumns : Obligations.StreamedBytesLandInTheirColumns := by
  intro x y l s hfree hchips hcursor hm hy ho hx hl
  obtain ⟨hplain, hwaits, hbus⟩ := goto_plain hx hy s.cache
  have hcount := goto_busOpCount x.toNat y.toNat s.cache
  obtain ⟨t, hcons, htfree, hview, ht⟩ := request_runs (m := 4 * l.length) hfree (exec_gotoXY hfree) hbus hplain
    (PlanWaited.goto _ _ _) (AnswersReady.mono hchips (by omega))
  have hgoto := opsEffect_goto hx hy (agrees_of_idle hfree.1 hcursor).pages (viewOf_bare s)
  rw [viewOf_cache, ← hview] at hgoto
  have hat : HomedAt x.toNat y.toNat (viewOf t) := hgoto ▸ (goneTo_homed hx hy (viewOf_bare s)).1
  have hkeep : ViewFrame (viewOf s) (viewOf t) := hgoto ▸ goneTo_frame ..
  have hmt : (viewOf t).MemOk := hgoto ▸ goneTo_memOk (memOk_of_memoryInv hm)
  have hram : (viewOf t).ram = (viewOf s).ram := hgoto ▸ goneTo_ram ..
  obtain ⟨u, hrun, hu⟩ := writes_run l htfree hat ho hl hmt ht
  obtain ⟨hatu, -, hkeepu, -, hramu⟩ := opsEffect_write_row (inv := t.invert) l rfl hat ho hl hmt
  rw [viewOf_cache, ← hu] at hatu hkeepu hramu
  have htinvert : t.invert = s.invert := hkeep.invert
  have hinvert : (viewOf u).invert = s.invert := hkeepu.invert.trans htinvert
  refine ⟨u, hcons _ _ hrun, hatu.atX, fun k p c => ?_⟩
  rw [logicalByte_of_view rfl, hramu, hinvert]
  split
  · rw [htinvert, onBus_onBus]
  · rw [hram, viewOf_ram]
    rfl

end Sys2Proof.Machine
end

-- Proofs: the split write (O18, O19)
section
/-! SUPPORT. What `writeData` at any row does to the display, aligned or split (R104 to R110): the byte's eight rows,
bit by bit; the run of each of the three forms, the last of which ends in the notes of a write at page 7. -/

namespace Sys2Proof.Machine

/-! ### The bytes of a write at any row -/

/-- What a write of `d` at column `x`, row `y` makes of a byte of the display: the page of the row takes the low
half, the page below it the high one (R105 to R108). -/
def writtenByte (x y : Nat) (d : Byte) (k : Chip) (p : BitVec 3) (c : BitVec 6) (old : Byte) : Byte :=
  if k = chipOf x ∧ c = colOf x then
    if p = pageOf y then (old &&& loMask (yoff y)) ||| (d <<< yoff y)
    else if y / 8 < 7 ∧ p = pageOf y + 1 then (old &&& ~~~loMask (yoff y)) ||| (d >>> (8 - yoff y))
    else old
  else old

theorem getLsbD_loMask {o i : Nat} (hi : i < 8) : (loMask o).getLsbD i = decide (i < o) := by
  rw [loMask, BitVec.getLsbD_ofNat, Nat.testBit_two_pow_sub_one]
  simp [hi]

/-- The low half keeps the bits below the offset and takes the byte above it (R105, R106). -/
theorem getLsbD_lowHalf {o i : Nat} (hi : i < 8) (d old : Byte) :
    ((old &&& loMask o) ||| (d <<< o)).getLsbD i = if i < o then old.getLsbD i else d.getLsbD (i - o) := by
  rw [BitVec.getLsbD_or, BitVec.getLsbD_and, getLsbD_loMask hi, BitVec.getLsbD_shiftLeft]
  by_cases h : i < o <;> simp [h, hi]

/-- The high half takes the rest of the byte below the offset and keeps the bits above it (R107). -/
theorem getLsbD_highHalf {o i : Nat} (hi : i < 8) (ho : o < 8) (d old : Byte) :
    ((old &&& ~~~loMask o) ||| (d >>> (8 - o))).getLsbD i = if i < o then d.getLsbD (8 - o + i) else old.getLsbD i := by
  rw [BitVec.getLsbD_or, BitVec.getLsbD_and, BitVec.getLsbD_not, getLsbD_loMask hi, BitVec.getLsbD_ushiftRight]
  by_cases h : i < o
  · simp [h]
  · simp only [h, if_false, decide_false, Bool.not_false, hi, decide_true, Bool.and_true]
    rw [BitVec.getLsbD_of_ge d (8 - o + i) (by omega), Bool.or_false]

theorem eq_pageOf {p : BitVec 3} {y : Nat} (hy : y < 64) : p = pageOf y ↔ p.toNat = y / 8 := by
  rw [pageOf, ← BitVec.toNat_inj, BitVec.toNat_ofNat, Nat.mod_eq_of_lt (by omega)]

theorem pageOf_add_eight (y : Nat) : pageOf (y + 8) = pageOf y + 1 := by
  rw [pageOf, Nat.add_div_right y (by decide), BitVec.ofNat_add]
  rfl

theorem eq_pageOf_succ {p : BitVec 3} {y : Nat} (hy : y / 8 < 7) : p = pageOf y + 1 ↔ p.toNat = y / 8 + 1 := by
  rw [← pageOf_add_eight, eq_pageOf (by omega), Nat.add_div_right y (by decide)]

/-- A write reaches the eight rows from its own down, in its own column, and no other pixel (R110, R146). -/
theorem getLsbD_writtenByte {x y i : Nat} (hy : y < 64) (hi : i < 8) (d : Byte) (k : Chip) (p : BitVec 3)
    (c : BitVec 6) (old : Byte) :
    (writtenByte x y d k p c old).getLsbD i
      = if (k = chipOf x ∧ c = colOf x) ∧ y ≤ 8 * p.toNat + i ∧ 8 * p.toNat + i < y + 8 then
          d.getLsbD (8 * p.toNat + i - y)
        else old.getLsbD i := by
  have ho : yoff y < 8 := Nat.mod_lt y (by decide)
  have hdiv : 8 * (y / 8) + yoff y = y := Nat.div_add_mod y 8
  unfold writtenByte
  by_cases hcell : k = chipOf x ∧ c = colOf x
  · simp only [hcell, and_self, if_true, true_and]
    by_cases hlow : p.toNat = y / 8
    · rw [if_pos ((eq_pageOf hy).mpr hlow), getLsbD_lowHalf hi, hlow]
      by_cases h : i < yoff y
      · rw [if_pos h, if_neg (by omega)]
      · rw [if_neg h, if_pos (by omega)]
        congr 1
        omega
    · rw [if_neg (mt (eq_pageOf hy).mp hlow)]
      have hp := p.isLt
      by_cases hhigh : y / 8 < 7 ∧ p.toNat = y / 8 + 1
      · rw [if_pos ⟨hhigh.1, (eq_pageOf_succ hhigh.1).mpr hhigh.2⟩, getLsbD_highHalf hi ho, hhigh.2]
        by_cases h : i < yoff y
        · rw [if_pos h, if_pos (by omega)]
          congr 1
          omega
        · rw [if_neg h, if_neg (by omega)]
      · rw [if_neg fun h => hhigh ⟨h.1, (eq_pageOf_succ h.1).mp h.2⟩, if_neg (by omega)]
  · rw [if_neg hcell, if_neg fun h => hcell h.1]

/-- At a page-aligned row a write takes one whole byte (R104). -/
theorem writtenByte_aligned {x y : Nat} (ho : yoff y = 0) (d : Byte) (k : Chip) (p : BitVec 3) (c : BitVec 6)
    (old : Byte) :
    writtenByte x y d k p c old = if k = chipOf x ∧ p = pageOf y ∧ c = colOf x then d else old := by
  have hlow : (old &&& loMask 0) ||| (d <<< 0) = d := by simp [loMask]
  have hhigh : (old &&& ~~~loMask 0) ||| (d >>> (8 - 0)) = old := BitVec.eq_of_getLsbD_eq fun i hi => by
    rw [getLsbD_highHalf hi (by decide), if_neg (Nat.not_lt_zero i)]
  unfold writtenByte
  rw [ho, hlow, hhigh, ite_self]
  by_cases hcell : k = chipOf x ∧ c = colOf x
  · simp [hcell]
  · rw [if_neg hcell, if_neg fun h => hcell ⟨h.1, h.2.2⟩]

/-- Above page 7 a write takes the low half in its own page and the high half in the page below (R106, R107). -/
theorem writtenByte_above {x y : Nat} (h7 : y / 8 < 7) (d : Byte) (k : Chip) (p : BitVec 3) (c : BitVec 6)
    (old : Byte) :
    writtenByte x y d k p c old
      = if k = chipOf x ∧ p = pageOf y + 1 ∧ c = colOf x then (old &&& ~~~loMask (yoff y)) ||| (d >>> (8 - yoff y))
        else if k = chipOf x ∧ p = pageOf y ∧ c = colOf x then (old &&& loMask (yoff y)) ||| (d <<< yoff y)
        else old := by
  unfold writtenByte
  by_cases hcell : k = chipOf x ∧ c = colOf x
  · by_cases hp : p = pageOf y
    · simp [hcell, hp]
    · simp [hcell, hp, h7]
  · rw [if_neg hcell, if_neg fun h => hcell ⟨h.1, h.2.2⟩, if_neg fun h => hcell ⟨h.1, h.2.2⟩]

/-- At page 7 a write takes the low half (R106, R108). -/
theorem writtenByte_last {x y : Nat} (h7 : ¬ y / 8 < 7) (d : Byte) (k : Chip) (p : BitVec 3) (c : BitVec 6)
    (old : Byte) :
    writtenByte x y d k p c old
      = if k = chipOf x ∧ p = pageOf y ∧ c = colOf x then (old &&& loMask (yoff y)) ||| (d <<< yoff y) else old := by
  unfold writtenByte
  by_cases hcell : k = chipOf x ∧ c = colOf x
  · simp [hcell, h7]
  · rw [if_neg hcell, if_neg fun h => hcell ⟨h.1, h.2.2⟩]

/-- The logical bytes of a view (R103). -/
def View.logical (v : View) (k : Chip) (p : BitVec 3) (c : BitVec 6) : Byte := onBus v.invert (v.ram k p c)

theorem viewOf_logical (s : State) (k : Chip) (p : BitVec 3) (c : BitVec 6) :
    (viewOf s).logical k p c = logicalByte s k p c := (logicalByte_of_view rfl k p c).symm

/-- What a `writeData` of `d` at column `x`, row `y` makes of a view. `other` is the column of the one byte of
page 7 besides its own that a write there may change (R104 to R110). -/
structure Wrote (x y : Nat) (d : Byte) (other : Option (BitVec 6)) (v w : View) : Prop where
  frame : ViewFrame v w
  atX : w.cache.x.toNat = x + 1
  atY : w.cache.y.toNat = y
  page : w.cache.page = pageOf y
  pageStale : w.cache.pageStale = decide (yoff y ≠ 0 ∧ y / 8 < 7 ∧ x = 127)
  colStale : w.cache.colStale = decide (yoff y ≠ 0 ∧ ¬ y / 8 < 7)
  power : ∀ k, (w.dev k).power = (v.dev k).power
  byte : ∀ k p c, ¬(k = chipOf x ∧ p = 7 ∧ some c = other) →
    w.logical k p c = writtenByte x y d k p c (v.logical k p c)
  other_none : y < 57 → other = none
  other_ne : other ≠ some (colOf x)

/-! ### The halves of a split write -/

theorem Keeps.half (k : Chip) (keep bits : Byte) (c : Cache) : Keeps Device.power (halfPlan k keep bits c).1 :=
  ((Keeps.rehome writeProof_power c).append
    (((Keeps.read power_deviceDataRead _ _).append (.read power_deviceDataRead _ _)).append
      (.setColumn writeProof_power _ _))).append (.merge writeProof_power _ _ _)

theorem Keeps.restore (x y : Nat) (page : BitVec 3) (c : Cache) : Keeps Device.power (restorePlan x y page c).1 := by
  unfold restorePlan
  split
  · exact .goto writeProof_power _ _ c
  · exact .cacheNote _

/-- A half of a split write merges the byte under the cursor (R106, R107). -/
theorem half_logical {x y : Nat} {v : View} (h : HomedAt x y v) (hx : x < Config.width)
    (hk : v.cache.lastColChip = chipOf x) (hm : v.MemOk) (keep bits : Byte) (k : Chip) (p : BitVec 3)
    (c : BitVec 6) :
    (opsEffect (halfPlan (chipOf x) keep bits v.cache).1 v).logical k p c
      = if k = chipOf x ∧ p = pageOf y ∧ c = colOf x then (v.logical k p c &&& keep) ||| bits
        else v.logical k p c := by
  obtain ⟨-, -, -, -, hkeep, -, hram, -⟩ := opsEffect_half h rfl hx hk hm keep bits
  rw [View.logical, hkeep.invert, hram]
  split
  · exact onBus_onBus ..
  · rfl

/-- The cursor restore of a split write below page 7 (R109). -/
theorem restore_effect {x y : Nat} (hx : x < Config.width) (hy : y < Config.height) {v : View}
    (hp : PagesAgree v.addressing) (hb : v.Bare) (hcol : v.cache.colStale = false) :
    let w := opsEffect (restorePlan x y (pageOf y) v.cache).1 v
    ViewFrame v w ∧ w.ram = v.ram ∧ w.cache.x.toNat = x + 1 ∧ w.cache.y.toNat = y ∧ w.cache.page = pageOf y
      ∧ w.cache.colStale = false ∧ w.cache.pageStale = decide (x = 127) := by
  simp only [Config.width] at hx
  unfold restorePlan
  split
  · rename_i hnext
    simp only [Config.width] at hnext
    obtain ⟨hat, -⟩ := goneTo_homed (x := x + 1) hnext hy hb
    rw [opsEffect_goto hnext hy hp hb]
    refine ⟨goneTo_frame .., goneTo_ram .., hat.atX, hat.atY, hat.page, hat.colStale, hat.pageStale.trans ?_⟩
    rw [decide_eq_false (by omega)]
  · rename_i hnext
    have hx127 : x = 127 := by simp only [Config.width] at hnext; omega
    subst hx127
    refine ⟨⟨rfl, rfl, rfl⟩, ?_, rfl, toNat_ofNat6 hy, rfl, hcol, rfl⟩
    funext k p c
    cases k <;> rfl

/-! ### The run of a write -/

/-- A `writeData` of `d` from the view `v`: its entries are plain up to the notes that a write at page 7 ends in, and
run to what `Wrote` says. -/
structure WriteRun (inv : Bool) (d : Byte) (v : View) (body tail : List EngineOp) : Prop where
  entries : (writePlan inv d v.cache).1 = body ++ tail
  notes : busOpCount tail = 0
  busy : busOpCount body ≠ 0
  plain : plainOps body = true
  waited : SelfWaited body
  waits : waitCount body ≤ 17
  wrote : ∀ u, viewOf u = opsEffect body v → OuterFrame u (runNotes tail u).1
    ∧ ∃ other, Wrote v.cache.x.toNat v.cache.y.toNat d other v (viewOf (runNotes tail u).1)

section
variable {inv : Bool} {d : Byte} {v : View} (hi : v.invert = inv) (ha : Agrees v.addressing) (hb : v.Bare)
  (hl : CursorLegal v.cache) (hx : v.cache.x.toNat < Config.width) (hm : v.MemOk)
include hi ha hb hl hx hm

theorem writeRun_aligned (ho : yoff v.cache.y.toNat = 0) : WriteRun inv d v (writePlan inv d v.cache).1 [] := by
  obtain ⟨hplain, hwaits⟩ := plain_write_aligned inv d v.cache ho
  obtain ⟨hat, -, -, hkeep, -, hram⟩ := opsEffect_write_aligned hi ha hb hl hx ho hm d
  obtain ⟨hpower, -⟩ := keeps_write_aligned writeProof_power (inv := inv) (d := d) ho
  refine ⟨(List.append_nil _).symm, rfl, write_aligned_busOpCount_ne hx ho, hplain, PlanWaited.write _ _ _, by omega,
    fun u hu => ⟨.refl u, none, ?_⟩⟩
  rw [runNotes, hu]
  refine ⟨hkeep, hat.atX, hat.atY, hat.page, by simp [hat.pageStale, ho], by simp [hat.colStale, ho],
    fun k => hpower v k, fun k p c _ => ?_, fun _ => rfl, by simp⟩
  rw [writtenByte_aligned ho, View.logical, hkeep.invert, hram, hi]
  split
  · exact onBus_onBus ..
  · rw [View.logical, hi]

end

/-- The entries of a split write up to its lower half (R105, R106). -/
def lowHalfOps (d : Byte) (c : Cache) : List EngineOp :=
  (rehomePlan c).1 ++ (halfPlan (chipOf c.x.toNat) (loMask (yoff c.y.toNat)) (d <<< yoff c.y.toNat) c.homed).1

theorem homedFlags_homed (c : Cache) : HomedFlags c.homed := ⟨rfl, rfl, rfl⟩

/-- A split write is its lower half and what follows it (R105 to R109). -/
theorem writePlan_split {c : Cache} (hx : c.x.toNat < Config.width) (ho : yoff c.y.toNat ≠ 0)
    (hhome : (rehomePlan c).2 = c.homed) (inv : Bool) (d : Byte) :
    (writePlan inv d c).1
      = lowHalfOps d c
        ++ ((if c.page.toNat < 7 then splitUpperPlan c.x.toNat c.y.toNat c.page (yoff c.y.toNat) d
            else splitLastPlan c.x.toNat c.y.toNat) c.homed).1 := by
  rw [writePlan, if_neg (by omega), if_neg ho, planThen, hhome, lowHalfOps, List.append_assoc]
  rw [splitPlan, planThen, half_cache (homedFlags_homed c)]
  rfl

section
variable {v : View} (ha : Agrees v.addressing) (hb : v.Bare) (hl : CursorLegal v.cache)
  (hx : v.cache.x.toNat < Config.width) (hm : v.MemOk)
include ha hb hl hx hm

/-- The lower half of a split write: the byte under the cursor merged, the cursor homed but for the column of its
chip, which has moved on (R106). -/
theorem lowHalf_effect (d : Byte) :
    let w := opsEffect (lowHalfOps d v.cache) v
    w.cache = v.cache.homed ∧ PagesAgree w.addressing ∧ w.Bare ∧ ViewFrame v w ∧ w.MemOk
      ∧ (∀ k, (w.dev k).power = (v.dev k).power)
      ∧ ∀ k p c, w.logical k p c
          = if k = chipOf v.cache.x.toNat ∧ p = v.cache.page ∧ c = colOf v.cache.x.toNat then
              (v.logical k p c &&& loMask (yoff v.cache.y.toNat)) ||| (d <<< yoff v.cache.y.toNat)
            else v.logical k p c := by
  obtain ⟨hat, -, hchip, hkeep, hram, hmem⟩ := opsEffect_rehome ha hb hl hx
  rw [(rehome_effect hl ha hb hx).1] at hat hchip hkeep hram hmem
  have hcache := rehomed_cache hl
  obtain ⟨hhalf, hp0, hp1, hbare, hframe, hmem', -, -⟩ := opsEffect_half hat rfl hx hchip (hmem hm)
    (loMask (yoff v.cache.y.toNat)) (d <<< yoff v.cache.y.toNat)
  have hlogical := half_logical hat hx hchip (hmem hm) (loMask (yoff v.cache.y.toNat)) (d <<< yoff v.cache.y.toNat)
  have hpower : Keeps Device.power (lowHalfOps d v.cache) := (Keeps.rehome writeProof_power _).append (.half _ _ _ _)
  replace hpower := hpower v
  rw [hcache] at hhalf hp0 hp1 hbare hframe hmem' hlogical
  rw [lowHalfOps, opsEffect_append, (rehome_effect hl ha hb hx).1] at hpower ⊢
  refine ⟨hhalf, fun _ => ⟨hp0.trans ?_, hp1.trans ?_⟩, hbare, hkeep.trans hframe, hmem', hpower, fun k p c => ?_⟩
  · exact (hl.2.symm.trans (congrArg Cache.page hhalf).symm :)
  · exact (hl.2.symm.trans (congrArg Cache.page hhalf).symm :)
  · have hsame : v.rehomed.logical = v.logical := by
      funext k p c
      rw [View.logical, hkeep.invert, hram]
      rfl
    rw [hlogical, hsame, hl.2]

end

/-- A half of a split write at a homed cursor: three waits to read, one to write back (R106, R107). -/
theorem half_plain {c : Cache} (hf : HomedFlags c) (k : Chip) (keep bits : Byte) :
    plainOps (halfPlan k keep bits c).1 = true ∧ waitCount (halfPlan k keep bits c).1 = 4 := by
  have hentries : (halfPlan k keep bits c).1 = readOps c ++ [waitOp k, .bus (.merge k keep bits)] := by
    rw [halfPlan, planThen, readPlan, planThen, rehome_homed hf]
    rfl
  rw [hentries, plainOps_append, waitCount_append]
  constructor
  · simp [readOps, plainOps_append, writeCommand, plainOps_waitedCycle, plainOps, BusOp.plain, waitOp]
  · rfl

theorem lowHalf_plain (d : Byte) (c : Cache) :
    plainOps (lowHalfOps d c) = true ∧ waitCount (lowHalfOps d c) ≤ 7 ∧ busOpCount (lowHalfOps d c) ≠ 0
      ∧ SelfWaited (lowHalfOps d c) := by
  obtain ⟨hplain, hwaits⟩ := plain_rehome c
  obtain ⟨hhalf, hhalfWaits⟩ := half_plain (homedFlags_homed c) (chipOf c.x.toNat) (loMask (yoff c.y.toNat))
    (d <<< yoff c.y.toNat)
  have hle := waitCount_le_busOpCount (lowHalfOps d c)
  rw [lowHalfOps, plainOps_append, waitCount_append, hplain, hhalf, hhalfWaits] at *
  exact ⟨rfl, by omega, by omega, (PlanWaited.rehome _).append (PlanWaited.half _ _ _ _)⟩

theorem homedFlags_cacheHomed {x : Nat} (hx : x < Config.width) (y : Nat) (c : Cache) :
    HomedFlags (cacheHomed x y c) := by
  refine ⟨rfl, rfl, ?_⟩
  show chipOf (BitVec.ofNat 8 x).toNat = chipOf x
  rw [toNat_ofNat8 (by simp only [Config.width] at hx; omega)]

section
variable {x y : Nat} (hx : x < Config.width) (hy : y + 8 < Config.height)
include hx hy

/-- The entries of the upper half of a split write below page 7, and of its cursor restore (R107, R109). -/
theorem splitUpper_entries (page : BitVec 3) (o : Nat) (d : Byte) (c : Cache) :
    (splitUpperPlan x y page o d c).1
      = (gotoPlan x (y + 8) c).1
        ++ ((halfPlan (chipOf x) (~~~loMask o) (d >>> (8 - o)) (cacheHomed x (y + 8) c)).1
          ++ (restorePlan x y page (cacheHomed x (y + 8) c)).1) := by
  rw [splitUpperPlan, planThen, goto_cache hx hy, planThen, half_cache (homedFlags_cacheHomed hx ..)]

theorem splitUpper_plain (page : BitVec 3) (o : Nat) (d : Byte) (c : Cache) :
    plainOps (splitUpperPlan x y page o d c).1 = true ∧ waitCount (splitUpperPlan x y page o d c).1 ≤ 10 := by
  obtain ⟨hgoto, hgotoWaits, -⟩ := plain_goto x (y + 8) c
  obtain ⟨hhalf, hhalfWaits⟩ := half_plain (homedFlags_cacheHomed hx (y + 8) c) (chipOf x) (~~~loMask o) (d >>> (8 - o))
  have hrestore : plainOps (restorePlan x y page (cacheHomed x (y + 8) c)).1 = true
      ∧ waitCount (restorePlan x y page (cacheHomed x (y + 8) c)).1 ≤ 3 := by
    unfold restorePlan
    split
    · exact ⟨(plain_goto ..).1, (plain_goto ..).2.1⟩
    · exact ⟨rfl, Nat.zero_le _⟩
  obtain ⟨hrestore, hrestoreWaits⟩ := hrestore
  rw [splitUpper_entries hx hy]
  simp only [plainOps_append, waitCount_append, hgoto, hhalf, hrestore, hhalfWaits]
  exact ⟨rfl, by omega⟩

/-- The upper half of a split write below page 7, and its cursor restore (R107, R109). -/
theorem splitUpper_effect {v : View} (hp : PagesAgree v.addressing) (hb : v.Bare) (hm : v.MemOk) (o : Nat) (d : Byte) :
    let w := opsEffect (splitUpperPlan x y (pageOf y) o d v.cache).1 v
    ViewFrame v w ∧ w.cache.x.toNat = x + 1 ∧ w.cache.y.toNat = y ∧ w.cache.page = pageOf y
      ∧ w.cache.colStale = false ∧ w.cache.pageStale = decide (x = 127) ∧ (∀ k, (w.dev k).power = (v.dev k).power)
      ∧ ∀ k p c, w.logical k p c
          = if k = chipOf x ∧ p = pageOf y + 1 ∧ c = colOf x then
              (v.logical k p c &&& ~~~loMask o) ||| (d >>> (8 - o))
            else v.logical k p c := by
  obtain ⟨hat, hcache, hchip⟩ := goneTo_homed hx hy hb
  have hkeep := goneTo_frame x (y + 8) v
  have hmem := goneTo_memOk (x := x) (y := y + 8) hm
  obtain ⟨hhalf, hp0, hp1, hbare, hframe, -⟩ := opsEffect_half hat rfl hx hchip hmem (~~~loMask o) (d >>> (8 - o))
  have hlogical := half_logical hat hx hchip hmem (~~~loMask o) (d >>> (8 - o))
  have hpower : Keeps Device.power (splitUpperPlan x y (pageOf y) o d v.cache).1 := by
    rw [splitUpper_entries hx hy]
    exact (Keeps.goto writeProof_power _ _ _).append ((Keeps.half _ _ _ _).append (.restore _ _ _ _))
  replace hpower := hpower v
  rw [splitUpper_entries hx hy, opsEffect_append, opsEffect_append, opsEffect_goto hx hy hp hb, ← hcache] at hpower ⊢
  generalize opsEffect (halfPlan _ _ _ _).1 _ = w at *
  have hpages : PagesAgree w.addressing := fun _ => by
    have hpage : w.cache.page = pageOf (y + 8) := by rw [hhalf, hat.page]
    exact ⟨hp0.trans hpage.symm, hp1.trans hpage.symm⟩
  obtain ⟨hrestore, hram, hx', hy', hpage, hcol, hstale⟩ := restore_effect (y := y) hx (by omega) hpages hbare
    (by rw [hhalf, hat.colStale])
  rw [← hhalf] at hpower ⊢
  refine ⟨(hkeep.trans hframe).trans hrestore, hx', hy', hpage, hcol, hstale, hpower, fun k p c => ?_⟩
  have hwritten := hlogical k p c
  rw [pageOf_add_eight] at hwritten
  rw [View.logical, hrestore.invert, hram]
  refine hwritten.trans ?_
  rw [View.logical, hkeep.invert, goneTo_ram]
  rfl

end

/-- A row of a display that has a row eight further down is above page 7. -/
theorem rows_below {p : BitVec 3} {y : Nat} (hy : y < 64) (hp : p = pageOf y) : p.toNat < 7 ↔ y / 8 < 7 := by
  rw [(eq_pageOf hy).mp hp]

section
variable {d : Byte} {v : View} (ha : Agrees v.addressing) (hb : v.Bare) (hl : CursorLegal v.cache)
  (hx : v.cache.x.toNat < Config.width) (hm : v.MemOk) (ho : yoff v.cache.y.toNat ≠ 0)
include ha hb hl hx hm ho

theorem writeRun_upper (inv : Bool) (h7 : v.cache.page.toNat < 7) :
    WriteRun inv d v (writePlan inv d v.cache).1 [] := by
  have hy : v.cache.y.toNat < 64 := v.cache.y.isLt
  have hrow := (rows_below hy hl.2).mp h7
  have hy8 : v.cache.y.toNat + 8 < Config.height := by simp only [Config.height]; omega
  have hhome : (rehomePlan v.cache).2 = v.cache.homed := by rw [(rehome_effect hl ha hb hx).2, rehomed_cache hl]
  have hentries := writePlan_split hx ho hhome inv d
  rw [if_pos h7] at hentries
  obtain ⟨hplain, hwaits, hbus, -⟩ := lowHalf_plain d v.cache
  obtain ⟨hplain', hwaits'⟩ := splitUpper_plain hx hy8 v.cache.page (yoff v.cache.y.toNat) d v.cache.homed
  refine ⟨(List.append_nil _).symm, rfl, ?_, ?_, PlanWaited.write _ _ _, ?_, fun u hu => ⟨.refl u, none, ?_⟩⟩
  · rw [hentries, busOpCount_append]
    omega
  · rw [hentries, plainOps_append, hplain, hplain']
    rfl
  · rw [hentries, waitCount_append]
    omega
  · rw [hentries, opsEffect_append] at hu
    obtain ⟨hcache, hpages, hbare, hkeep, hmem, hpower, hlow⟩ := lowHalf_effect ha hb hl hx hm d
    rw [← hcache] at hu
    generalize opsEffect (lowHalfOps d v.cache) v = w at *
    have hupper := splitUpper_effect hx hy8 hpages hbare hmem (yoff v.cache.y.toNat) d
    rw [← hl.2, ← hu] at hupper
    obtain ⟨hkeep', hx', hy', hpage, hcol, hstale, hpower', hhigh⟩ := hupper
    rw [runNotes]
    refine ⟨hkeep.trans hkeep', hx', hy', hpage.trans hl.2, ?_, ?_, fun k => (hpower' k).trans (hpower k),
      fun k p c _ => ?_, fun _ => rfl, by simp⟩
    · simpa [ho, hrow] using hstale
    · simpa [ho, hrow] using hcol
    · rw [hhigh, hlow, hl.2, writtenByte_above hrow]
      by_cases hp : k = chipOf v.cache.x.toNat ∧ p = pageOf v.cache.y.toNat + 1 ∧ c = colOf v.cache.x.toNat
      · rw [if_pos hp, if_pos hp, if_neg (by simp [hp])]
      · rw [if_neg hp, if_neg hp]

end

/-! ### The spill of a split write at page 7 -/

/-- The column of page 7 that a spill at `col` changes, if it changes one (R108; log 18). -/
def spillTarget (col : BitVec 6) (s : State) : Option (BitVec 6) :=
  if (drawnByte s).extractLsb' 6 1 = 1#1 ∧ (drawnByte s).extractLsb' 0 6 ≠ col then
    some ((drawnByte s).extractLsb' 0 6)
  else none

theorem spillTarget_ne (col : BitVec 6) (s : State) : spillTarget col s ≠ some col := by
  unfold spillTarget
  split
  · rename_i h
    simpa using h.2
  · simp

/-- A spill keeps every byte of display RAM but its target's (R108). -/
theorem ramByte_spillInto {k j : Chip} {col c : BitVec 6} {p : BitVec 3} {s : State}
    (h : ¬(j = k ∧ p = 7 ∧ some c = spillTarget col s)) :
    ramByte (spillInto k col s) j p c = ramByte s j p c := by
  by_cases hj : j = k
  · subst hj
    simp only [ramByte, spillInto, setDev_dev_same, afterDraw_dev]
    split
    · rename_i htarget
      refine Memory.read_write_other _ (fun haddr => h ⟨rfl, ?_⟩) _
      rw [spillTarget, if_pos htarget, Option.some_inj]
      exact ramAddr_inj.mp haddr
    · rfl
  · simp only [ramByte, spillInto, setDev_dev_other _ _ hj, afterDraw_dev]

theorem spillInto_outer (k : Chip) (col : BitVec 6) (s : State) : OuterFrame s (spillInto k col s) :=
  ⟨by simp, by simp, by simp [spillInto], by simp [spillInto]⟩

theorem spillInto_viewFrame (k : Chip) (col : BitVec 6) (s : State) :
    ViewFrame (viewOf s) (viewOf (spillInto k col s)) :=
  ⟨spillInto_invert .., spillInto_client .., by simp [spillInto]⟩

theorem spillInto_power (k : Chip) (col : BitVec 6) (s : State) (j : Chip) :
    ((viewOf (spillInto k col s)).dev j).power = ((viewOf s).dev j).power := by
  obtain ⟨m, c, -, h⟩ := spillInto_dev k col s j
  rw [viewOf_dev, viewOf_dev, h]
  rfl

theorem spillInto_logical {k j : Chip} {col c : BitVec 6} {p : BitVec 3} {s : State}
    (h : ¬(j = k ∧ p = 7 ∧ some c = spillTarget col s)) :
    (viewOf (spillInto k col s)).logical j p c = (viewOf s).logical j p c := by
  rw [View.logical, viewOf_ram, ramByte_spillInto h, (spillInto_viewFrame k col s).invert, View.logical, viewOf_ram]

theorem View.withCache_logical (v : View) (cache : Cache) (k : Chip) (p : BitVec 3) (c : BitVec 6) :
    ({ v with cache := cache } : View).logical k p c = v.logical k p c := by
  cases k <;> rfl

/-- The cursor that a split write at page 7 leaves (R109). -/
def spillCache (x y : Nat) (c : Cache) : Cache :=
  { c with x := BitVec.ofNat 8 (x + 1), y := BitVec.ofNat 6 y, page := 7, colStale := true }

/-- The notes that a split write at page 7 ends in (R108, R109). -/
def spillNotes (x y : Nat) (c : Cache) : List EngineOp :=
  [.note (.spill (chipOf x) (colOf x)), .note (.cache (spillCache x y c))]

theorem spillNotes_view (x y : Nat) (c : Cache) (u : State) :
    viewOf (runNotes (spillNotes x y c) u).1
      = { viewOf (spillInto (chipOf x) (colOf x) u) with cache := spillCache x y c } := rfl

theorem splitLast_entries (x y : Nat) (c : Cache) : (splitLastPlan x y c).1 = spillNotes x y c := rfl

section
variable {d : Byte} {v : View} (ha : Agrees v.addressing) (hb : v.Bare) (hl : CursorLegal v.cache)
  (hx : v.cache.x.toNat < Config.width) (hm : v.MemOk) (ho : yoff v.cache.y.toNat ≠ 0)
include ha hb hl hx hm ho

theorem writeRun_last (inv : Bool) (h7 : ¬ v.cache.page.toNat < 7) :
    WriteRun inv d v (lowHalfOps d v.cache) (spillNotes v.cache.x.toNat v.cache.y.toNat v.cache.homed) := by
  have hy : v.cache.y.toNat < 64 := v.cache.y.isLt
  have hrow := mt (rows_below hy hl.2).mpr h7
  have hpage7 : pageOf v.cache.y.toNat = 7 := ((eq_pageOf hy).mpr (by show 7 = _; omega)).symm
  have hhome : (rehomePlan v.cache).2 = v.cache.homed := by rw [(rehome_effect hl ha hb hx).2, rehomed_cache hl]
  have hentries := writePlan_split hx ho hhome inv d
  rw [if_neg h7, splitLast_entries] at hentries
  obtain ⟨hplain, hwaits, hbus, hself⟩ := lowHalf_plain d v.cache
  refine ⟨hentries, rfl, hbus, hplain, hself, by omega, fun u hu => ⟨?_, spillTarget (colOf v.cache.x.toNat) u, ?_⟩⟩
  · exact OuterFrame.trans (spillInto_outer ..) ⟨rfl, rfl, rfl, rfl⟩
  · obtain ⟨-, -, -, hkeep, -, hpower, hlow⟩ := lowHalf_effect ha hb hl hx hm d
    rw [← hu] at hkeep hpower hlow
    have hspill := spillInto_viewFrame (chipOf v.cache.x.toNat) (colOf v.cache.x.toNat) u
    have hx8 : (BitVec.ofNat 8 (v.cache.x.toNat + 1)).toNat = v.cache.x.toNat + 1 :=
      toNat_ofNat8 (by simp only [Config.width] at hx; omega)
    have ho' : v.cache.y.toNat % 8 ≠ 0 := ho
    rw [spillNotes_view]
    refine ⟨(hkeep.trans hspill).withCache _, hx8, toNat_ofNat6 hy, hpage7.symm, ?_, ?_, fun j => ?_,
      fun k p c hcell => ?_, fun hy57 => by omega, spillTarget_ne _ u⟩
    · simp [spillCache, Cache.homed, hrow]
    · simp [spillCache, ho, hrow]
    · rw [View.withCache_dev, spillInto_power, hpower]
    · rw [View.withCache_logical, spillInto_logical hcell, hlow, hl.2, writtenByte_last hrow]

end

/-- Every `writeData` on the display has its run (R104 to R110). -/
theorem writeRun {v : View} (ha : Agrees v.addressing) (hb : v.Bare) (hl : CursorLegal v.cache)
    (hx : v.cache.x.toNat < Config.width) (hm : v.MemOk) (d : Byte) :
    ∃ body tail, WriteRun v.invert d v body tail := by
  by_cases ho : yoff v.cache.y.toNat = 0
  · exact ⟨_, _, writeRun_aligned rfl ha hb hl hx hm ho⟩
  · by_cases h7 : v.cache.page.toNat < 7
    · exact ⟨_, _, writeRun_upper ha hb hl hx hm ho v.invert h7⟩
    · exact ⟨_, _, writeRun_last ha hb hl hx hm ho v.invert h7⟩

/-- A foreground operation that ends in a `writeData` of `d`, behind entries `pre` that bring the view to where the
write starts, runs to its end. -/
theorem WriteRun.runs {inv : Bool} {d : Byte} {s : State} {v : View} {pre body tail : List EngineOp}
    (h : WriteRun inv d v body tail) (hfree : EngineFree s) (hchips : ChipsAnswer s)
    (hv : opsEffect pre (viewOf s) = v) (hplain : plainOps pre = true) (hself : SelfWaited pre)
    (hwaits : waitCount pre ≤ 3) :
    RunsTo (issue (pre ++ (writePlan inv d v.cache).1) s) fun u =>
      EngineFrame s u ∧ ∃ other, Wrote v.cache.x.toNat v.cache.y.toNat d other v (viewOf u) := by
  have hbus := h.busy
  have hbody := h.waits
  rw [h.entries, ← List.append_assoc]
  refine runsTo_issue hfree.1 h.notes ?_ ?_ (hself.append h.waited) (AnswersReady.mono hchips ?_)
    fun u hu houter _ => ?_
  · rw [busOpCount_append]
    omega
  · rw [plainOps_append, hplain, h.plain]
    rfl
  · rw [waitCount_append]
    omega
  · rw [opsEffect_append, hv] at hu
    obtain ⟨hnotes, other, hwrote⟩ := h.wrote u hu
    exact ⟨(houter.trans hnotes).engineFrame hfree.2.1, other, (viewOf_finish _).symm ▸ hwrote⟩

/-- `writeData` on the display, from an idle engine (R104 to R110). -/
theorem writeData_runs {s : State} (d : Byte) (hfree : EngineFree s) (hchips : ChipsAnswer s) (hcursor : CursorInv s)
    (hlegal : CursorRangeInv s) (hm : MemoryInv s) (hx : s.cache.x.toNat < 128) :
    ∃ t, exec (.writeData d) s = .next t ∧ RunsTo t fun u =>
      EngineFrame s u ∧ ∃ other, Wrote s.cache.x.toNat s.cache.y.toNat d other (viewOf s) (viewOf u) := by
  obtain ⟨body, tail, h⟩ := writeRun (agrees_of_idle hfree.1 hcursor) (viewOf_bare s) hlegal.1 hx
    (memOk_of_memoryInv hm) d
  exact ⟨_, exec_writeData hfree, h.runs (pre := []) hfree hchips rfl rfl .nil (Nat.zero_le _)⟩

/-! ### What a write leaves, pixel by pixel and byte by byte -/

/-- The logical pixel at a column and a row of a view (R103, R147). -/
def View.pixel (v : View) (i j : Nat) : Bool := (v.logical (chipOf i) (pageOf j) (colOf i)).getLsbD (yoff j)

theorem viewOf_pixel (s : State) (i j : Nat) : (viewOf s).pixel i j = logicalPixel s i j := by
  rw [View.pixel, viewOf_logical]
  rfl

theorem chipOf_colOf_inj {i x : Nat} (hi : i < Config.width) (hx : x < Config.width) :
    (chipOf i = chipOf x ∧ colOf i = colOf x) ↔ i = x := by
  rw [← displayColumn_spec _ _ x hx, (displayColumn_spec _ _ i hi).mpr ⟨rfl, rfl⟩]

section
variable {x y : Nat} {d : Byte} {other : Option (BitVec 6)} {v w : View} (h : Wrote x y d other v w)
include h

/-- A write reaches the eight rows of its column from its own down, and no other pixel but perhaps those of one byte
of page 7 (R110, R146). -/
theorem Wrote.pixel {i j : Nat} (hx : x < Config.width) (hy : y < 64) (hi : i < Config.width) (hj : j < 64)
    (hother : ¬(chipOf i = chipOf x ∧ j / 8 = 7 ∧ some (colOf i) = other)) :
    w.pixel i j = if i = x ∧ y ≤ j ∧ j < y + 8 then d.getLsbD (j - y) else v.pixel i j := by
  have hpage : (pageOf j).toNat = j / 8 := (eq_pageOf hj).mp rfl
  have hrow : 8 * (pageOf j).toNat + yoff j = j := by rw [hpage]; exact Nat.div_add_mod j 8
  have hbit : yoff j < 8 := Nat.mod_lt j (by decide)
  rw [View.pixel, h.byte, getLsbD_writtenByte hy hbit, hrow]
  · simp only [chipOf_colOf_inj hi hx, View.pixel]
  · rintro ⟨hk, hp, hc⟩
    refine hother ⟨hk, ?_, hc⟩
    rw [← hpage, hp]
    rfl

theorem Wrote.ram {k : Chip} {p : BitVec 3} {c : BitVec 6} (hother : ¬(k = chipOf x ∧ p = 7 ∧ some c = other))
    (hcell : ∀ old, writtenByte x y d k p c old = old) : w.ram k p c = v.ram k p c := by
  have hbyte := congrArg (onBus v.invert) (h.byte k p c hother)
  rwa [hcell, View.logical, View.logical, h.frame.invert, onBus_onBus, onBus_onBus] at hbyte

theorem Wrote.bit {p : BitVec 3} {i : Nat} (hy : y < 64) (hi : i < 8)
    (hrow : 8 * p.toNat + i < y ∨ y + 8 ≤ 8 * p.toNat + i) :
    (w.logical (chipOf x) p (colOf x)).getLsbD i = (v.logical (chipOf x) p (colOf x)).getLsbD i := by
  rw [h.byte _ _ _ fun hcell => h.other_ne hcell.2.2.symm, getLsbD_writtenByte hy hi, if_neg (by omega)]

end

theorem columnByte_of_view (s : State) (x : Nat) (p : BitVec 3) :
    columnByte s x p = (viewOf s).logical (chipOf x) p (colOf x) := (viewOf_logical ..).symm

theorem power_of_view {s u : State} (h : ∀ k, ((viewOf u).dev k).power = ((viewOf s).dev k).power) (j : Chip) :
    (u.dev j).on = (s.dev j).on ∧ (u.dev j).start = (s.dev j).start := by
  have hj := h j
  rw [viewOf_dev, viewOf_dev] at hj
  exact Prod.mk.inj hj

/-- Settles O18: a write above page 7, told bit by bit. -/
theorem writeDataSplitWritesEightRows : Obligations.WriteDataSplitWritesEightRows := by
  intro d s hfree hchips hcursor hlegal hm hx ho h7 x y p
  have hy : y < 64 := s.cache.y.isLt
  have hpage : p = pageOf y := hlegal.1.2
  have hpn : p.toNat = y / 8 := (eq_pageOf hy).mp hpage
  have hrow : y / 8 < 7 := hpn ▸ h7
  obtain ⟨t, hexec, hruns⟩ := writeData_runs d hfree hchips hcursor hlegal hm hx
  refine ⟨t, hexec, hruns.imp fun u ⟨hframe, other, h⟩ => ?_⟩
  have hnone : other = none := h.other_none (by omega)
  refine ⟨hframe, h.frame.clientFrame rfl, h.atX, BitVec.eq_of_toNat_eq h.atY, h.page.trans hpage.symm, ?_, ?_,
    power_of_view h.power, fun i hi => ?_, fun i hi => ?_, fun i hi hi8 => ?_, fun j q c hcell => ?_⟩
  · exact h.colStale.trans (decide_eq_false fun e => e.2 hrow)
  · exact h.pageStale.trans (decide_eq_decide.mpr ⟨fun e => e.2.2, fun e => ⟨ho, hrow, e⟩⟩)
  · rw [← viewOf_pixel, h.pixel hx hy hx (by omega) (by simp [hnone]), if_pos (by omega), Nat.add_sub_cancel_left]
  · rw [columnByte_of_view, columnByte_of_view, h.bit hy (by omega) (by omega)]
  · have hsucc : (p + 1).toNat = y / 8 + 1 := (eq_pageOf_succ hrow).mp (by rw [hpage])
    rw [columnByte_of_view, columnByte_of_view, h.bit hy hi8 (by omega)]
  · rw [← viewOf_ram, ← viewOf_ram]
    refine h.ram (by simp [hnone]) fun old => ?_
    rw [writtenByte_above hrow, ← hpage, if_neg fun ⟨hj, hq, hc⟩ => hcell ⟨hj, hc, .inr hq⟩,
      if_neg fun ⟨hj, hq, hc⟩ => hcell ⟨hj, hc, .inl hq⟩]

/-- Settles O19: a write at page 7, told bit by bit, and the column that its spill may reach. -/
theorem writeDataSplitAtPageSeven : Obligations.WriteDataSplitAtPageSeven := by
  intro d s hfree hchips hcursor hlegal hm hx ho h7 x y
  have hy : y < 64 := s.cache.y.isLt
  have hpage : pageOf y = 7 := hlegal.1.2.symm.trans h7
  have hrow : y / 8 = 7 := ((eq_pageOf hy).mp hpage.symm).symm
  obtain ⟨t, hexec, hruns⟩ := writeData_runs d hfree hchips hcursor hlegal hm hx
  refine ⟨t, hexec, hruns.imp fun u ⟨hframe, other, h⟩ => ?_⟩
  refine ⟨hframe, h.frame.clientFrame rfl, h.atX, BitVec.eq_of_toNat_eq h.atY, h.page.trans hpage, ?_, ?_,
    power_of_view h.power, fun i hi => ?_, fun i hi => ?_, other.getD (colOf x), fun j q c hcell => ?_⟩
  · exact h.colStale.trans (decide_eq_true ⟨ho, by omega⟩)
  · exact h.pageStale.trans (decide_eq_false (by omega))
  · rw [← viewOf_pixel, h.pixel hx hy hx (by omega) fun hcell => h.other_ne hcell.2.2.symm, if_pos (by omega),
      Nat.add_sub_cancel_left]
  · have hseven : (7 : BitVec 3).toNat = 7 := rfl
    rw [columnByte_of_view, columnByte_of_view, h.bit hy (by omega) (by omega)]
  · rw [← viewOf_ram, ← viewOf_ram]
    refine h.ram (fun ⟨hj, hq, hc⟩ => hcell ⟨hj, hq, .inr ?_⟩) fun old => ?_
    · rw [← hc, Option.getD_some]
    · rw [writtenByte_last (by omega), hpage, if_neg fun ⟨hj, hq, hc⟩ => hcell ⟨hj, hq, .inl hc⟩]

end Sys2Proof.Machine
end

-- Proofs: `setDot` on the display (O42)
section
/-! SUPPORT. The run of `setDot`: the cursor brought to the pixel, and the eight rows of the buffer from the pixel down
written there (R143 to R146). -/

namespace Sys2Proof.Machine

/-- The buffer page that display row `y` shows (R48, R143). -/
def dotRow (y : Nat) (client : Client) : Nat := y / 8 + client.startline.toNat / 8

/-- The state `setDot` starts its bus cycles from: the pixel painted in the buffer (R143). -/
def dotState (x y : Nat) (color : Color) (s : State) : State :=
  { s with client := { s.client with buf := paintedBuf s.client.buf (dotRow y s.client) x (y % 8) color } }

/-- The byte that `setDot` writes: the buffer's window from the pixel down (R146). -/
def dotWindow (x y : Nat) (u : State) : Byte := dotByte u.client.buf (dotRow y u.client) x (y % 8)

theorem exec_setDot {x y : Byte} {color : Color} {s : State} (hfree : EngineFree s) (hx0 : 0 < x.toNat)
    (hx : x.toNat < Config.width) (hy0 : 0 < y.toNat) (hy : y.toNat < Config.height)
    (hrow : dotRow y.toNat s.client < Config.pagesTotal) :
    exec (.setDot x y color) s
      = .next (issue (dotPlan s.invert x.toNat y.toNat
          (dotWindow x.toNat y.toNat (dotState x.toNat y.toNat color s)) s.cache).1
          (dotState x.toNat y.toNat color s)) := by
  have hbounds : dotInBounds x.toNat y.toNat = true := by simp [dotInBounds, hx0, hx, hy0, hy]
  rw [exec, execSetDot, guarded_of_free hfree, if_pos hbounds]
  exact if_pos hrow

/-- A row inside the visible window is one of the buffer's (R39, R48). -/
theorem dotRow_lt {y : Nat} {s : State} (hstart : StartlineInv s) (hy : y < 64) :
    dotRow y s.client < Config.pagesTotal := by
  obtain ⟨-, hmax⟩ := hstart
  simp only [dotRow, Config.startlineMax, Config.pagesTotal, Config.screens] at *
  omega

/-- A write told from a view that `gotoXY` left is told from the view before it. -/
theorem Wrote.of_goneTo {x y a b : Nat} {d : Byte} {other : Option (BitVec 6)} {v w : View}
    (h : Wrote x y d other (v.goneTo a b) w) : Wrote x y d other v w := by
  have hframe := goneTo_frame a b v
  have hlogical : (v.goneTo a b).logical = v.logical := by
    funext k p c
    rw [View.logical, hframe.invert, goneTo_ram]
    rfl
  refine ⟨hframe.trans h.frame, h.atX, h.atY, h.page, h.pageStale, h.colStale, fun k => ?_, ?_, h.other_none, h.other_ne⟩
  · rw [h.power, goneTo_dev]
    rfl
  · rw [← hlogical]
    exact h.byte

/-- `setDot` inside its bounds runs: a write of the buffer's window at the pixel (R143 to R146). -/
theorem setDot_runs {x y : Byte} {color : Color} {s : State} (hfree : EngineFree s) (hchips : ChipsAnswer s)
    (hcursor : CursorInv s) (hm : MemoryInv s) (hstart : StartlineInv s) (hx0 : 0 < x.toNat) (hx : x.toNat < 128)
    (hy0 : 0 < y.toNat) (hy : y.toNat < 64) :
    let s1 := dotState x.toNat y.toNat color s
    ∃ t, exec (.setDot x y color) s = .next t ∧ RunsTo t fun u =>
      EngineFrame s u ∧ ∃ other, Wrote x.toNat y.toNat (dotWindow x.toNat y.toNat s1) other (viewOf s1) (viewOf u) := by
  intro s1
  have hpages : PagesAgree (viewOf s1).addressing := (agrees_of_idle hfree.1 hcursor).pages
  obtain ⟨hat, hcache, -⟩ := goneTo_homed hx hy (viewOf_bare s1)
  have hgoto : opsEffect (gotoPlan x.toNat y.toNat s1.cache).1 (viewOf s1) = (viewOf s1).goneTo x.toNat y.toNat :=
    opsEffect_goto hx hy hpages (viewOf_bare s1)
  have hmem : (viewOf s1).MemOk := memOk_of_memoryInv (s := s) hm
  obtain ⟨body, tail, h⟩ := writeRun hat.agrees hat.bare (hat.legal (Nat.le_of_lt hx)) (by rw [hat.atX]; exact hx)
    (goneTo_memOk hmem) (dotWindow x.toNat y.toNat s1)
  obtain ⟨hplain, hwaits, -⟩ := plain_goto x.toNat y.toNat s1.cache
  have hruns := h.runs (s := s1) hfree hchips hgoto hplain (PlanWaited.goto _ _ _) hwaits
  rw [hat.atX, hat.atY, (goneTo_frame _ _ _).invert, hcache, ← goto_cache hx hy] at hruns
  exact ⟨_, exec_setDot hfree hx0 hx hy0 hy (dotRow_lt hstart hy),
    hruns.imp fun u ⟨hframe, other, hwrote⟩ => ⟨hframe, other, hwrote.of_goneTo⟩⟩

/-! ### The window byte -/

/-- The window that starts at bit `b` of a byte takes its high bits, and then the low bits of the next (R146). -/
theorem getLsbD_windowByte {b i : Nat} (hb : b < 8) (hi : i < 8) (cell nxt : Byte) :
    (windowByte b cell nxt).getLsbD i = if b + i < 8 then cell.getLsbD (b + i) else nxt.getLsbD (b + i - 8) := by
  rw [windowByte, BitVec.getLsbD_or, BitVec.getLsbD_ushiftRight, BitVec.getLsbD_shiftLeft]
  split
  · have hlow : i < 8 - b := by omega
    simp [hlow]
  · rw [BitVec.getLsbD_of_ge cell (b + i) (by omega)]
    have hhigh : ¬ i < 8 - b := by omega
    have hindex : i - (8 - b) = b + i - 8 := by omega
    simp [hhigh, hi, hindex]

/-- Bit `i` of the window is the buffer's bit `i` rows below the pixel (R48, R146). -/
theorem getLsbD_dotWindow {x y i : Nat} {u : State} (hstart : StartlineInv u) (hi : i < 8) (hy : y + i < 64) :
    (dotWindow x y u).getLsbD i
      = (bufByte u ((u.client.startline.toNat + y + i) / 8) x).getLsbD ((y + i) % 8) := by
  obtain ⟨hmul, hmax⟩ := hstart
  simp only [Config.startlineMax, Config.screens] at hmax
  rw [dotWindow, dotByte, getLsbD_windowByte (Nat.mod_lt y (by decide)) hi]
  unfold bufByte dotRow
  split
  · have hrow : (u.client.startline.toNat + y + i) / 8 = y / 8 + u.client.startline.toNat / 8 := by omega
    have hbit : (y + i) % 8 = y % 8 + i := by omega
    rw [hrow, hbit]
  · have hrow : (u.client.startline.toNat + y + i) / 8 = y / 8 + u.client.startline.toNat / 8 + 1 := by omega
    have hbit : (y + i) % 8 = y % 8 + i - 8 := by omega
    rw [hrow, hbit, if_pos (by simp only [Config.pagesTotal, Config.screens]; omega)]

/-- Settles O42: the write's eight rows are the buffer's window, and a write reaches no other pixel but those that a
spill may. -/
theorem setDotWritesTheBufferWindow : Obligations.SetDotWritesTheBufferWindow := by
  intro x y color s hfree hchips hcursor hm hstart hx0 hx hy0 hy
  obtain ⟨t, hexec, hruns⟩ := setDot_runs (color := color) hfree hchips hcursor hm hstart hx0 hx hy0 hy
  refine ⟨t, hexec, hruns.imp fun u ⟨hframe, other, h⟩ => ⟨fun i hi hyi => ?_, other, h.other_none, h.other_ne,
    fun i j hi hj hout hother => ?_⟩⟩
  · have hclient : u.client = (dotState x.toNat y.toNat color s).client := h.frame.client
    have hbit := getLsbD_dotWindow (x := x.toNat) (u := dotState x.toNat y.toNat color s) hstart hi hyi
    rw [← viewOf_pixel, h.pixel hx hy hx hyi fun hcell => h.other_ne hcell.2.2.symm, if_pos (by omega),
      Nat.add_sub_cancel_left, hbit, bufByte, bufByte, hclient]
    rfl
  · rw [← viewOf_pixel, h.pixel hx hy hi hj hother, if_neg hout, viewOf_pixel]
    rfl

end Sys2Proof.Machine
end

-- Proofs: one sample of the ADC handler (O28)
section
/-! SUPPORT. One sample of the ADC handler, register by register (R124 to R130): what it stores, what it counts, and
which coordinate it latches or filters. -/

namespace Sys2Proof.Machine

theorem otherAxis_ne (a : Axis) : otherAxis a ≠ a := by cases a <;> decide

/-! ### The three stores -/

theorem rawOf_storeRaw (a b : Axis) (v : TouchWord) (t : Touch) :
    rawOf (storeRaw a v t) b = if b = a then v else rawOf t b := by cases a <;> cases b <;> rfl

theorem firstOf_storeFirst (a b : Axis) (v : TouchWord) (t : Touch) :
    firstOf (storeFirst a v t) b = if b = a then v else firstOf t b := by cases a <;> cases b <;> rfl

theorem filtOf_storeFiltered (a b : Axis) (v : TouchWord) (t : Touch) :
    filtOf (storeFiltered a v t) b = if b = a then filterStep t.lowPassEnabled (filtOf t a) v else filtOf t b := by
  cases a <;> cases b <;> rfl

/-- The registers that a sample does not write: the axis, the conversion result and the low-pass flag. -/
structure SameControls (t u : Touch) : Prop where
  axis : u.axis = t.axis
  adcMem : u.adcMem = t.adcMem
  lowPassEnabled : u.lowPassEnabled = t.lowPassEnabled

theorem SameControls.trans {t u v : Touch} (h : SameControls t u) (g : SameControls u v) : SameControls t v :=
  ⟨g.axis.trans h.axis, g.adcMem.trans h.adcMem, g.lowPassEnabled.trans h.lowPassEnabled⟩

theorem storeRaw_controls (a : Axis) (v : TouchWord) (t : Touch) : SameControls t (storeRaw a v t) := by
  cases a <;> exact ⟨rfl, rfl, rfl⟩

theorem storeFirst_controls (a : Axis) (v : TouchWord) (t : Touch) : SameControls t (storeFirst a v t) := by
  cases a <;> exact ⟨rfl, rfl, rfl⟩

theorem storeFiltered_controls (a : Axis) (v : TouchWord) (t : Touch) : SameControls t (storeFiltered a v t) := by
  cases a <;> exact ⟨rfl, rfl, rfl⟩

theorem firstOf_storeRaw (a b : Axis) (v : TouchWord) (t : Touch) : firstOf (storeRaw a v t) b = firstOf t b := by
  cases a <;> rfl

theorem filtOf_storeRaw (a b : Axis) (v : TouchWord) (t : Touch) : filtOf (storeRaw a v t) b = filtOf t b := by
  cases a <;> rfl

theorem rawOf_storeFirst (a b : Axis) (v : TouchWord) (t : Touch) : rawOf (storeFirst a v t) b = rawOf t b := by
  cases a <;> rfl

theorem filtOf_storeFirst (a b : Axis) (v : TouchWord) (t : Touch) : filtOf (storeFirst a v t) b = filtOf t b := by
  cases a <;> rfl

theorem rawOf_storeFiltered (a b : Axis) (v : TouchWord) (t : Touch) :
    rawOf (storeFiltered a v t) b = rawOf t b := by cases a <;> rfl

theorem firstOf_storeFiltered (a b : Axis) (v : TouchWord) (t : Touch) :
    firstOf (storeFiltered a v t) b = firstOf t b := by cases a <;> rfl

/-! ### An accepted sample -/

section
variable (p : TouchParams) (a b : Axis) (v : TouchWord) (t : Touch)

theorem acceptSample_controls : SameControls t (acceptSample p a v t) := by
  unfold acceptSample
  split
  · exact ⟨rfl, rfl, rfl⟩
  · split
    · exact storeFirst_controls a v t
    · exact storeFiltered_controls a v t

theorem acceptSample_settleCounter : (acceptSample p a v t).settleCounter = t.settleCounter := by
  unfold acceptSample
  split
  · rfl
  · split <;> cases a <;> rfl

theorem rawOf_acceptSample : rawOf (acceptSample p a v t) b = rawOf t b := by
  unfold acceptSample
  split
  · rfl
  · split
    · exact rawOf_storeFirst a b v t
    · exact rawOf_storeFiltered a b v t

/-- The counter values `T` and `T + 1` latch (R128). -/
theorem firstOf_acceptSample :
    firstOf (acceptSample p a v t) b
      = if (p.settleThreshold ≤ t.settleCounter.toNat ∧ t.settleCounter.toNat ≤ p.settleThreshold + 1) ∧ b = a
        then v else firstOf t b := by
  unfold acceptSample
  split
  · rw [if_neg (by omega)]
  · rename_i hT
    split
    · rename_i hn
      simp only [firstOf_storeFirst, hn, Nat.not_lt.mp hT, true_and]
    · rename_i hn
      rw [firstOf_storeFiltered, if_neg fun h => hn h.1.2]

/-- From the counter value `T + 2` on a sample is filtered (R129). -/
theorem filtOf_acceptSample :
    filtOf (acceptSample p a v t) b
      = if p.settleThreshold + 1 < t.settleCounter.toNat ∧ b = a
        then filterStep t.lowPassEnabled (filtOf t a) v else filtOf t b := by
  unfold acceptSample
  split
  · rw [if_neg (by omega)]
  · split
    · rename_i hn
      rw [filtOf_storeFirst, if_neg (by omega)]
    · rename_i hn
      simp only [filtOf_storeFiltered, Nat.not_le.mp hn, true_and]

end

/-! ### One run of the ADC handler on the touch registers -/

/-- The reading of a sample (R125). -/
def reading (t : Touch) : TouchWord := t.adcMem.setWidth 16

/-- Whether the sample is judged in window, its reading stored (R124). -/
def sampleInWindow (p : TouchParams) (t : Touch) : Bool :=
  windowOk p t.axis (storeRaw t.axis (reading t) t).rawX (storeRaw t.axis (reading t) t).rawY (reading t)

/-- The touch registers with the reading stored and the sample counted (R125 to R127). -/
def countSample (p : TouchParams) (t : Touch) : Touch :=
  { storeRaw t.axis (reading t) t with settleCounter := settleNext p (sampleInWindow p t) t.settleCounter }

theorem storeRaw_settleCounter (a : Axis) (v : TouchWord) (t : Touch) :
    (storeRaw a v t).settleCounter = t.settleCounter := by cases a <;> rfl

theorem takeSample_eq (p : TouchParams) (t : Touch) :
    takeSample p t
      = if sampleInWindow p t then acceptSample p t.axis (reading t) (countSample p t) else countSample p t := by
  rw [countSample, ← storeRaw_settleCounter t.axis (reading t) t]
  rfl

section
variable (p : TouchParams) (t : Touch) (b : Axis)

theorem countSample_controls : SameControls t (countSample p t) := by
  obtain ⟨haxis, hmem, hlow⟩ := storeRaw_controls t.axis (reading t) t
  exact ⟨haxis, hmem, hlow⟩

theorem countSample_settleCounter :
    (countSample p t).settleCounter = settleNext p (sampleInWindow p t) t.settleCounter := rfl

theorem rawOf_countSample : rawOf (countSample p t) b = if b = t.axis then reading t else rawOf t b := by
  rw [← rawOf_storeRaw]
  cases b <;> rfl

theorem firstOf_countSample : firstOf (countSample p t) b = firstOf t b := by
  refine Eq.trans ?_ (firstOf_storeRaw t.axis b (reading t) t)
  cases b <;> rfl

theorem filtOf_countSample : filtOf (countSample p t) b = filtOf t b := by
  refine Eq.trans ?_ (filtOf_storeRaw t.axis b (reading t) t)
  cases b <;> rfl

theorem takeSample_controls : SameControls t (takeSample p t) := by
  rw [takeSample_eq]
  split
  · exact (countSample_controls p t).trans (acceptSample_controls ..)
  · exact countSample_controls p t

theorem adcTransition_axis : (adcTransition p t).axis = otherAxis t.axis :=
  congrArg otherAxis (takeSample_controls p t).axis

theorem adcTransition_mux : (adcTransition p t).mux = Config.muxConfig (otherAxis t.axis) :=
  congrArg (fun a => Config.muxConfig (otherAxis a)) (takeSample_controls p t).axis

theorem adcTransition_adcMem : (adcTransition p t).adcMem = t.adcMem := (takeSample_controls p t).adcMem

theorem adcTransition_lowPassEnabled : (adcTransition p t).lowPassEnabled = t.lowPassEnabled :=
  (takeSample_controls p t).lowPassEnabled

theorem rawOf_switchAxis : rawOf (switchAxis p t) b = rawOf t b := by cases b <;> rfl

theorem firstOf_switchAxis : firstOf (switchAxis p t) b = firstOf t b := by cases b <;> rfl

theorem filtOf_switchAxis : filtOf (switchAxis p t) b = filtOf t b := by cases b <;> rfl

/-- What the counter becomes (R126, R127). -/
theorem adcTransition_settleCounter :
    (adcTransition p t).settleCounter = settleNext p (sampleInWindow p t) t.settleCounter := by
  show (takeSample p t).settleCounter = _
  rw [takeSample_eq]
  split
  · exact acceptSample_settleCounter ..
  · exact countSample_settleCounter p t

/-- The reading is stored for its own axis, judged in window or not (R125). -/
theorem rawOf_adcTransition :
    rawOf (adcTransition p t) b = if b = t.axis then reading t else rawOf t b := by
  rw [adcTransition, rawOf_switchAxis, takeSample_eq, ← rawOf_countSample p]
  split
  · exact rawOf_acceptSample ..
  · rfl

/-- An in-window sample that brings the counter to `T` or `T + 1` is latched for its axis, and no other sample is
(R128). -/
theorem firstOf_adcTransition :
    firstOf (adcTransition p t) b
      = if sampleInWindow p t = true ∧ (p.settleThreshold ≤ (adcTransition p t).settleCounter.toNat
            ∧ (adcTransition p t).settleCounter.toNat ≤ p.settleThreshold + 1) ∧ b = t.axis
        then reading t else firstOf t b := by
  rw [adcTransition_settleCounter, adcTransition, firstOf_switchAxis, takeSample_eq]
  split
  · rename_i hwindow
    simp only [firstOf_acceptSample, firstOf_countSample, countSample_settleCounter, hwindow, true_and]
  · rename_i hwindow
    rw [firstOf_countSample, if_neg fun h => hwindow h.1]

/-- An in-window sample that brings the counter past `T + 1` is filtered for its axis, and no other sample is
(R129). -/
theorem filtOf_adcTransition :
    filtOf (adcTransition p t) b
      = if sampleInWindow p t = true ∧ p.settleThreshold + 1 < (adcTransition p t).settleCounter.toNat ∧ b = t.axis
        then filterStep t.lowPassEnabled (filtOf t t.axis) (reading t) else filtOf t b := by
  rw [adcTransition_settleCounter, adcTransition, filtOf_switchAxis, takeSample_eq]
  split
  · rename_i hwindow
    simp only [filtOf_acceptSample, filtOf_countSample, countSample_settleCounter,
      (countSample_controls p t).lowPassEnabled, hwindow, true_and]
  · rename_i hwindow
    rw [filtOf_countSample, if_neg fun h => hwindow h.1]

end

/-- Settles O28: the switch is the handler's last step, whatever the sample. -/
theorem restartVariantConvertsAtOnce : Obligations.RestartVariantConvertsAtOnce :=
  fun p t => ⟨rfl, adcTransition_axis p t⟩

end Sys2Proof.Machine
end

-- Proofs: the runs of the timer and ADC handlers, the events, the shared registers (O25 to O27, O32, O33)
section
/-! SUPPORT. The handlers that run to completion within their step, in the registers they leave (R120, R123, R167), and
what the window and the counter make of a sample (R124 to R130). -/

namespace Sys2Proof.Machine

/-- A takeable interrupt finds interrupts enabled (R166, R167). -/
theorem takeable_gie {src : Source} {s : State} (h : takeable src s = true) : s.host.gie = true := by
  simp only [takeable, Bool.and_eq_true] at h
  obtain ⟨⟨⟨-, hgie⟩, -⟩, -⟩ := h
  exact hgie

/-- Settles O25: taking and returning restore the foreground, and between them the handler's two writes stand. -/
theorem timerHandlerStartsAConversion : Obligations.TimerHandlerStartsAConversion := by
  intro s htake
  have htouch : (if s.touch.adc = .idle then { s.touch with adc := .converting } else s.touch)
      = { s.touch with adc := if s.touch.adc = .idle then .converting else s.touch.adc } := by split <;> rfl
  rw [exec, execIsrTimer, if_pos htake]
  simp only [returnFromInterrupt, timerHandler, takeInterrupt, htouch, (takeable_idle htake).2, takeable_gie htake]

/-- A run of the ADC handler, taken and returned from (R123, R125, R167). -/
theorem exec_isrAdc {s : State} (htake : takeable .adc s = true) :
    exec .isrAdc s
      = .next
          { s with
            touch := adcTransition Config.touchParams s.touch
            host := { s.host with
                      adcIfg := false
                      wake := true
                      savedPc := s.host.pc
                      savedLpm := s.host.lpm
                      savedGie := true } } := by
  rw [exec, execIsrAdc, if_pos htake]
  simp only [returnFromInterrupt, adcHandler, takeInterrupt, (takeable_idle htake).2, takeable_gie htake]

/-- Settles O26: what the handler does to the touch registers, register by register, and to nothing else. -/
theorem adcHandlerAlwaysSwitchesTheAxis : Obligations.AdcHandlerAlwaysSwitchesTheAxis := by
  intro s htake
  refine ⟨_, exec_isrAdc htake, ?_, ?_, ?_, ?_, adcTransition_axis .., adcTransition_mux .., rfl,
    adcTransition_adcMem .., adcTransition_lowPassEnabled .., rfl, rfl⟩
  · exact (rawOf_adcTransition ..).trans (if_pos rfl)
  · exact (rawOf_adcTransition ..).trans (if_neg (otherAxis_ne _))
  · exact (filtOf_adcTransition ..).trans (if_neg fun ⟨_, _, hb⟩ => otherAxis_ne _ hb)
  · exact (firstOf_adcTransition ..).trans (if_neg fun ⟨_, _, hb⟩ => otherAxis_ne _ hb)

/-- The window check over both last readings (R124). -/
theorem windowOk_pair {p : TouchParams} (h : p.windowCheck = .pair) (a : Axis) (x y raw : TouchWord) :
    windowOk p a x y raw = true
      ↔ (p.windows.xLo ≤ x.toNat ∧ x.toNat ≤ p.windows.xHi)
        ∧ p.windows.yLo ≤ y.toNat ∧ y.toNat ≤ p.windows.yHi := by
  simp only [windowOk, h, inX, inY, Bool.and_eq_true, decide_eq_true_eq]

/-- The window check of the machine's own handler, in the readings the handler leaves (R7, R124). -/
theorem sampleInWindow_iff (t : Touch) :
    sampleInWindow Config.touchParams t = true
      ↔ (Config.windows.xLo ≤ (rawOf (adcTransition Config.touchParams t) .x).toNat
            ∧ (rawOf (adcTransition Config.touchParams t) .x).toNat ≤ Config.windows.xHi)
        ∧ Config.windows.yLo ≤ (rawOf (adcTransition Config.touchParams t) .y).toNat
        ∧ (rawOf (adcTransition Config.touchParams t) .y).toNat ≤ Config.windows.yHi := by
  have hstored : ∀ b, rawOf (adcTransition Config.touchParams t) b = rawOf (storeRaw t.axis (reading t) t) b :=
    fun b => by rw [rawOf_adcTransition, rawOf_storeRaw]
  rw [hstored, hstored]
  exact windowOk_pair rfl ..

/-- An in-window sample counts, up to `T + 2` (R127). -/
theorem settleNext_inWindow {p : TouchParams} (hT : p.settleThreshold ≤ 253) (c : BitVec 8) :
    (settleNext p true c).toNat = min (c.toNat + 1) (p.settleThreshold + 2) := by
  rw [settleNext, if_pos rfl, BitVec.toNat_ofNat]
  exact Nat.mod_eq_of_lt (by omega)

/-- A conversion result keeps its value in a touch register. -/
theorem reading_toNat (t : Touch) : (reading t).toNat = t.adcMem.toNat := by
  rw [reading, BitVec.toNat_setWidth]
  exact Nat.mod_eq_of_lt (Nat.lt_trans t.adcMem.isLt (by decide))

/-- The filter step as a number: the sum fits (R129). -/
theorem filterStep_toNat {lowPass : Bool} {f v : TouchWord} (hv : v.toNat < 2 ^ 14) :
    (filterStep lowPass f v).toNat = if lowPass then (3 * f.toNat + v.toNat) / 4 else v.toNat := by
  have hf := f.isLt
  unfold filterStep
  split
  · rw [BitVec.toNat_ofNat]
    exact Nat.mod_eq_of_lt (by omega)
  · rfl

/-- Settles O27: the window decides what is counted, and the counter what becomes of the reading. -/
theorem adcHandlerJudgesItsSample : Obligations.AdcHandlerJudgesItsSample := by
  intro s t htake hexec
  have htouch : t.touch = adcTransition Config.touchParams s.touch := by
    rw [exec_isrAdc htake] at hexec
    cases hexec
    rfl
  have hcount := adcTransition_settleCounter Config.touchParams s.touch
  have hfirst := firstOf_adcTransition Config.touchParams s.touch
  have hfilt := filtOf_adcTransition Config.touchParams s.touch
  have hthreshold : Config.touchParams.settleThreshold = 30 := rfl
  rw [htouch]
  refine ⟨fun hout => ?_, fun hin => ?_⟩
  · rw [← sampleInWindow_iff, Bool.not_eq_true] at hout
    simp only [hout, Bool.false_eq_true, false_and, if_false] at hcount hfirst hfilt
    exact ⟨congrArg BitVec.toNat hcount, adcTransition_lowPassEnabled .., fun b => ⟨hfilt b, hfirst b⟩⟩
  · rw [← sampleInWindow_iff] at hin
    rw [hin] at hcount
    simp only [hin, true_and, hthreshold] at hfirst hfilt
    refine ⟨?_, fun hn b => ⟨?_, ?_⟩, fun hlow hhigh => ⟨?_, ?_, fun b => ?_⟩, fun hn => ⟨fun b => ?_, ?_, ?_⟩⟩
    · exact (congrArg BitVec.toNat hcount).trans (settleNext_inWindow (by decide) _)
    · exact (hfilt b).trans (if_neg (by omega))
    · exact (hfirst b).trans (if_neg (by omega))
    · exact (hfirst _).trans (if_pos ⟨⟨hlow, hhigh⟩, rfl⟩)
    · exact (hfirst _).trans (if_neg fun ⟨_, hb⟩ => otherAxis_ne _ hb)
    · exact (hfilt b).trans (if_neg (by omega))
    · exact (hfirst b).trans (if_neg (by omega))
    · exact (hfilt _).trans (if_neg fun ⟨_, hb⟩ => otherAxis_ne _ hb)
    · have hread := reading_toNat s.touch
      rw [← hread, ← filterStep_toNat (Nat.lt_trans (hread ▸ s.touch.adcMem.isLt) (by decide))]
      exact congrArg BitVec.toNat ((hfilt _).trans (if_pos ⟨hn, rfl⟩))

/-- Settles O32: each event by its own writes. -/
theorem environmentEventsAreDelivered : Obligations.EnvironmentEventsAreDelivered := by
  refine fun s => ⟨rfl, rfl, fun raw => ⟨fun hraw hadc => ?_, fun hraw => if_pos hraw⟩⟩
  exact (if_neg (Nat.not_le.mpr hraw)).trans (if_pos hadc)

theorem sharedAllowed_iff (s : State) : sharedAllowed s = true ↔ s.host.ctx = .fg ∧ s.host.gie = false := by
  simp [sharedAllowed]

/-- Settles O33: both requests look at the context first. -/
theorem sharedRegistersNeedInterruptsDisabled : Obligations.SharedRegistersNeedInterruptsDisabled := by
  refine fun s => ⟨fun hctx hgie => ?_, fun h => ?_⟩
  · have hallowed := (sharedAllowed_iff s).mpr ⟨hctx, hgie⟩
    exact ⟨if_pos hallowed, if_pos hallowed⟩
  · have hdenied : ¬ sharedAllowed s = true := fun hs => by
      obtain ⟨hctx, hgie⟩ := (sharedAllowed_iff s).mp hs
      simp [hctx, hgie] at h
    exact ⟨if_neg hdenied, if_neg hdenied⟩

end Sys2Proof.Machine
end

-- Proofs: the filter under a held sample (O29)
section

namespace Sys2Proof.Machine

/-- From above, the filter reaches the held sample in finitely many steps: each lowers the value (R136). -/
theorem filterRun_reaches {f b : TouchWord} (hb : b.toNat < 2 ^ 14) (hle : b.toNat ≤ f.toNat) :
    ∃ n, filterRun b n f = b := by
  induction hd : f.toNat using Nat.strongRecOn generalizing f with
  | ind d ih =>
    rcases Nat.eq_or_lt_of_le hle with heq | hlt
    · exact ⟨0, BitVec.eq_of_toNat_eq heq.symm⟩
    · have hstep : (filterStep true f b).toNat = (3 * f.toNat + b.toNat) / 4 := filterStep_toNat hb
      obtain ⟨n, hn⟩ := ih (filterStep true f b).toNat (by omega) (by omega) rfl
      exact ⟨n + 1, hn⟩

/-- Settles O29: a step is a quarter of the way to the sample, rounded down. -/
theorem filterConvergesToAHeldSample : Obligations.FilterConvergesToAHeldSample := by
  intro f b _ hb
  have hstep : (filterStep true f b).toNat = (3 * f.toNat + b.toNat) / 4 := filterStep_toNat hb
  refine ⟨fun h => ?_, fun h => ?_, fun hlow hhigh => BitVec.eq_of_toNat_eq ?_,
    fun h => filterRun_reaches hb (Nat.le_of_lt h)⟩
  · omega
  · omega
  · omega

end Sys2Proof.Machine
end

-- Proofs: runs of in-window samples (O30, O31)
section
/-! SUPPORT. A run of in-window samples by the value its counter starts from (R127, R128, R137, R138). -/

namespace Sys2Proof.Machine

/-- The touch registers after the ADC handler on one conversion result (R119, R125). -/
def sampled (p : TouchParams) (raw : BitVec Config.adcBits) (t : Touch) : Touch :=
  adcTransition p { t with adcMem := raw }

theorem samplesRun_cons (p : TouchParams) (raw : BitVec Config.adcBits) (l : List (BitVec Config.adcBits)) (t : Touch) :
    samplesRun p (raw :: l) t = samplesRun p l (sampled p raw t) := rfl

theorem allInWindow_cons {p : TouchParams} {raw : BitVec Config.adcBits} {l : List (BitVec Config.adcBits)}
    {t : Touch} :
    AllInWindow p (raw :: l) t
      ↔ sampleInWindow p { t with adcMem := raw } = true ∧ AllInWindow p l (sampled p raw t) := by
  have hwindow : sampleInWindow p { t with adcMem := raw }
      = windowOk p t.axis (storeRaw t.axis (raw.setWidth 16) t).rawX (storeRaw t.axis (raw.setWidth 16) t).rawY
          (raw.setWidth 16) := by
    rw [sampleInWindow]
    cases t.axis <;> rfl
  rw [hwindow]
  exact Iff.rfl

theorem samplesRun_append (p : TouchParams) (l l' : List (BitVec Config.adcBits)) (t : Touch) :
    samplesRun p (l ++ l') t = samplesRun p l' (samplesRun p l t) := by
  induction l generalizing t with
  | nil => rfl
  | cons raw l ih => exact ih (sampled p raw t)

theorem allInWindow_append {p : TouchParams} {l l' : List (BitVec Config.adcBits)} {t : Touch} :
    AllInWindow p (l ++ l') t ↔ AllInWindow p l t ∧ AllInWindow p l' (samplesRun p l t) := by
  induction l generalizing t with
  | nil => exact ⟨fun h => ⟨trivial, h⟩, And.right⟩
  | cons raw l ih => rw [List.cons_append, allInWindow_cons, ih, allInWindow_cons, samplesRun_cons, and_assoc]

/-! ### One sample -/

section
variable {p : TouchParams} {raw : BitVec Config.adcBits} {t : Touch} (hT : p.settleThreshold ≤ 253)
  (hin : sampleInWindow p { t with adcMem := raw } = true)
include hT hin

theorem sampled_settleCounter :
    (sampled p raw t).settleCounter.toNat = min (t.settleCounter.toNat + 1) (p.settleThreshold + 2) := by
  rw [sampled, adcTransition_settleCounter, hin]
  exact settleNext_inWindow hT t.settleCounter

/-- The samples that find the counter at `T - 1` and at `T` latch, each for its own axis (R128). -/
theorem firstOf_sampled (b : Axis) :
    firstOf (sampled p raw t) b
      = if (p.settleThreshold ≤ t.settleCounter.toNat + 1 ∧ t.settleCounter.toNat ≤ p.settleThreshold) ∧ b = t.axis
        then raw.setWidth 16 else firstOf t b := by
  have hcount := sampled_settleCounter hT hin
  have hlatch : (p.settleThreshold ≤ (sampled p raw t).settleCounter.toNat
        ∧ (sampled p raw t).settleCounter.toNat ≤ p.settleThreshold + 1)
      ↔ p.settleThreshold ≤ t.settleCounter.toNat + 1 ∧ t.settleCounter.toNat ≤ p.settleThreshold := by omega
  have hcond := (and_iff_right hin).trans (and_congr_left' (c := b = t.axis) hlatch)
  exact (firstOf_adcTransition ..).trans (ite_congr (propext hcond) (fun _ => rfl) fun _ => rfl)

/-- A sample that finds the counter at `T` or below is not filtered (R128, R129). -/
theorem filtOf_sampled (hc : t.settleCounter.toNat ≤ p.settleThreshold) (b : Axis) :
    filtOf (sampled p raw t) b = filtOf t b := by
  have hcount := sampled_settleCounter hT hin
  exact (filtOf_adcTransition ..).trans (if_neg fun h => by rw [sampled] at hcount; omega)

end

/-! ### A run -/

section
variable {p : TouchParams} {l : List (BitVec Config.adcBits)} {t : Touch} (hT : p.settleThreshold ≤ 253)
  (hin : AllInWindow p l t)
include hT hin

theorem samplesRun_settleCounter (hc : t.settleCounter.toNat ≤ p.settleThreshold + 2) :
    (samplesRun p l t).settleCounter.toNat = min (t.settleCounter.toNat + l.length) (p.settleThreshold + 2) := by
  induction l generalizing t with
  | nil => exact (Nat.min_eq_left hc).symm
  | cons raw l ih =>
    obtain ⟨hhead, htail⟩ := allInWindow_cons.mp hin
    have hcount := sampled_settleCounter hT hhead
    rw [samplesRun_cons, ih htail (by omega), hcount, List.length_cons]
    omega

/-- A run that ends before the counter reaches `T`, or starts past it, latches nothing (R137). -/
theorem firstOf_samplesRun
    (hc : t.settleCounter.toNat + l.length < p.settleThreshold ∨ p.settleThreshold < t.settleCounter.toNat) (b : Axis) :
    firstOf (samplesRun p l t) b = firstOf t b := by
  induction l generalizing t with
  | nil => rfl
  | cons raw l ih =>
    obtain ⟨hhead, htail⟩ := allInWindow_cons.mp hin
    have hcount := sampled_settleCounter hT hhead
    rw [List.length_cons] at hc
    rw [samplesRun_cons, ih htail (by omega), firstOf_sampled hT hhead, if_neg (by omega)]

/-- A run that ends before the counter passes `T + 1` filters nothing (R138). -/
theorem filtOf_samplesRun (hc : t.settleCounter.toNat + l.length < p.settleThreshold + 2) (b : Axis) :
    filtOf (samplesRun p l t) b = filtOf t b := by
  induction l generalizing t with
  | nil => rfl
  | cons raw l ih =>
    obtain ⟨hhead, htail⟩ := allInWindow_cons.mp hin
    have hcount := sampled_settleCounter hT hhead
    rw [List.length_cons] at hc
    rw [samplesRun_cons, ih htail (by omega), filtOf_sampled hT hhead (by omega)]

end

/-- Settles O31: the counter stays below `T + 2`. -/
theorem shortRunsEmitNoCoordinate : Obligations.ShortRunsEmitNoCoordinate := by
  intro p l t hT hzero hin hlength
  have hc : t.settleCounter.toNat = 0 := congrArg BitVec.toNat hzero
  have hfilt := filtOf_samplesRun hT hin (by omega)
  have hcount := samplesRun_settleCounter hT hin (by omega)
  exact ⟨hfilt .x, hfilt .y, decide_eq_false (by omega)⟩

/-! ### The two latches -/

section
variable {p : TouchParams} {l : List (BitVec Config.adcBits)} {t : Touch} {raw raw' : BitVec Config.adcBits}
  (hT : p.settleThreshold ≤ 253) (hc : t.settleCounter.toNat + 1 = p.settleThreshold)
include hT hc

/-- The sample that brings the counter to `T` is latched for its own axis alone (R128). -/
theorem latch_first (hin : AllInWindow p [raw] t) :
    firstOf (samplesRun p [raw] t) t.axis = raw.setWidth 16
      ∧ firstOf (samplesRun p [raw] t) (otherAxis t.axis) = firstOf t (otherAxis t.axis) := by
  have hfirst := firstOf_sampled hT (allInWindow_cons.mp hin).1
  exact ⟨(hfirst _).trans (if_pos ⟨by omega, rfl⟩), (hfirst _).trans (if_neg fun ⟨_, hb⟩ => otherAxis_ne _ hb)⟩

/-- The next one is latched for the other axis, and the rest of the run changes neither latch (R128, R137). -/
theorem latch_both (hin : AllInWindow p (raw :: raw' :: l) t) :
    firstOf (samplesRun p (raw :: raw' :: l) t) t.axis = raw.setWidth 16
      ∧ firstOf (samplesRun p (raw :: raw' :: l) t) (otherAxis t.axis) = raw'.setWidth 16 := by
  obtain ⟨h1, htail⟩ := allInWindow_cons.mp hin
  obtain ⟨h2, hrest⟩ := allInWindow_cons.mp htail
  have haxis : (sampled p raw t).axis = otherAxis t.axis := adcTransition_axis ..
  have hcount := sampled_settleCounter hT h1
  have hcount' := sampled_settleCounter hT h2
  have hlatched (b : Axis) : firstOf (samplesRun p (raw :: raw' :: l) t) b
      = if b = otherAxis t.axis then raw'.setWidth 16 else firstOf (sampled p raw t) b := by
    rw [samplesRun_cons, samplesRun_cons, firstOf_samplesRun hT hrest (.inr (by omega)), firstOf_sampled hT h2, haxis]
    exact ite_congr (propext (and_iff_right (by omega))) (fun _ => rfl) fun _ => rfl
  refine ⟨(hlatched _).trans ?_, (hlatched _).trans (if_pos rfl)⟩
  rw [if_neg (otherAxis_ne _).symm, firstOf_sampled hT h1, if_pos ⟨by omega, rfl⟩]

end

theorem drop_eq_getD_cons {l : List (BitVec Config.adcBits)} {i : Nat} (h : i < l.length) :
    l.drop i = l.getD i 0 :: l.drop (i + 1) := by
  rw [List.getD_eq_getElem?_getD, List.getElem?_eq_getElem h, Option.getD_some]
  exact List.drop_eq_getElem_cons h

/-- Settles O30: after `T - 1` samples the counter is `T - 1` and no latch has changed; the next two samples
latch. -/
theorem firstTouchIsLatchedOnce : Obligations.FirstTouchIsLatchedOnce := by
  intro p l t hpos hT hzero hin a
  have hc : t.settleCounter.toNat = 0 := congrArg BitVec.toNat hzero
  rw [← List.take_append_drop (p.settleThreshold - 1) l, allInWindow_append] at hin
  obtain ⟨hbefore, hfrom⟩ := hin
  have hsplit := samplesRun_append p (l.take (p.settleThreshold - 1)) (l.drop (p.settleThreshold - 1)) t
  rw [List.take_append_drop] at hsplit
  have hfirst := firstOf_samplesRun hT hbefore (.inl (by rw [List.length_take]; omega))
  have hcount := samplesRun_settleCounter hT hbefore (by omega)
  rw [hc, List.length_take] at hcount
  refine ⟨fun hlength b => ?_, fun hlength => ?_, fun hlength => ?_⟩
  · rw [← hfirst b, List.take_of_length_le (by omega)]
  · rw [drop_eq_getD_cons (by omega), Nat.sub_add_cancel hpos, List.drop_of_length_le (by omega)] at hfrom hsplit
    rw [hsplit, ← hfirst]
    exact latch_first hT (by omega) hfrom
  · rw [drop_eq_getD_cons (by omega), Nat.sub_add_cancel hpos, drop_eq_getD_cons (by omega)] at hfrom hsplit
    rw [hsplit]
    exact latch_both hT (by omega) hfrom

end Sys2Proof.Machine
end

-- Proofs: who writes the touch registers (O34, O35)
section
/-! SUPPORT. What one move of the machine does to the touch registers, said once (R131, R134): the agent whose turn it
is, and the change it makes. -/

namespace Sys2Proof.Machine

/-- What neither reads nor writes the touch registers leaves them as they are. -/
theorem IgnoresTouch.touch {f : State → Result} (hf : IgnoresTouch f) {s t : State} (h : f s = .next t) :
    t.touch = s.touch := by
  have hsame : f s = outcomeWithTouch s.touch (f s) := hf s s.touch
  rw [h] at hsame
  have hnext : t = withTouch s.touch t := Host.Outcome.next.inj hsame
  have htouch := congrArg State.touch hnext
  exact htouch

/-- What a move can do to the touch registers, by whose turn it is. -/
inductive TouchMove (s : State) : Turn → Touch → Prop
  /-- Every agent but an ADC handler that can be taken may leave them as they are. -/
  | same {turn : Turn} (h : ¬(turn = .interrupt .adc ∧ takeable .adc s = true)) : TouchMove s turn s.touch
  /-- The foreground's request toggles the low-pass filter (R132). -/
  | toggled {w : RequestWord} (hseq : s.seq = []) (hctx : s.host.ctx = .fg) (hw : nextWord s = some w)
      (hi : decodeRequest w = .ok .toggleLowpass) :
      TouchMove s .run { s.touch with lowPassEnabled := !s.touch.lowPassEnabled }
  /-- A conversion completes (R121). -/
  | completed (raw : BitVec 16) :
      TouchMove s (.event (.convDone raw)) { s.touch with adcMem := raw.setWidth Config.adcBits, adc := .done }
  /-- The timer handler starts a conversion (R120). -/
  | started (hidle : s.touch.adc = .idle) :
      TouchMove s (.interrupt .timer) { s.touch with adc := .converting }
  /-- The ADC handler runs (R125). -/
  | sampled (htake : takeable .adc s = true) :
      TouchMove s (.interrupt .adc) (adcTransition Config.touchParams s.touch)

/-- Of the requests only the toggle writes a touch register (R132 to R134). -/
theorem exec_request_touch {i : Instr} {s t : State} (hreq : i.isRequest = true) (h : exec i s = .next t) :
    t.touch = s.touch
      ∨ i = .toggleLowpass ∧ t.touch = { s.touch with lowPassEnabled := !s.touch.lowPassEnabled } := by
  cases i with
  | toggleLowpass =>
    simp only [exec, execToggleLowpass] at h
    split at h
    · cases h; exact .inr ⟨rfl, rfl⟩
    · cases h
  | snapshot => exact .inl (execSnapshot_registers h).touch
  | lpmWait => exact .inl (execLpmWait_registers h).touch
  | dint | eint => cases h; exact .inl rfl
  | cmdDisplayOn | cmdDisplayOff | cmdSetStartLine | cmdSetPage | cmdSetColumn | statusRead | dataWrite | dataRead
  | evConvDone | evTimer | evButton | isrTimer | isrAdc | isrButton => cases hreq
  | _ => exact .inl ((exec_ignoresTouch (by simp [Instr.kind])).touch h)

/-- The cycle that a step performs for the instruction it issues leaves the touch registers to the instruction. -/
theorem issueStep_touch {i : Instr} {s t : State} (h : issueStep i s = .next t) :
    ∃ u, exec i s = .next u ∧ t.touch = u.touch := by
  obtain ⟨u, hu, rfl | ht⟩ := issueStep_next h
  · exact ⟨_, hu, rfl⟩
  · exact ⟨u, hu, engineStep_ignoresTouch.touch ht⟩

theorem requestStep_next {s t : State} (h : requestStep s = .next t) :
    t = s ∨ ∃ w i, nextWord s = some w ∧ decodeRequest w = .ok i ∧ i.isRequest = true ∧ issueStep i s = .next t := by
  unfold requestStep at h
  split at h
  · exact .inl (Host.Outcome.next.inj h).symm
  · split at h
    · cases h
    · split at h
      · exact .inr ⟨_, _, ‹_›, ‹_›, ‹_›, h⟩
      · cases h

theorem runStep_touchMove {s t : State} (h : runStep s = .next t) : TouchMove s .run t.touch := by
  have hsame : TouchMove s .run s.touch := .same fun h => by cases h.1
  unfold runStep at h
  split at h
  · rename_i hseq
    split at h
    · rename_i hctx
      rcases requestStep_next h with rfl | ⟨w, i, hw, hi, hreq, h⟩
      · exact hsame
      · obtain ⟨u, hu, ht⟩ := issueStep_touch h
        rw [ht]
        rcases exec_request_touch hreq hu with hkept | ⟨rfl, htoggled⟩
        · exact hkept ▸ hsame
        · exact htoggled ▸ .toggled (List.isEmpty_iff.mp hseq) hctx hw hi
    · cases h; exact hsame
  · exact engineStep_ignoresTouch.touch h ▸ hsame

theorem execIsrButton_ignoresTouch : IgnoresTouch execIsrButton :=
  ite_ignoresTouch (fun _ _ => Iff.rfl)
    (ite_ignoresTouch (fun _ _ => Iff.rfl) (issue_ignoresTouch (fun _ _ => rfl) fun _ _ => rfl) fun _ _ => rfl)
    fun _ _ => rfl

theorem interruptStep_touchMove {src : Source} {s t : State} (h : interruptStep src s = .next t) :
    TouchMove s (.interrupt src) t.touch := by
  unfold interruptStep at h
  split at h
  · rename_i htake
    obtain ⟨u, hu, ht⟩ := issueStep_touch h
    rw [ht]
    cases src with
    | timer =>
      rw [handlerInstr, timerHandlerStartsAConversion s htake] at hu
      cases hu
      by_cases hidle : s.touch.adc = .idle
      · simpa only [if_pos hidle] using TouchMove.started hidle
      · simpa only [if_neg hidle] using TouchMove.same fun h => by cases h.1
    | adc =>
      rw [handlerInstr, exec_isrAdc htake] at hu
      cases hu
      exact .sampled htake
    | button => exact execIsrButton_ignoresTouch.touch hu ▸ .same fun h => by cases h.1
  · rename_i htake
    cases h
    exact .same fun h => htake (by cases h.1; exact h.2)

theorem event_touchMove {e : EnvEvent} {s t : State} (h : exec (eventInstr e) s = .next t) :
    TouchMove s (.event e) t.touch := by
  have hsame : TouchMove s (.event e) s.touch := .same fun h => by cases h.1
  cases e with
  | timer | button => cases h; exact hsame
  | convDone raw =>
    simp only [eventInstr, exec, execEvConvDone] at h
    split at h
    · cases h
    · split at h
      · cases h; exact .completed raw
      · cases h; exact hsame

theorem move_touchMove {turn : Turn} {s t : State} (h : move turn s = .next t) : TouchMove s turn t.touch := by
  cases turn with
  | run => exact runStep_touchMove h
  | interrupt src => exact interruptStep_touchMove h
  | event e => exact event_touchMove h

/-- Settles O34: of the changes a move can make, the toggle's is the one to the low-pass flag, and the ADC handler's
the one to the readings. -/
theorem touchRegistersHaveOneWriter : Obligations.TouchRegistersHaveOneWriter := by
  intro s t h
  have hmove := move_touchMove (step_next h).2
  generalize nextTurn s = turn, t.touch = x at hmove ⊢
  cases hmove with
  | same => exact ⟨fun _ => ⟨rfl, rfl, rfl, rfl, rfl, rfl, rfl⟩, fun hne => absurd rfl hne⟩
  | toggled hseq hctx hw hi =>
    exact ⟨fun _ => ⟨rfl, rfl, rfl, rfl, rfl, rfl, rfl⟩, fun _ => ⟨rfl, hseq, hctx, _, hw, hi⟩⟩
  | completed | started => exact ⟨fun _ => ⟨rfl, rfl, rfl, rfl, rfl, rfl, rfl⟩, fun hne => absurd rfl hne⟩
  | sampled =>
    exact ⟨fun hturn => absurd rfl hturn, fun hne => absurd (adcTransition_lowPassEnabled ..) hne⟩

/-- Settles O35: of the changes a move can make, the ADC handler's is the one to the axis, and the timer handler's the
one that leaves a conversion running. -/
theorem axisAlternatesWithEachHandlerRun : Obligations.AxisAlternatesWithEachHandlerRun := by
  intro s t h
  have hmove := move_touchMove (step_next h).2
  generalize nextTurn s = turn, t.touch = x at hmove ⊢
  cases hmove with
  | same hturn => exact ⟨(if_neg hturn).symm, fun hconv hne => absurd hconv hne⟩
  | toggled => exact ⟨(if_neg fun h => by cases h.1).symm, fun hconv hne => absurd hconv hne⟩
  | completed => exact ⟨(if_neg fun h => by cases h.1).symm, fun hconv => by cases hconv⟩
  | started hidle => exact ⟨(if_neg fun h => by cases h.1).symm, fun _ _ => ⟨hidle, rfl⟩⟩
  | sampled htake =>
    exact ⟨(adcTransition_axis ..).trans (if_pos ⟨rfl, htake⟩).symm, fun hconv => by cases hconv⟩

end Sys2Proof.Machine
end

-- Proofs: the repaint of the display (O38, O46, O48)
section
/-! SUPPORT. The run of a repaint (R153 to R155): the eight visible pages of the buffer, and then the status strip as
raw bytes over the left of chip 0's page 0. The three operations that repaint, `dumpBuffer`, `scroll` and the button
handler, read their end states off one effect. -/

namespace Sys2Proof.Machine

/-! ### The status strip -/

/-- Raw data bytes to chip 0, one after another (R155). -/
def rawRow (l : List Byte) : Plan := planEach (fun b => rawPlan b .zero true) l

theorem rawRow_plain (l : List Byte) (c : Cache) :
    plainOps (rawRow l c).1 = true ∧ waitCount (rawRow l c).1 ≤ l.length := by
  induction l generalizing c with
  | nil => exact ⟨rfl, Nat.le_refl 0⟩
  | cons b l ih =>
    obtain ⟨hplain, hwaits, -⟩ := raw_plain b .zero true c
    obtain ⟨ihplain, ihwaits⟩ := ih (rawPlan b .zero true c).2
    simp only [rawRow] at ihplain ihwaits
    simp only [rawRow, planEach, planThen, plainOps_append, waitCount_append, hplain, ihplain, List.length_cons]
    exact ⟨rfl, by omega⟩

/-- A raw byte to chip 0 is stored at the chip's own address, and marks the column stale (R111, R112). -/
theorem rawByte_effect (b : Byte) (v : View) :
    opsEffect (rawPlan b .zero true v.cache).1 v
      = { v with
          dev0 := deviceDataWrite v.dev0 b
          cache := { v.cache with colStale := true } } :=
  raw_effect b .zero true v

/-- Column `x` of a chip is the register's value, where the chip has it (R12). -/
theorem eq_colOf {c : BitVec 6} {x : Nat} (hx : x < Config.chipCols) : c = colOf x ↔ c.toNat = x := by
  rw [colOf, Nat.mod_eq_of_lt hx, ← BitVec.toNat_inj, toNat_ofNat6 hx]

/-- The effect of raw bytes to chip 0 from column `n` of page `p` on: byte `i` at column `n + i`, and the column stale
if there is any byte (R111, R112, R155). -/
theorem rawRow_effect (l : List Byte) :
    ∀ {v : View} {p : BitVec 3} {n : Nat}, v.dev0.page = p → v.dev0.col = colOf n → n + l.length ≤ Config.chipCols →
      v.MemOk →
      let w := opsEffect (rawRow l v.cache).1 v
      ViewFrame v w ∧ w.cache = { v.cache with colStale := v.cache.colStale || !l.isEmpty }
        ∧ ∀ k q c, w.ram k q c
            = if k = .zero ∧ q = p ∧ n ≤ c.toNat ∧ c.toNat < n + l.length then l.getD (c.toNat - n) 0
              else v.ram k q c := by
  induction l with
  | nil =>
    intro v p n hpage hcol hl hm
    refine ⟨.refl v, by simp [rawRow, planEach, planNone], fun k q c => ?_⟩
    rw [if_neg (by simp only [List.length_nil]; omega)]
    rfl
  | cons b l ih =>
    intro v p n hpage hcol hl hm
    simp only [List.length_cons] at hl
    let v1 : View := { v with dev0 := deviceDataWrite v.dev0 b, cache := { v.cache with colStale := true } }
    have hcol1 : v1.dev0.col = colOf (n + 1) := by
      rw [colOf_succ, ← hcol]
      rfl
    have hentries : opsEffect (rawRow (b :: l) v.cache).1 v = opsEffect (rawRow l v1.cache).1 v1 := by
      rw [rawRow, planEach, planThen, opsEffect_append, rawByte_effect]
      rfl
    obtain ⟨hframe, hcache, hram⟩ := ih (v := v1) hpage hcol1 (by omega) ⟨Memory.write_wf hm.1 _ _, hm.2⟩
    simp only [hentries]
    refine ⟨ViewFrame.trans (v := v1) ⟨rfl, rfl, rfl⟩ hframe, hcache.trans (by simp [v1]), fun k q c => ?_⟩
    have hfirst : v1.ram k q c = if k = .zero ∧ q = p ∧ c = colOf n then b else v.ram k q c := by
      rw [← hpage, ← hcol]
      exact chipEffect_write_ram hm .zero b k q c
    rw [hram, hfirst]
    simp only [eq_colOf (x := n) (by omega), List.length_cons]
    by_cases hcell : k = .zero ∧ q = p
    · obtain ⟨hk, hq⟩ := hcell
      simp only [hk, hq, true_and]
      by_cases hn : c.toNat = n
      · rw [if_neg (by omega), if_pos hn, if_pos (by omega), hn, Nat.sub_self, List.getD_cons_zero]
      · rw [if_neg hn]
        by_cases hrest : n + 1 ≤ c.toNat ∧ c.toNat < n + 1 + l.length
        · have hindex : c.toNat - n = c.toNat - (n + 1) + 1 := by omega
          rw [if_pos hrest, if_pos (by omega), hindex, List.getD_cons_succ]
        · rw [if_neg hrest, if_neg (by omega)]
    · rw [if_neg fun h => hcell ⟨h.1, h.2.1⟩, if_neg fun h => hcell ⟨h.1, h.2.1⟩, if_neg fun h => hcell ⟨h.1, h.2.1⟩]

/-! ### What a repaint keeps of the devices -/

section
variable {α β : Type} {f : Device → α} (hf : WriteProof f)

theorem Keeps.each {g : β → Plan} {l : List β} (h : ∀ b ∈ l, ∀ c, Keeps f (g b c).1) (c : Cache) :
    Keeps f (planEach g l c).1 := by
  induction l generalizing c with
  | nil => exact .nil
  | cons b l ih => exact (h b (by simp) c).append (ih (fun b' hb' => h b' (by simp [hb'])) _)

include hf

theorem Keeps.rawRow (l : List Byte) (c : Cache) : Keeps f (rawRow l c).1 :=
  .each (fun _ _ _ => (Keeps.write hf _ _).append (.cacheNote _)) c

/-- Pages of bytes, as a repaint and a clear write them, keep a reading that no data write changes. -/
theorem keeps_pages {inv : Bool} {row : Nat → List Byte} {ps : List Nat} (hps : ∀ p ∈ ps, p < Config.npages)
    (c : Cache) : Keeps f (planEach (fun p => pagePlan inv p (row p)) ps c).1 :=
  .each (fun p hp => keeps_page hf (hps p hp) (row p)) c

theorem Keeps.dump (inv : Bool) (client : Client) (c : Cache) : Keeps f (dumpPlan inv client c).1 :=
  (keeps_pages (row := fun p => bufRow client.buf (client.startline.toNat / 8 + p)) hf
    (fun _ => List.mem_range.mp) c).append ((Keeps.goto hf _ _ _).append (.rawRow hf _ _))

end

/-! ### The effect of a repaint -/

/-- The pages of a repaint: the visible window of the buffer (R153). -/
def windowPlan (inv : Bool) (client : Client) : Plan :=
  planEach (fun p => pagePlan inv p (bufRow client.buf (client.startline.toNat / 8 + p))) (List.range Config.npages)

/-- The bytes of the status strip for a client (R155). -/
def Client.strip (client : Client) : List Byte := Config.statusStrip client.modes client.startline

theorem dumpPlan_eq (inv : Bool) (client : Client) :
    dumpPlan inv client = planThen (windowPlan inv client) (planThen (gotoPlan 0 0) (rawRow client.strip)) := rfl

/-- The status strip fits the chip (R7, R155). -/
theorem length_strip (client : Client) : client.strip.length ≤ Config.chipCols := List.length_take_le ..

theorem length_bufRow (buf : Memory) (row : Nat) : (bufRow buf row).length = Config.width := by simp [bufRow]

theorem getD_bufRow (buf : Memory) (row : Nat) (k : Chip) (c : BitVec 6) :
    (bufRow buf row).getD (displayColumn k c) 0 = buf.read (bufAddr row (displayColumn k c)) := by
  have hk := displayColumn_lt k c
  simp only [Config.width] at hk
  simp [bufRow, hk]

/-- What a repaint makes of a view: the window on the display, the strip over its corner, the cursor home. -/
structure Repainted (client : Client) (v w : View) : Prop where
  frame : ViewFrame v w
  quiet : ∀ k, (w.dev k).quiet = (v.dev k).quiet
  cursor : StripCursor client w.cache
  window : ∀ k p c, ¬(k = .zero ∧ p = 0 ∧ c.toNat < client.strip.length) →
    w.logical k p c = client.buf.read (bufAddr (client.startline.toNat / 8 + p.toNat) (displayColumn k c))
  strip : ∀ c : BitVec 6, c.toNat < client.strip.length → w.ram .zero 0 c = client.strip.getD c.toNat 0

theorem Repainted.showsBuffer {client : Client} {v : View} {u : State} (h : Repainted client v (viewOf u)) :
    ShowsBuffer client u :=
  ⟨fun k p c hcell => (viewOf_logical u k p c).symm.trans (h.window k p c hcell),
    fun c hc => (viewOf_ram u .zero 0 c).symm.trans (h.strip c hc)⟩

theorem Repainted.deviceFrame {client : Client} {s u : State} (h : Repainted client (viewOf s) (viewOf u)) :
    DeviceFrame s.dev0 u.dev0 ∧ DeviceFrame s.dev1 u.dev1 :=
  ⟨deviceFrame_iff.mpr (h.quiet .zero), deviceFrame_iff.mpr (h.quiet .one)⟩

section
variable {inv : Bool} {v : View} (hi : v.invert = inv) (ha : Agrees v.addressing) (hb : v.Bare) (hm : v.MemOk)
include hi ha hb hm

/-- The effect of a repaint (R153 to R155). -/
theorem dump_effect (client : Client) : Repainted client v (opsEffect (dumpPlan inv client v.cache).1 v) := by
  obtain ⟨hagrees, hbare, hcache, hframe, hmem, hram, -⟩ :=
    opsEffect_pages (row := fun p => bufRow client.buf (client.startline.toNat / 8 + p)) (fun _ => length_bufRow _ _)
      (List.range Config.npages) (fun _ => List.mem_range.mp) hi ha hb hm
  have hquiet := Keeps.dump writeProof_quiet inv client v.cache v
  rw [dumpPlan_eq, planThen, planThen, opsEffect_append, opsEffect_append] at hquiet ⊢
  rw [← windowPlan] at hagrees hbare hcache hframe hmem hram
  generalize opsEffect (windowPlan inv client v.cache).1 v = w at *
  obtain ⟨hat, hhome, -⟩ := goneTo_homed (x := 0) (y := 0) (by decide) (by decide) hbare
  rw [← hcache, opsEffect_goto (by decide) (by decide) hagrees.pages hbare, goto_cache (by decide) (by decide), ← hhome]
    at hquiet ⊢
  obtain ⟨hstrip, hcursor, hbytes⟩ := rawRow_effect client.strip (p := 0) (n := 0) hat.page0
    (hat.col (by decide) (by rw [hhome]; rfl)) (by rw [Nat.zero_add]; exact length_strip client) (goneTo_memOk hmem)
  have hkeep : ViewFrame v (opsEffect (rawRow client.strip (w.goneTo 0 0).cache).1 (w.goneTo 0 0)) :=
    (hframe.trans (goneTo_frame ..)).trans hstrip
  simp only [Nat.zero_add, Nat.zero_le, true_and, Nat.sub_zero, goneTo_ram] at hbytes
  refine ⟨hkeep, hquiet, ?_, fun k p c hcell => ?_, fun c hc => ?_⟩
  · rw [StripCursor, hcursor, hhome]
    rfl
  · have hp : p.toNat ∈ List.range Config.npages := List.mem_range.mpr p.isLt
    rw [View.logical, hbytes, if_neg hcell, hram, if_pos hp, getD_bufRow, hkeep.invert, hi, onBus_onBus]
  · rw [hbytes, if_pos ⟨rfl, rfl, hc⟩]

/-- A repaint issues plain entries, fewer waits than the ready answers that `ChipsAnswer` promises (R95). -/
theorem dump_plain (client : Client) :
    plainOps (dumpPlan inv client v.cache).1 = true ∧ waitCount (dumpPlan inv client v.cache).1 ≤ 4096
      ∧ busOpCount (dumpPlan inv client v.cache).1 ≠ 0 := by
  obtain ⟨-, -, -, -, -, -, hplain, hwaits, -⟩ :=
    opsEffect_pages (row := fun p => bufRow client.buf (client.startline.toNat / 8 + p)) (fun _ => length_bufRow _ _)
      (List.range Config.npages) (fun _ => List.mem_range.mp) hi ha hb hm
  rw [← windowPlan] at hplain hwaits
  obtain ⟨hgoto, hgotoWaits, hgotoBus⟩ := goto_plain (x := 0) (y := 0) (by decide) (by decide)
    (windowPlan inv client v.cache).2
  obtain ⟨hrow, hrowWaits⟩ := rawRow_plain client.strip (gotoPlan 0 0 (windowPlan inv client v.cache).2).2
  have hstrip := length_strip client
  simp only [List.length_range, Config.npages, Config.chipCols] at hwaits hstrip
  rw [dumpPlan_eq]
  simp only [planThen, plainOps_append, waitCount_append, busOpCount_append, hplain, hgoto, hrow]
  exact ⟨rfl, by omega, by omega⟩

end

/-! ### The operations that repaint -/

/-- A foreground request that repaints the display for a client, from an idle engine (R151, R153). -/
theorem dump_runs {s : State} {P : State → Prop} (client : Client) (hfree : EngineFree s) (hchips : ChipsAnswer s)
    (hcursor : CursorInv s) (hm : MemoryInv s)
    (h : ∀ u, EngineFrame s u → Repainted client (viewOf s) (viewOf u) → P u) :
    RunsTo (issue (dumpPlan s.invert client s.cache).1 s) P := by
  have ha := agrees_of_idle hfree.1 hcursor
  obtain ⟨hplain, hwaits, hbus⟩ := dump_plain rfl ha (viewOf_bare s) (memOk_of_memoryInv hm) client
  exact runsTo_issue_view hfree hchips hbus hplain (PlanWaited.dump _ _ _) hwaits fun u hframe hview =>
    h u hframe (hview ▸ dump_effect rfl ha (viewOf_bare s) (memOk_of_memoryInv hm) client)

/-- Settles O48: the run of `dumpBuffer` has the effect of a repaint. -/
theorem dumpBufferShowsTheWindow : Obligations.DumpBufferShowsTheWindow := by
  intro s hfree hchips hcursor hm hstart
  refine ⟨_, ?_, dump_runs s.client hfree hchips hcursor hm fun u hframe h =>
    ⟨hframe, h.frame.clientFrame rfl, h.showsBuffer, h.cursor, h.deviceFrame⟩⟩
  rw [exec, execDumpBuffer, guarded_of_free hfree, if_pos (windowExists_of_startline hstart.2)]

/-- A scroll inside the bounds (R151). -/
theorem scrolledTo_eq_some {v delta n : Byte} (h : (n.toNat : Int) = v.toNat + signedDelta delta)
    (hmax : n.toNat ≤ Config.startlineMax) : scrolledTo v delta = some n := by
  have hn : BitVec.ofInt 8 (n.toNat : Int) = n := by simp
  rw [scrolledTo, ← h, if_neg (by omega), hn]

/-- The state `scroll` starts its repaint from: the offset moved (R151). -/
def scrollState (n : BitVec 8) (s : State) : State := { s with client := { s.client with startline := n } }

/-- Settles O46: `scroll` moves the offset, and its run has the effect of a repaint. -/
theorem scrollMovesAndRepaints : Obligations.ScrollMovesAndRepaints := by
  intro delta n s hfree hchips hcursor hm _ hdelta hn hmax
  have hsigned : signedDelta delta = 8 ∨ signedDelta delta = -8 := by rcases hdelta with rfl | rfl <;> decide
  refine ⟨_, ?_, dump_runs (s := scrollState n s) { s.client with startline := n } hfree hchips hcursor hm
    fun u hframe h => ?_⟩
  · rw [exec, execScroll, guarded_of_free hfree, if_neg (by omega), scrolledTo_eq_some hn hmax]
    rfl
  · have hclient : u.client = { s.client with startline := n } := h.frame.client
    rw [hclient]
    exact ⟨hframe, h.frame.invert, h.frame.reply, rfl, h.showsBuffer, h.cursor, h.deviceFrame⟩

/-- The button handler up to its repaint, taken from the foreground (R157, R167). -/
def buttonState (s : State) : State := buttonHandler (takeInterrupt .button s)

/-- The button handler's own operation ends in the return to the foreground, `gie = 1` (R167, R169). -/
theorem buttonState_returns {s u : State} (htake : takeable .button s = true) (h : OuterFrame (buttonState s) u) :
    (finish { u with seq := [] }).host
      = { s.host with btnIfg := false, savedPc := s.host.pc, savedLpm := s.host.lpm, savedGie := true } := by
  have hhost : u.host = (buttonState s).host := h.host
  have hfinish : finish { u with seq := [] } = returnFromInterrupt { u with seq := [] } := by
    simp [finish, hhost, buttonState, buttonHandler, takeInterrupt, handlerContext]
  rw [hfinish]
  simp [returnFromInterrupt, hhost, buttonState, buttonHandler, takeInterrupt, takeable_gie htake,
    (takeable_idle htake).2]

/-- Settles O38: the handler's run has the effect of a repaint, and ends in the return from the interrupt. -/
theorem buttonHandlerRepaintsAndReturns : Obligations.ButtonHandlerRepaintsAndReturns := by
  intro s htake hchips hcursor hm hstart client
  have hseq := (takeable_idle htake).1
  have ha : Agrees (viewOf (buttonState s)).addressing := agrees_of_idle hseq hcursor
  have hmem : (viewOf (buttonState s)).MemOk := memOk_of_memoryInv hm
  obtain ⟨hplain, hwaits, hbus⟩ := dump_plain (inv := s.invert) rfl ha (viewOf_bare _) hmem client
  have hissue := issue_of_ne_nil (ne_nil_of_busOpCount hbus) (buttonState s)
  refine ⟨issue (dumpPlan s.invert client s.cache).1 (buttonState s), ?_, ?_, ?_, ?_⟩
  · rw [exec, execIsrButton, if_pos htake]
    exact if_pos (windowExists_of_startline hstart.2)
  · exact congrArg (·.host.ctx) hissue
  · exact congrArg (·.host.gie) hissue
  · rw [← List.append_nil (dumpPlan s.invert client s.cache).1]
    refine runsTo_issue (s := buttonState s) hseq rfl hbus hplain (PlanWaited.dump _ _ _) (hchips.mono hwaits)
      fun u hview houter _ => ?_
    have h : Repainted client (viewOf (buttonState s)) (viewOf (finish { u with seq := [] })) := by
      rw [viewOf_finish]
      exact hview ▸ dump_effect rfl ha (viewOf_bare _) hmem client
    exact ⟨buttonState_returns htake houter, h.frame.client, (finish_touch _).trans houter.touch, h.frame.invert,
      (congrArg Env.program (finish_env _)).trans houter.program,
      (congrArg Env.agenda (finish_env _)).trans houter.agenda, h.frame.reply, h.showsBuffer, h.cursor,
      h.deviceFrame⟩

end Sys2Proof.Machine
end

-- Proofs: the clears and `init` (O39, O45)
section
/-! SUPPORT. The run of a clear (R149, R150): eight pages of one byte, at whose end the cursor stands past the last
column of page 7 and chip 1's column register is back at 0; and the run of `init`, which clears between its power commands and
a `gotoXY(0, 0)` (R141). -/

namespace Sys2Proof.Machine

/-! ### The column a page leaves -/

/-- An aligned write at a homed cursor leaves its chip's column register one on (R87, R104). -/
theorem write_aligned_col {x y : Nat} {v : View} (hat : HomedAt x y v) (hx : x < Config.width) (ho : yoff y = 0)
    (inv : Bool) (d : Byte) : ((opsEffect (writePlan inv d v.cache).1 v).dev (chipOf x)).col = colOf (x + 1) := by
  have hl := hat.legal (Nat.le_of_lt hx)
  rw [writeData_effect hl hat.agrees hat.bare (by rw [hat.atX]; exact hx) (by rw [hat.atY]; exact ho), hat.atX,
    View.withCache_dev, chipEffect, View.setDev_dev_same, deviceDataWrite, rehomed_dev hl, hat.atX, if_pos rfl,
    colOf_succ]

theorem planEach_append {α : Type} (f : α → Plan) (l m : List α) :
    planEach f (l ++ m) = planThen (planEach f l) (planEach f m) := by
  funext c
  induction l generalizing c with
  | nil => simp [planEach, planThen, planNone]
  | cons a l ih =>
    simp only [planThen] at ih
    simp [planEach, planThen, ih]

theorem planEach_singleton {α : Type} (f : α → Plan) (a : α) : planEach f [a] = f a := by
  funext c
  simp [planEach, planThen, planNone]

/-- The last byte of a page takes chip 1's column register past column 63, back to 0 (R87). -/
theorem page_lastCol {inv : Bool} {page : Nat} (hp : page < Config.npages) (d : Byte) {v : View} (hi : v.invert = inv)
    (ha : Agrees v.addressing) (hb : v.Bare) (hm : v.MemOk) :
    (opsEffect (pagePlan inv page (List.replicate Config.width d) v.cache).1 v).dev1.col = 0 := by
  simp only [Config.npages] at hp
  have hy : 8 * page < Config.height := by simp only [Config.height]; omega
  have ho : yoff (8 * page) = 0 := Nat.mul_mod_right 8 page
  obtain ⟨hhome, hcache, -⟩ := goneTo_homed (x := 0) (by decide) hy hb
  have hrow : List.replicate Config.width d = List.replicate 127 d ++ [d] := List.replicate_succ'
  obtain ⟨hat, hnext, -⟩ := opsEffect_write_row (inv := inv) (List.replicate 127 d) ((goneTo_frame ..).invert.trans hi)
    hhome ho (by rw [List.length_replicate]; decide) (goneTo_memOk hm)
  rw [Nat.zero_add, List.length_replicate] at hat
  rw [pagePlan, planThen, hrow, planEach_append, planEach_singleton, planThen, opsEffect_append, opsEffect_append,
    opsEffect_goto (by decide) hy ha.pages hb, goto_cache (by decide) hy, ← hcache, ← hnext]
  exact write_aligned_col hat (by decide) ho inv d

/-! ### The effect of a clear -/

theorem clearScreenPlan_eq (inv : Bool) (color : Color) :
    clearScreenPlan inv color
      = planEach (fun p => pagePlan inv p (List.replicate Config.width (fillByte color))) (List.range Config.npages) :=
  rfl

theorem Keeps.clearScreen {α : Type} {f : Device → α} (hf : WriteProof f) (inv : Bool) (color : Color) (c : Cache) :
    Keeps f (clearScreenPlan inv color c).1 :=
  keeps_pages (row := fun _ => List.replicate Config.width (fillByte color)) hf (fun _ => List.mem_range.mp) c

section
variable {inv : Bool} {v : View} (hi : v.invert = inv) (ha : Agrees v.addressing) (hb : v.Bare) (hm : v.MemOk)
include hi ha hb hm

/-- The effect of a clear: every logical byte the colour's, the cursor past the last column of page 7 (R148 to
R150). -/
theorem clearScreen_effect (color : Color) :
    let w := opsEffect (clearScreenPlan inv color v.cache).1 v
    ViewFrame v w ∧ HomedAt 128 56 w ∧ w.cache = (clearScreenPlan inv color v.cache).2
      ∧ ∀ k p c, w.logical k p c = fillByte color := by
  obtain ⟨-, -, hcache, hframe, -, hram, -, -, hlast⟩ :=
    opsEffect_pages (row := fun _ => List.replicate Config.width (fillByte color)) (fun _ => List.length_replicate)
      (List.range Config.npages) (fun _ => List.mem_range.mp) hi ha hb hm
  refine ⟨hframe, hlast 7 rfl, hcache, fun k p c => ?_⟩
  have hp : p.toNat ∈ List.range Config.npages := List.mem_range.mpr p.isLt
  rw [clearScreenPlan_eq, View.logical, hram, if_pos hp, getD_replicate_width, hframe.invert, hi, onBus_onBus]

theorem clearScreen_lastCol (color : Color) :
    (opsEffect (clearScreenPlan inv color v.cache).1 v).dev1.col = 0 := by
  obtain ⟨hagrees, hbare, hcache, hframe, hmem, -⟩ :=
    opsEffect_pages (row := fun _ => List.replicate Config.width (fillByte color)) (fun _ => List.length_replicate)
      (List.range 7) (fun p hp => Nat.lt_succ_of_lt (List.mem_range.mp hp)) hi ha hb hm
  have hrange : List.range Config.npages = List.range 7 ++ [7] := List.range_succ
  rw [clearScreenPlan_eq, hrange, planEach_append, planEach_singleton, planThen, opsEffect_append, ← hcache]
  exact page_lastCol (by decide) _ (hframe.invert.trans hi) hagrees hbare hmem

/-- A clear issues plain entries, at most 259 waits a page (R95). -/
theorem clearScreen_plain (color : Color) :
    plainOps (clearScreenPlan inv color v.cache).1 = true ∧ waitCount (clearScreenPlan inv color v.cache).1 ≤ 2072 := by
  obtain ⟨-, -, -, -, -, -, hplain, hwaits, -⟩ :=
    opsEffect_pages (row := fun _ => List.replicate Config.width (fillByte color)) (fun _ => List.length_replicate)
      (List.range Config.npages) (fun _ => List.mem_range.mp) hi ha hb hm
  exact ⟨hplain, hwaits⟩

end

theorem clearScreen_busy (inv : Bool) (color : Color) (c : Cache) :
    busOpCount (clearScreenPlan inv color c).1 ≠ 0 := by
  have hbus := (goto_plain (x := 0) (y := 8 * 0) (by decide) (by decide) c).2.2
  have hrange : List.range Config.npages = 0 :: [1, 2, 3, 4, 5, 6, 7] := rfl
  rw [clearScreenPlan_eq, hrange, planEach, planThen, busOpCount_append, pagePlan, planThen, busOpCount_append]
  omega

/-! ### The clears -/

/-- What both clears leave, but for the buffer. -/
def Cleared (color : Color) (s u : State) : Prop :=
  EngineFrame s u ∧ u.invert = s.invert ∧ u.env.reply = s.env.reply
    ∧ (∀ k p c, logicalByte u k p c = if color = .black then 0xFF else 0x00)
    ∧ u.cache.x.toNat = 128 ∧ u.cache.y.toNat = 56 ∧ u.cache.page = 7
    ∧ DeviceFrame s.dev0 u.dev0 ∧ DeviceFrame s.dev1 u.dev1

/-- A view that differs from a clear's at most in the client state. -/
theorem cleared_of_view {s u : State} {color : Color} {client : Client} (hcursor : Agrees (viewOf s).addressing)
    (hm : MemoryInv s) (hframe : EngineFrame s u)
    (hview : viewOf u
      = { opsEffect (clearScreenPlan s.invert color s.cache).1 (viewOf s) with client := client }) :
    Cleared color s u := by
  obtain ⟨hkeep, hat, -, hlogical⟩ :=
    clearScreen_effect (inv := s.invert) rfl hcursor (viewOf_bare s) (memOk_of_memoryInv hm) color
  have hquiet := Keeps.clearScreen writeProof_quiet s.invert color s.cache (viewOf s)
  rw [viewOf_cache] at hkeep hat hlogical
  refine ⟨hframe, (congrArg View.invert hview).trans hkeep.invert, (congrArg View.reply hview).trans hkeep.reply,
    fun k p c => ?_, ?_, ?_, ?_, deviceFrame_iff.mpr ?_, deviceFrame_iff.mpr ?_⟩
  · rw [← viewOf_logical, hview, ← fillByte_eq, ← hlogical k p c]
    cases k <;> rfl
  · exact (congrArg (·.cache.x.toNat) hview).trans hat.atX
  · exact (congrArg (·.cache.y.toNat) hview).trans hat.atY
  · exact (congrArg (·.cache.page) hview).trans hat.page
  · exact (congrArg (·.dev0.quiet) hview).trans (hquiet .zero)
  · exact (congrArg (·.dev1.quiet) hview).trans (hquiet .one)

/-- A clear, and the note behind `clearScreen`'s, run to their end (R149, R150). -/
theorem clearScreen_runs {s : State} (color : Color) {tail : List EngineOp} (hfree : EngineFree s)
    (hchips : ChipsAnswer s) (hcursor : CursorInv s) (hm : MemoryInv s)
    (htail : tail = [] ∨ tail = [.note .clearBuffer]) :
    RunsTo (issue ((clearScreenPlan s.invert color s.cache).1 ++ tail) s) fun u =>
      Cleared color s u ∧ u.client = (opsEffect tail (viewOf s)).client := by
  have ha := agrees_of_idle hfree.1 hcursor
  have hkeep := (clearScreen_effect (inv := s.invert) rfl ha (viewOf_bare s) (memOk_of_memoryInv hm) color).1
  obtain ⟨hplain, hwaits⟩ := clearScreen_plain (inv := s.invert) rfl ha (viewOf_bare s) (memOk_of_memoryInv hm) color
  rw [viewOf_cache] at hkeep hplain hwaits
  have hbusy := clearScreen_busy s.invert color s.cache
  obtain ⟨htailPlain, htailWaits, htailSelf⟩ : plainOps tail = true ∧ waitCount tail = 0 ∧ SelfWaited tail := by
    rcases htail with rfl | rfl
    · exact ⟨rfl, rfl, .nil⟩
    · exact ⟨rfl, rfl, .note _⟩
  refine runsTo_issue_view hfree hchips ?_ ?_ ((PlanWaited.clearScreen _ _ _).append htailSelf) ?_
    fun u hframe hview => ?_
  · rw [busOpCount_append]
    omega
  · rw [plainOps_append, hplain, htailPlain]
    rfl
  · rw [waitCount_append, htailWaits]
    omega
  · rw [opsEffect_append] at hview
    rcases htail with rfl | rfl
    · exact ⟨cleared_of_view ha hm hframe hview, (congrArg View.client hview).trans hkeep.client⟩
    · exact ⟨cleared_of_view ha hm hframe hview,
        (congrArg View.client hview).trans (congrArg (fun c : Client => { c with buf := [] }) hkeep.client)⟩

/-- Settles O45: both runs have the effect of eight pages, and the note behind `clearScreen`'s empties the buffer. -/
theorem clearScreenFillsTheDisplay : Obligations.ClearScreenFillsTheDisplay := by
  intro color s hfree hchips hcursor hm filled
  refine ⟨⟨issue ((clearScreenPlan s.invert color s.cache).1 ++ [.note .clearBuffer]) s, ?_, ?_⟩,
    issue ((clearScreenPlan s.invert color s.cache).1 ++ []) s, ?_, ?_⟩
  · rw [exec, execClearScreen, guarded_of_free hfree]
  · refine (clearScreen_runs color hfree hchips hcursor hm (.inr rfl)).imp fun u ⟨hcleared, hclient⟩ => ?_
    refine ⟨hcleared, fun r c => ?_, (congrArg Client.startline hclient :), (congrArg Client.modes hclient :)⟩
    rw [bufByte, hclient]
    rfl
  · rw [exec, execClearScreenUnsafe, guarded_of_free hfree, List.append_nil]
  · exact clearScreen_runs color hfree hchips hcursor hm (.inl rfl)

/-! ### `init` -/

/-- The power and start-line commands of `init`, to chip 0 and then to chip 1 (R141). -/
def powerOps : List EngineOp :=
  writeCommand 0x3F .zero ++ writeCommand 0x3F .one ++ writeCommand 0xC0 .zero ++ writeCommand 0xC0 .one

theorem initPlan_eq (inv : Bool) :
    initPlan inv = planThen (planOps powerOps) (planThen (clearScreenPlan inv .white) (gotoPlan 0 0)) := rfl

/-- A view with both chips on, at start line 0. -/
def View.powered (v : View) : View :=
  { v with
    dev0 := { v.dev0 with on := true, start := 0, ready := false }
    dev1 := { v.dev1 with on := true, start := 0, ready := false } }

theorem powerOps_effect (v : View) : opsEffect powerOps v = v.powered := by
  simp only [powerOps, opsEffect_append, writeCommand, opsEffect_waitedCycle]
  rfl

theorem powerOps_plain : plainOps powerOps = true ∧ waitCount powerOps = 4 :=
  ⟨by simp [powerOps, plainOps_append, writeCommand, plainOps_waitedCycle], rfl⟩

section
variable {inv : Bool} {v : View} (hi : v.invert = inv) (ha : Agrees v.addressing) (hm : v.MemOk)
include hi ha hm

/-- The effect of `init` on the display: both chips on, the display cleared, the cursor home (R141, R142). -/
theorem init_effect :
    let w := opsEffect (initPlan inv v.cache).1 v
    ViewFrame v w
      ∧ w.cache = { x := 0, y := 0, page := 0, pageStale := false, colStale := false, lastColChip := .zero }
      ∧ (∀ k p c, w.logical k p c = 0)
      ∧ ∀ k, (w.dev k).quiet = (true, 0, (v.dev k).latch) ∧ (w.dev k).page = 0 ∧ (w.dev k).col = 0 := by
  have hpowered : Agrees v.powered.addressing := ha
  obtain ⟨hkeep, hat, hcache, hlogical⟩ := clearScreen_effect (v := v.powered) hi hpowered ⟨rfl, rfl⟩ hm .white
  have hcol := clearScreen_lastCol (v := v.powered) hi hpowered ⟨rfl, rfl⟩ hm .white
  have hquiet := Keeps.clearScreen writeProof_quiet inv .white v.cache v.powered
  rw [initPlan_eq, planThen, planThen, planOps, opsEffect_append, powerOps_effect, opsEffect_append]
  have hsame : v.powered.cache = v.cache := rfl
  rw [hsame] at hkeep hat hcache hlogical hcol
  generalize opsEffect (clearScreenPlan inv .white v.cache).1 v.powered = w at *
  rw [← hcache, opsEffect_goto (by decide) (by decide) hat.agrees.pages hat.bare]
  have hhome := (goneTo_homed (x := 0) (y := 0) (by decide) (by decide) hat.bare).2.1
  have hframe := goneTo_frame 0 0 w
  refine ⟨ViewFrame.trans (v := v.powered) ⟨rfl, rfl, rfl⟩ (hkeep.trans hframe), hhome, fun k p c => ?_,
    fun k => ⟨?_, ?_, ?_⟩⟩
  · rw [View.logical, hframe.invert, goneTo_ram]
    exact hlogical k p c
  · rw [goneTo_dev]
    refine (hquiet k).trans ?_
    cases k <;> rfl
  · rw [goneTo_dev]
    rfl
  · rw [goneTo_dev]
    cases k
    · rfl
    · exact hcol

theorem init_plain : plainOps (initPlan inv v.cache).1 = true ∧ waitCount (initPlan inv v.cache).1 ≤ 4096 := by
  obtain ⟨hpower, hpowerWaits⟩ := powerOps_plain
  obtain ⟨hclear, hclearWaits⟩ := clearScreen_plain (v := v.powered) hi ha ⟨rfl, rfl⟩ hm .white
  obtain ⟨hgoto, hgotoWaits, -⟩ := plain_goto 0 0 (clearScreenPlan inv .white v.powered.cache).2
  rw [initPlan_eq]
  simp only [planThen, planOps, plainOps_append, waitCount_append]
  refine ⟨?_, ?_⟩
  · rw [hpower, Bool.true_and, Bool.and_eq_true]
    exact ⟨hclear, hgoto⟩
  · have hsame : v.powered.cache = v.cache := rfl
    rw [hsame] at hclearWaits hgotoWaits
    omega

end

theorem init_busy (inv : Bool) (c : Cache) : busOpCount (initPlan inv c).1 ≠ 0 := by
  have hpower : busOpCount powerOps = 8 := rfl
  rw [initPlan_eq, planThen, planOps, busOpCount_append, hpower]
  omega

theorem exec_init {i : Bool} {s : State} (hfree : EngineFree s) :
    exec (.init i) s = .next (issue (initPlan i s.cache).1 (initState i s)) := by
  rw [exec, execInit, guarded_of_free hfree]

/-- Settles O39: the run of `init` has the effect of its power commands, a clear and a `gotoXY`. -/
theorem initLeavesTheInitialState : Obligations.InitLeavesTheInitialState := by
  intro i s hfree hchips hcursor hm
  have ha : Agrees (viewOf (initState i s)).addressing := agrees_of_idle hfree.1 hcursor
  have hmem : (viewOf (initState i s)).MemOk := memOk_of_memoryInv (s := s) hm
  obtain ⟨hplain, hwaits⟩ := init_plain (inv := i) rfl ha hmem
  obtain ⟨hkeep, hcache, hlogical, hdev⟩ := init_effect (inv := i) rfl ha hmem
  refine ⟨_, exec_init hfree, runsTo_issue_view (s := initState i s) hfree hchips (init_busy i _) hplain
    (PlanWaited.init _ _) hwaits fun u hframe hview => ?_⟩
  · have heffect : viewOf u = opsEffect (initPlan i (viewOf (initState i s)).cache).1 (viewOf (initState i s)) := hview
    rw [← heffect] at hkeep hcache hlogical hdev
    have hclient : u.client = (initState i s).client := hkeep.client
    have hinvert : u.invert = i := hkeep.invert
    refine ⟨hframe, hkeep.reply, hinvert, (congrArg Client.startline hclient :),
      (congrArg Client.modes hclient :), fun r c => ?_, fun k => ?_, fun k p c => ?_, hcache⟩
    · rw [bufByte, hclient]
      rfl
    · obtain ⟨hquiet, hpage, hcol⟩ := hdev k
      rw [viewOf_dev] at hquiet hpage hcol
      simp only [Device.quiet, Prod.mk.injEq] at hquiet
      obtain ⟨hon, hstart, hlatch⟩ := hquiet
      refine ⟨hon, hstart, hpage, hcol, hlatch.trans ?_⟩
      rw [viewOf_dev]
      cases k <;> rfl
    · have hbyte : onBus i (ramByte u k p c) = 0 := by
        rw [← hinvert]
        exact (viewOf_logical u k p c).symm.trans (hlogical k p c)
      rw [← onBus_onBus i (ramByte u k p c), hbyte]
      cases i <;> rfl

end Sys2Proof.Machine
end

-- Proofs: the client state behind `setDot` and `scroll` (O41, O43, O47, O49)
section
/-! SUPPORT. What an operation in progress leaves of the client state, whatever the chips answer (R81, R149): an engine
step touches nothing of it but the buffer, and that only where the entries ask for it; and the one bit that `setDot`
paints (R143). -/

namespace Sys2Proof.Machine

/-! ### The client state while an operation runs -/

section
variable {α : Type} (f : Client → α)

/-- Entries that keep a reading of the client state: they empty the buffer only if the reading ignores it. -/
def KeepsClient (ops : List EngineOp) : Prop :=
  EngineOp.note .clearBuffer ∈ ops → ∀ c : Client, f { c with buf := [] } = f c

variable {f}

theorem KeepsClient.subset {ops rest : List EngineOp} (h : KeepsClient f ops) (hrest : rest ⊆ ops) :
    KeepsClient f rest := fun hmem => h (hrest hmem)

theorem runNotes_keepsClient {ops : List EngineOp} (h : KeepsClient f ops) (s : State) :
    f (runNotes ops s).1.client = f s.client := by
  induction ops generalizing s with
  | nil => rfl
  | cons op ops ih =>
    have hrest := ih (h.subset (List.subset_cons_self op ops))
    cases op with
    | bus b => rfl
    | note n =>
      refine (hrest (runNote n s)).trans ?_
      cases n with
      | cache | deliver => rfl
      | spill k col => rw [runNote, spillInto_client]
      | clearBuffer => exact h List.mem_cons_self s.client

theorem leave_keepsClient {rest : List EngineOp} (h : KeepsClient f rest) (s : State) :
    f (leave rest s).client = f s.client ∧ KeepsClient f (leave rest s).seq := by
  rcases leave_cases rest s with ⟨s1, hnotes, hleave⟩ | hleave
  · have hclient := runNotes_keepsClient h s
    rw [hnotes] at hclient
    rw [hleave, finish_client, finish_seq]
    exact ⟨hclient, fun hmem => absurd hmem List.not_mem_nil⟩
  · rw [hleave]
    exact ⟨rfl, h⟩

theorem engineStep_keepsClient {s t : State} (h : KeepsClient f s.seq) (hstep : engineStep s = .next t) :
    f t.client = f s.client ∧ KeepsClient f t.seq := by
  have hclient := runNotes_keepsClient h s
  rcases engineStep_next hstep with ⟨s1, hnotes, rfl⟩ | ⟨s1, b, rest, s2, hnotes, hcycle, rfl⟩
  · rw [hnotes] at hclient
    rw [finish_client, finish_seq]
    exact ⟨hclient, fun hmem => absurd hmem List.not_mem_nil⟩
  · rw [hnotes, ← (runBusWord_frame hcycle).1.client] at hclient
    have hrest : KeepsClient f rest :=
      h.subset ((runNotes_changes (List.Subset.refl _) hnotes).2.2 b rest rfl)
    rcases afterBusOp_cases b rest s2 with ⟨k, -, hpoll⟩ | hpoll
    · rw [hpoll]
      exact ⟨hclient, fun hmem => hrest (by simpa using hmem)⟩
    · obtain ⟨hleave, hseq⟩ := leave_keepsClient hrest s2
      rw [hpoll]
      exact ⟨hleave.trans hclient, hseq⟩

theorem engineRun_keepsClient {n : Nat} {s t : State} (h : KeepsClient f s.seq) (hrun : engineRun n s = .next t) :
    f t.client = f s.client := by
  induction n generalizing s with
  | zero => cases hrun; rfl
  | succ n ih =>
    obtain ⟨u, hstep, hrest⟩ := onNext_eq_next hrun
    obtain ⟨hclient, hseq⟩ := engineStep_keepsClient h hstep
    exact (ih hseq hrest).trans hclient

end

theorem issue_client (ops : List EngineOp) (s : State) : (issue ops s).client = s.client := by
  cases ops with
  | nil => exact finish_client s
  | cons op rest => rfl

/-! ### `scroll` there and back -/

theorem exec_scroll_startline {delta : Byte} {n : BitVec 8} {s t : State} (h : exec (.scroll delta) s = .next t)
    (hn : scrolledTo s.client.startline delta = some n) : t.client.startline = n := by
  have hmeaning := (guarded_next (show execScroll delta s = .next t from h)).2
  rw [hn] at hmeaning
  split at hmeaning
  · cases hmeaning
  · cases hmeaning
    rw [issue_client]

/-- Settles O47: no engine step moves the offset, and inside the bounds the second scroll undoes the first. -/
theorem scrollUpThenDownRestoresStartline : Obligations.ScrollUpThenDownRestoresStartline := by
  intro s u t hstart hlt hrun hdown
  obtain ⟨t1, n, v, hup, hengine, -, rfl⟩ := hrun
  obtain ⟨hmul, -⟩ := hstart
  have hup8 : signedDelta 8 = 8 := by decide
  have hdown8 : signedDelta 0xF8 = -8 := by decide
  have hnat : (s.client.startline + 8).toNat = s.client.startline.toNat + 8 := by
    rw [BitVec.toNat_add]
    exact Nat.mod_eq_of_lt (by show _ + 8 < 256; omega)
  have hfirst : t1.client.startline = s.client.startline + 8 := by
    refine exec_scroll_startline hup (scrolledTo_eq_some ?_ ?_)
    · rw [hup8, hnat]
      rfl
    · simp only [Config.startlineMax, Config.screens]
      omega
  have hkept : u.client.startline = t1.client.startline :=
    engineRun_keepsClient (f := Client.startline) (fun _ _ => rfl) hengine
  refine exec_scroll_startline hdown (scrolledTo_eq_some ?_ ?_)
  · rw [hkept, hfirst, hdown8, hnat]
    omega
  · simp only [Config.startlineMax, Config.screens]
    omega

/-- Settles O49: the accessor moves `pc` on and returns the offset. -/
theorem getStartlineReturnsTheOffset : Obligations.GetStartlineReturnsTheOffset := fun _ => rfl

/-! ### The painted bit -/

theorem getLsbD_bitMask {b j : Nat} (hj : j < 8) : (1#8 <<< b).getLsbD j = decide (j = b) := by
  rw [BitVec.getLsbD_shiftLeft, BitVec.getLsbD_one]
  simp only [hj, decide_true, Bool.true_and, Nat.zero_lt_succ]
  rw [← decide_not, ← Bool.decide_and]
  exact decide_eq_decide.mpr (by omega)

/-- `setDot` paints one bit of a byte (R143). -/
theorem getLsbD_paintBit {b j : Nat} (hj : j < 8) (color : Color) (old : Byte) :
    (paintBit color b old).getLsbD j = if j = b then decide (color = .black) else old.getLsbD j := by
  cases color
  case black =>
    rw [paintBit, BitVec.getLsbD_or, getLsbD_bitMask hj]
    by_cases h : j = b <;> simp [h]
  case white =>
    rw [paintBit, BitVec.getLsbD_and, BitVec.getLsbD_not, getLsbD_bitMask hj]
    by_cases h : j = b <;> simp [h, hj]

section
variable {x y : Nat} {color : Color} {s u : State} (hclient : u.client = (dotState x y color s).client)
include hclient

/-- The painted byte, bit by bit (R143, R145). -/
theorem getLsbD_painted (hwf : Memory.wf s.client.buf) {j : Nat} (hj : j < 8) :
    (bufByte u (dotRow y s.client) x).getLsbD j
      = if j = y % 8 then decide (color = .black) else (bufByte s (dotRow y s.client) x).getLsbD j := by
  rw [bufByte, hclient, ← getLsbD_paintBit hj]
  exact congrArg (·.getLsbD j) (Memory.read_write_same hwf _ _)

theorem bufByte_unpainted (hx : x < Config.width) {r c : Nat} (hc : c < Config.width)
    (hother : ¬(r = dotRow y s.client ∧ c = x)) : bufByte u r c = bufByte s r c := by
  rw [bufByte, hclient]
  exact Memory.read_write_other _ (fun h => hother ((bufAddr_inj hc hx).mp h)) _

end

/-- Settles O41: the run of `setDot` is a write of the buffer's window, whose first row is the painted bit. -/
theorem setDotPaintsBufferAndPixel : Obligations.SetDotPaintsBufferAndPixel := by
  intro x y color s hfree hchips hcursor hm hstart hx0 hx hy0 hy row black
  obtain ⟨t, hexec, hruns⟩ := setDot_runs (color := color) hfree hchips hcursor hm hstart hx0 hx hy0 hy
  refine ⟨t, hexec, hruns.imp fun u ⟨hframe, other, h⟩ => ?_⟩
  have hclient : u.client = (dotState x.toNat y.toNat color s).client := h.frame.client
  obtain ⟨hwf, -⟩ := ((memoryInv_iff s).mp hm).2
  have hbit : (bufByte u row x.toNat).getLsbD (y.toNat % 8) = black :=
    (getLsbD_painted hclient hwf (Nat.mod_lt _ (by decide))).trans (if_pos rfl)
  refine ⟨hframe, h.frame.invert, h.frame.reply, (congrArg Client.startline hclient :),
    (congrArg Client.modes hclient :), fun j hj => getLsbD_painted hclient hwf hj,
    fun r c hc hother => bufByte_unpainted hclient hx hc hother, ?_, h.atX, h.atY, power_of_view h.power⟩
  have hrow : (s.client.startline.toNat + y.toNat + 0) / 8 = row := by
    obtain ⟨hmul, -⟩ := hstart
    omega
  have hwindow := getLsbD_dotWindow (x := x.toNat) (y := y.toNat) (i := 0) (u := dotState x.toNat y.toNat color s)
    hstart (by decide) hy
  rw [← viewOf_pixel, h.pixel hx hy hx hy fun hcell => h.other_ne hcell.2.2.symm, if_pos (by omega), Nat.sub_self,
    hwindow, ← hbit, bufByte, bufByte, hclient, ← hrow]
  rfl

/-! ### No entry of `setDot` empties the buffer -/

/-- A plan that never asks for an empty buffer. -/
def PlanSparesBuffer (p : Plan) : Prop := ∀ c, EngineOp.note .clearBuffer ∉ (p c).1

theorem PlanSparesBuffer.then {p q : Plan} (hp : PlanSparesBuffer p) (hq : PlanSparesBuffer q) :
    PlanSparesBuffer (planThen p q) := fun c hmem => (List.mem_append.mp hmem).elim (hp c) (hq _)

theorem clearBuffer_not_mem_waitedCycle (k : Chip) (di rw : Bool) (d : Byte) :
    EngineOp.note .clearBuffer ∉ waitedCycle k di rw d := by simp [waitedCycle, waitOp, cycleOp]

theorem PlanSparesBuffer.goto (x y : Nat) : PlanSparesBuffer (gotoPlan x y) := by
  intro c
  unfold gotoPlan
  split
  · exact List.not_mem_nil
  · unfold pageCommands
    split <;> simp [writeCommand, clearBuffer_not_mem_waitedCycle]

theorem PlanSparesBuffer.rehome : PlanSparesBuffer rehomePlan := by
  intro c
  unfold rehomePlan
  split
  · exact PlanSparesBuffer.goto _ _ c
  · exact List.not_mem_nil

theorem PlanSparesBuffer.half (k : Chip) (keep bits : Byte) : PlanSparesBuffer (halfPlan k keep bits) :=
  (PlanSparesBuffer.rehome.then fun c => by simp [readOps, writeCommand, clearBuffer_not_mem_waitedCycle]).then
    fun _ => by simp [planOps, waitOp]

theorem PlanSparesBuffer.split (d : Byte) : PlanSparesBuffer (splitPlan d) := by
  intro c
  unfold splitPlan
  refine (PlanSparesBuffer.half _ _ _).then ?_ c
  split
  · refine (PlanSparesBuffer.goto _ _).then ((PlanSparesBuffer.half _ _ _).then fun c => ?_)
    unfold restorePlan
    split
    · exact PlanSparesBuffer.goto _ _ c
    · simp [planCache]
  · exact fun c => by simp [splitLastPlan, planThen, planOps, planCache]

theorem PlanSparesBuffer.write (inv : Bool) (d : Byte) : PlanSparesBuffer (writePlan inv d) := by
  intro c
  unfold writePlan
  split
  · exact List.not_mem_nil
  · refine PlanSparesBuffer.rehome.then ?_ c
    split
    · exact fun c => by simp [alignedPlan, clearBuffer_not_mem_waitedCycle]
    · exact .split d

/-- A `setDot` that is issued paints its bit, and no later entry of it empties the buffer (R143). -/
theorem exec_setDot_next {x y : Byte} {color : Color} {s t : State} (h : exec (.setDot x y color) s = .next t)
    (hbounds : dotInBounds x.toNat y.toNat = true) :
    t.client = (dotState x.toNat y.toNat color s).client ∧ EngineOp.note .clearBuffer ∉ t.seq := by
  have hmeaning := (guarded_next (show execSetDot x y color s = .next t from h)).2
  rw [if_pos hbounds] at hmeaning
  simp only at hmeaning
  split at hmeaning
  · cases hmeaning
    simp only [dotInBounds, Bool.and_eq_true, decide_eq_true_eq] at hbounds
    obtain ⟨⟨⟨-, hx⟩, -⟩, hy⟩ := hbounds
    refine ⟨issue_client _ _, ?_⟩
    rw [issue_of_ne_nil (ne_nil_of_busOpCount ?_)]
    · exact (PlanSparesBuffer.goto _ _).then (.write _ _) _
    · have hbus := (goto_plain hx hy s.cache).2.2
      rw [dotPlan, planThen, busOpCount_append]
      omega
  · cases hmeaning

/-- Settles O43: the second paint clears the bit that the first one set, and no engine step between them touches the
buffer. -/
theorem setDotBlackThenWhiteClearsTheBit : Obligations.SetDotBlackThenWhiteClearsTheBit := by
  intro x y s u t hm hx0 hx hy0 hy hrun hwhite row
  obtain ⟨t1, n, v, hblack, hengine, -, rfl⟩ := hrun
  have hbounds : dotInBounds x.toNat y.toNat = true := by simp [dotInBounds, hx0, hx, hy0, hy]
  obtain ⟨hwf, -⟩ := ((memoryInv_iff s).mp hm).2
  obtain ⟨hpaint, hspares⟩ := exec_setDot_next hblack hbounds
  have hu : u.client = (dotState x.toNat y.toNat .black s).client :=
    (engineRun_keepsClient (f := id) (fun hmem => absurd hmem hspares) hengine).trans hpaint
  have ht := (exec_setDot_next hwhite hbounds).1
  have hwfu : Memory.wf u.client.buf := by
    rw [hu]
    exact Memory.write_wf hwf _ _
  have hrow : dotRow y.toNat u.client = row := by
    rw [hu]
    rfl
  have hbits : ∀ j, j < 8 → (bufByte t row x.toNat).getLsbD j
      = if j = y.toNat % 8 then false else (bufByte s row x.toNat).getLsbD j := by
    intro j hj
    have hsecond := getLsbD_painted ht hwfu hj
    rw [hrow] at hsecond
    rw [hsecond]
    split
    · rfl
    · rename_i hne
      exact (getLsbD_painted hu hwf hj).trans (if_neg hne)
  refine ⟨hbits, fun r c hc hother => ?_, fun hclear => BitVec.eq_of_getLsbD_eq fun j hj => ?_⟩
  · exact (bufByte_unpainted ht hx hc (hrow ▸ hother)).trans (bufByte_unpainted hu hx hc hother)
  · rw [hbits j hj]
    split
    · rename_i heq
      rw [heq, hclear]
    · rfl

end Sys2Proof.Machine
end

-- Proofs: the bus trace of `init` (O40)
section
/-! SUPPORT. The write cycles of a plan, each behind its wait, told from the cursor alone (R95, R142): where `gotoXY`
and a row of writes issue a page or a column command is decided by the stale flags and the chip last addressed. -/

namespace Sys2Proof.Machine

/-! ### Traces -/

/-- The entries put these write cycles on the bus, each right behind a wait on its chip, and nothing else (R95). -/
def Writes (ops : List EngineOp) (trace : List (Chip × Bool × Byte)) : Prop := busOpsOf ops = behindWaits trace

theorem Writes.append {p q : List EngineOp} {l m : List (Chip × Bool × Byte)} (hp : Writes p l) (hq : Writes q m) :
    Writes (p ++ q) (l ++ m) := by
  rw [Writes, busOpsOf_append, behindWaits_append, hp, hq]

theorem length_behindWaits (trace : List (Chip × Bool × Byte)) : (behindWaits trace).length = 2 * trace.length := by
  induction trace with
  | nil => rfl
  | cons c trace ih => simp only [behindWaits, List.length_cons, ih]; omega

theorem cycleTrace_busOpsOf (ops : List EngineOp) : cycleTrace ops = cycleTrace ((busOpsOf ops).map .bus) := by
  induction ops with
  | nil => rfl
  | cons op ops ih => rcases op with (_ | _ | _) | _ <;> simp only [cycleTrace, busOpsOf, List.map_cons, ih]

theorem cycleTrace_behindWaits (trace : List (Chip × Bool × Byte)) :
    cycleTrace ((behindWaits trace).map .bus) = trace.map fun c => some (chipWord c.1 c.2.1 false c.2.2) := by
  induction trace with
  | nil => rfl
  | cons c trace ih => exact congrArg _ ih

/-- The trace and the length of entries that only write (R118, R142). -/
theorem Writes.trace {ops : List EngineOp} {trace : List (Chip × Bool × Byte)} (h : Writes ops trace) :
    cycleTrace ops = trace.map (fun c => some (chipWord c.1 c.2.1 false c.2.2))
      ∧ busOpCount ops = 2 * trace.length := by
  rw [cycleTrace_busOpsOf, busOpCount_eq_length, h, cycleTrace_behindWaits, length_behindWaits]
  exact ⟨rfl, rfl⟩

/-- From the cursor `c` a plan issues these write cycles, and it leaves the cursor `c'`. -/
structure PlanWrites (p : Plan) (c : Cache) (trace : List (Chip × Bool × Byte)) (c' : Cache) : Prop where
  writes : Writes (p c).1 trace
  cursor : (p c).2 = c'

theorem PlanWrites.then {p q : Plan} {c c1 c2 : Cache} {l m : List (Chip × Bool × Byte)} (hp : PlanWrites p c l c1)
    (hq : PlanWrites q c1 m c2) : PlanWrites (planThen p q) c (l ++ m) c2 := by
  obtain ⟨htrace, rfl⟩ := hp
  exact ⟨htrace.append hq.writes, hq.cursor⟩

/-! ### `gotoXY` -/

/-- The page commands of `gotoXY` are due: the page is another, or stale (R96, R98). -/
def PageDue (p : BitVec 3) (c : Cache) : Prop := p ≠ c.page ∨ c.pageStale = true

section
variable {x y : Nat} (hx : x < Config.width) (hy : y < Config.height) {c : Cache}
include hx hy

theorem goto_writes_due (h : PageDue (pageOf y) c) :
    PlanWrites (gotoPlan x y) c
      [(.zero, false, setPageByte (pageOf y)), (.one, false, setPageByte (pageOf y)),
        (chipOf x, false, setColumnByte (colOf x))] (cacheHomed x y c) := by
  have hpages : pageCommands (pageOf y) c
      = writeCommand (setPageByte (pageOf y)) .zero ++ writeCommand (setPageByte (pageOf y)) .one := if_pos h
  refine ⟨?_, goto_cache hx hy c⟩
  rw [gotoPlan_inside hx hy, hpages]
  rfl

theorem goto_writes_not_due (h : ¬ PageDue (pageOf y) c) :
    PlanWrites (gotoPlan x y) c [(chipOf x, false, setColumnByte (colOf x))] (cacheHomed x y c) := by
  have hpages : pageCommands (pageOf y) c = [] := if_neg h
  refine ⟨?_, goto_cache hx hy c⟩
  rw [gotoPlan_inside hx hy, hpages]
  rfl

end

/-! ### A page of writes -/

/-- The cursor at a column of a page, with no stale flag, `k` the chip last addressed. -/
def pageCache (x page : Nat) (k : Chip) : Cache :=
  { x := BitVec.ofNat 8 x
    y := BitVec.ofNat 6 (8 * page)
    page := pageOf (8 * page)
    pageStale := false
    colStale := false
    lastColChip := k }

theorem pageCache_x {x : Nat} (hx : x < Config.width) (page : Nat) (k : Chip) : (pageCache x page k).x.toNat = x := by
  simp only [Config.width] at hx
  exact toNat_ofNat8 (by omega)

theorem pageCache_y {page : Nat} (hp : page < Config.npages) (x : Nat) (k : Chip) :
    (pageCache x page k).y.toNat = 8 * page := by
  simp only [Config.npages] at hp
  exact toNat_ofNat6 (by omega)

theorem height_of_npages {page : Nat} (hp : page < Config.npages) : 8 * page < Config.height := by
  simp only [Config.npages, Config.height] at *
  omega

/-- A write at a homed cursor of a page: one data cycle, and the cursor one column on (R104). -/
theorem write_writes {x page : Nat} (hx : x < Config.width) (hp : page < Config.npages) (inv : Bool) (d : Byte) :
    PlanWrites (writePlan inv d) (pageCache x page (chipOf x)) [(chipOf x, true, onBus inv d)]
      (pageCache (x + 1) page (chipOf x)) := by
  have hatX := pageCache_x hx page (chipOf x)
  have ho : yoff (pageCache x page (chipOf x)).y.toNat = 0 := by
    rw [pageCache_y hp]
    exact Nat.mul_mod_right 8 page
  have hnext : cacheNext (pageCache x page (chipOf x)) = pageCache (x + 1) page (chipOf x) := by
    simp [cacheNext, pageCache, BitVec.ofNat_add]
  have hf : HomedFlags (pageCache x page (chipOf x)) := ⟨rfl, rfl, congrArg chipOf hatX⟩
  have hwrite : writePlan inv d (pageCache x page (chipOf x)) = alignedPlan inv d (pageCache x page (chipOf x)) := by
    rw [writePlan, if_neg (by omega), if_pos ho, planThen, rehome_homed hf, List.nil_append]
  refine ⟨?_, (congrArg Prod.snd hwrite).trans hnext⟩
  rw [hwrite, alignedPlan, hatX]
  rfl

/-- Writes within one chip's columns of a page: one data cycle each (R104). -/
theorem row_writes {inv : Bool} {d : Byte} {page : Nat} (hp : page < Config.npages) {k : Chip} (n : Nat) :
    ∀ {x : Nat}, x + n ≤ Config.width → (∀ i < n, chipOf (x + i) = k) →
      PlanWrites (planEach (writePlan inv) (List.replicate n d)) (pageCache x page k)
        (List.replicate n (k, true, onBus inv d)) (pageCache (x + n) page k) := by
  induction n with
  | zero => exact fun _ _ => ⟨rfl, rfl⟩
  | succ n ih =>
    intro x hx hk
    have hchip : chipOf x = k := hk 0 (Nat.succ_pos n)
    have hfirst := write_writes (show x < Config.width by omega) hp inv d
    have hrest := ih (x := x + 1) (by omega) fun i hi => by
      rw [Nat.add_assoc, Nat.add_comm 1 i]
      exact hk (i + 1) (Nat.succ_lt_succ hi)
    rw [hchip] at hfirst
    rw [Nat.add_assoc, Nat.add_comm 1 n] at hrest
    exact hfirst.then hrest

/-- Past chip 0's last column the cursor is re-homed: one column command to chip 1 (R100). -/
theorem rehome_writes {page : Nat} (hp : page < Config.npages) :
    PlanWrites rehomePlan (pageCache 64 page .zero) [(.one, false, 0x40)] (pageCache 64 page .one) := by
  have hx := pageCache_x (x := 64) (by decide) page .zero
  have hchip : ¬ HomedFlags (pageCache 64 page .zero) := fun ⟨_, _, h⟩ => by
    rw [hx] at h
    cases h
  have hgoto : rehomePlan (pageCache 64 page .zero) = gotoPlan 64 (8 * page) (pageCache 64 page .zero) := by
    rw [rehome_not_homed hchip, hx, pageCache_y hp]
  obtain ⟨htrace, hcursor⟩ := goto_writes_not_due (x := 64) (c := pageCache 64 page .zero) (by decide)
    (height_of_npages hp) (by simp [PageDue, pageCache])
  exact ⟨hgoto ▸ htrace, hgoto ▸ hcursor⟩

theorem homedFlags_rehome {c : Cache} (hx : c.x.toNat < Config.width) : HomedFlags (rehomePlan c).2 := by
  by_cases hf : HomedFlags c
  · rw [rehome_homed hf]
    exact hf
  · rw [rehome_not_homed hf, goto_cache hx c.y.isLt]
    exact ⟨rfl, rfl, by simp [cacheHomed, cacheAt]⟩

/-- A row of writes starts with its first byte's re-home (R104). -/
theorem row_rehome {inv : Bool} {l : List Byte} (hl : l ≠ []) {c : Cache} (hx : c.x.toNat < Config.width) :
    planEach (writePlan inv) l c = planThen rehomePlan (planEach (writePlan inv) l) c := by
  cases l with
  | nil => exact absurd rfl hl
  | cons d l =>
    obtain ⟨hatX, hatY⟩ := rehome_keeps_cursor c
    have hwrite : writePlan inv d c = planThen rehomePlan (writePlan inv d) c := by
      simp only [writePlan, planThen, hatX, hatY, rehome_homed (homedFlags_rehome hx), List.nil_append,
        if_neg (Nat.not_le.mpr hx)]
    simp only [planEach, planThen, hwrite, List.append_assoc]

/-- A page of one byte: its page and column commands, and 64 data cycles to each chip (R142, R148). -/
theorem page_writes {inv : Bool} {d : Byte} {page : Nat} (hp : page < Config.npages) {c : Cache}
    (h : PageDue (BitVec.ofNat 3 page) c) :
    PlanWrites (pagePlan inv page (List.replicate Config.width d)) c
      (pageFillTrace (BitVec.ofNat 3 page) (onBus inv d)) (pageCache 128 page .one) := by
  rw [← pageOf_mul] at h ⊢
  have hgoto := goto_writes_due (x := 0) (by decide) (height_of_npages hp) h
  have hleft := row_writes (inv := inv) (d := d) hp (k := .zero) 64 (x := 0) (by decide) (by decide)
  have hright := row_writes (inv := inv) (d := d) hp (k := .one) 64 (x := 64) (by decide) (by decide)
  have hcross : PlanWrites (planEach (writePlan inv) (List.replicate 64 d)) (pageCache 64 page .zero)
      ([(.one, false, 0x40)] ++ List.replicate 64 (.one, true, onBus inv d)) (pageCache 128 page .one) := by
    obtain ⟨htrace, hcursor⟩ := (rehome_writes hp).then hright
    have hrehome := row_rehome (inv := inv) (l := List.replicate 64 d) (c := pageCache 64 page .zero) (by simp) (by
      rw [pageCache_x (by decide)]
      decide)
    exact ⟨hrehome ▸ htrace, hrehome ▸ hcursor⟩
  have hrow : List.replicate Config.width d = List.replicate 64 d ++ List.replicate 64 d := by
    rw [List.replicate_append_replicate]
  rw [pagePlan, hrow, planEach_append, pageFillTrace, List.append_assoc, List.append_assoc]
  exact hgoto.then (hleft.then hcross)

/-! ### `init` -/

/-- Pages of one byte from page 0 on, each with its page commands (R142, R148). -/
theorem pages_writes {inv : Bool} {d : Byte} {n : Nat} (hn : n ≤ Config.npages) {c : Cache} (h : PageDue 0 c) :
    ∃ c', PageDue (BitVec.ofNat 3 n) c'
      ∧ PlanWrites (planEach (fun p => pagePlan inv p (List.replicate Config.width d)) (List.range n)) c
        ((List.range n).flatMap fun p => pageFillTrace (BitVec.ofNat 3 p) (onBus inv d)) c' := by
  induction n with
  | zero => exact ⟨c, h, rfl, rfl⟩
  | succ n ih =>
    obtain ⟨c', hdue, hpages⟩ := ih (Nat.le_of_succ_le hn)
    refine ⟨pageCache 128 n .one, .inl ?_, ?_⟩
    · rw [pageCache, pageOf_mul]
      simp only [ne_eq, ← BitVec.toNat_inj, BitVec.toNat_ofNat]
      omega
    · rw [List.range_succ, planEach_append, planEach_singleton, List.flatMap_append, List.flatMap_singleton]
      exact hpages.then (page_writes hn hdue)

/-- The write cycles of `init` (R142). -/
def initTrace (fill : Byte) : List (Chip × Bool × Byte) :=
  [(.zero, false, 0x3F), (.one, false, 0x3F), (.zero, false, 0xC0), (.one, false, 0xC0)]
    ++ (List.range 8).flatMap (fun p => pageFillTrace (BitVec.ofNat 3 p) fill)
    ++ [(.zero, false, 0xB8), (.one, false, 0xB8), (.zero, false, 0x40)]

/-- A page fill is four commands and 128 bytes (R142). -/
theorem length_pageFillTrace (page : BitVec 3) (fill : Byte) : (pageFillTrace page fill).length = 132 := by
  simp only [pageFillTrace, List.length_append, List.length_cons, List.length_nil, List.length_replicate]

theorem length_initTrace (fill : Byte) : (initTrace fill).length = 1063 := by
  rw [initTrace, List.length_append, List.length_append, List.length_flatMap]
  simp only [length_pageFillTrace]
  rfl

theorem init_writes {inv : Bool} {c : Cache} (h : c.pageStale = true) :
    Writes (initPlan inv c).1 (initTrace (onBus inv (fillByte .white))) := by
  have hpower : PlanWrites (planOps powerOps) c
      [(.zero, false, 0x3F), (.one, false, 0x3F), (.zero, false, 0xC0), (.one, false, 0xC0)] c := ⟨rfl, rfl⟩
  obtain ⟨c', hdue, hpages⟩ :=
    pages_writes (inv := inv) (d := fillByte .white) (Nat.le_refl Config.npages) (c := c) (.inr h)
  rw [initTrace, List.append_assoc, initPlan_eq, clearScreenPlan_eq]
  exact (hpower.then (hpages.then (goto_writes_due (x := 0) (y := 0) (by decide) (by decide) hdue))).writes

/-- Settles O40: the power commands, eight page fills and a `gotoXY`, each cycle behind its wait. -/
theorem initTraceFromPowerOn : Obligations.InitTraceFromPowerOn := by
  intro i s hfree hstale trace
  have hwrites := init_writes (inv := i) hstale
  have htrace : trace = initTrace (onBus i (fillByte .white)) := by cases i <;> rfl
  obtain ⟨hcycles, hcount⟩ := hwrites.trace
  refine ⟨_, exec_init hfree, ?_⟩
  rw [issue_of_ne_nil (ne_nil_of_busOpCount (init_busy i s.cache)), htrace]
  exact ⟨hwrites, hcycles, hcount.trans (by rw [length_initTrace])⟩

end Sys2Proof.Machine
end

-- Proofs: interrupts not taken, and the requests that write `gie` (O36, O37)
section
/-! SUPPORT. When the turn of a handler passes without effect (R166 to R168, R192), and the low-power wait with `wake`
set and with it clear (R175). -/

namespace Sys2Proof.Machine

/-- A takeable interrupt finds its flag set (R166). -/
theorem takeable_pending {src : Source} {s : State} (h : takeable src s = true) : pending src s = true := by
  simp only [takeable, Bool.and_eq_true] at h
  obtain ⟨⟨-, hpending⟩, -⟩ := h
  exact hpending

/-- Each of the reasons for which a handler is not taken (R166 to R168, R192). -/
theorem not_takeable_of_blocked {src : Source} {s : State}
    (hblocked : s.host.gie = false ∨ s.host.ctx ≠ .fg ∨ pending src s = false ∨ s.seq ≠ []) :
    ¬ takeable src s = true := by
  intro htake
  obtain ⟨hidle, hfg⟩ := takeable_idle htake
  rcases hblocked with hgie | hctx | hpending | hseq
  · exact Bool.eq_false_iff.mp hgie (takeable_gie htake)
  · exact hctx hfg
  · exact Bool.eq_false_iff.mp hpending (takeable_pending htake)
  · exact hseq hidle

/-- The turn of a handler that may not be taken passes (log 14). -/
theorem step_interrupt_not_takeable {src : Source} {s : State} (hh : halted s = none)
    (hturn : nextTurn s = .interrupt src) (htake : ¬ takeable src s = true) : step s = .next (popTurn s) := by
  rw [step_of_running hh, hturn]
  exact if_neg htake

/-- Settles O37: a blocked handler is not takeable, and its turn passes. -/
theorem noHandlerWithoutGie : Obligations.NoHandlerWithoutGie :=
  fun _ _ hh hturn hblocked => step_interrupt_not_takeable hh hturn (not_takeable_of_blocked hblocked)

/-- A wait entered with `wake` set consumes it and completes at once (R175). -/
theorem execLpmWait_of_wake {s : State} (hwake : s.host.wake = true) :
    execLpmWait s
      = .next (advance { s with host := { s.host with gie := true, wake := false, lpm := false } }) :=
  if_pos hwake

/-- A wait entered with `wake` clear holds, `pc` in place (R175). -/
theorem execLpmWait_of_not_wake {s : State} (hwake : s.host.wake = false) :
    execLpmWait s = .next { s with host := { s.host with gie := true, lpm := true } } :=
  if_neg (Bool.eq_false_iff.mp hwake)

/-- Settles O36: `dint` and `eint` are one write each, and the wait goes by `wake`. -/
theorem contextRequestsWriteGie : Obligations.ContextRequestsWriteGie :=
  fun _ => ⟨rfl, rfl, fun hwake => ⟨false, execLpmWait_of_wake hwake⟩,
    fun hwake => ⟨true, execLpmWait_of_not_wake hwake⟩⟩

end Sys2Proof.Machine
end

-- Proofs: the state at power-on (O58, O59)
section
/-! SUPPORT. Power-on: every byte space is empty, the engine is idle in the foreground, and both stale flags are up,
so that the cursor promises nothing about the devices' address registers (R99, R181). -/

namespace Sys2Proof.Machine

/-- A stale cursor agrees with any address registers (R99). -/
theorem agrees_of_stale {a : Addressing} (hpage : a.cache.pageStale = true) (hcol : a.cache.colStale = true) :
    Agrees a :=
  ⟨fun h => absurd hpage (Bool.eq_false_iff.mp h), fun h => absurd hcol (Bool.eq_false_iff.mp h)⟩

theorem waitedInv_of_idle {s : State} (hseq : s.seq = []) : WaitedInv s := by
  rw [WaitedInv, hseq]
  trivial

theorem cursorRangeInv_of_idle {s : State} (hseq : s.seq = []) (h : CursorLegal s.cache) : CursorRangeInv s :=
  ⟨h, fun _ hc => absurd (hseq ▸ hc) List.not_mem_nil⟩

theorem Memory.empty_within (size : Nat) : Memory.within size [] :=
  fun _ hc => absurd hc List.not_mem_nil

theorem reset_memoryInv : MemoryInv State.reset := by
  have hram : Memory.wf [] ∧ Memory.within 512 [] := ⟨Memory.empty_wf, Memory.empty_within 512⟩
  exact ⟨hram, hram, Memory.empty_wf, Memory.empty_within 4096⟩

theorem reset_touchInRange : TouchInRange State.reset.touch := by
  have hzero : (0 : TouchWord).toNat < 2 ^ Config.adcBits := by decide
  exact ⟨Nat.zero_le _, hzero, hzero, hzero, hzero, hzero, hzero⟩

/-- Settles O58: the idle engine and the empty byte spaces leave only the zero registers' ranges to check. -/
theorem powerOnMeetsTheInvariants : Obligations.PowerOnMeetsTheInvariants :=
  ⟨cursorInv_of_idle rfl (agrees_of_stale rfl rfl), waitedInv_of_idle rfl, reset_memoryInv,
    ⟨rfl, Nat.zero_le _⟩, cursorRangeInv_of_idle rfl ⟨Nat.zero_le _, rfl⟩,
    (touchInv_iff _).mpr reset_touchInRange, contextInv_of_idle rfl rfl⟩

/-- The frame buffer is blank at power-on (R38, R181). -/
theorem bufByte_reset (row col : Nat) : bufByte State.reset row col = 0 :=
  Memory.read_nil (bufAddr row col)

/-- Settles O59: each register is read off the power-on state, the frame buffer through its empty byte space. -/
theorem powerOnValues : Obligations.PowerOnValues :=
  ⟨rfl, rfl, rfl, -- the bus engine
    rfl, rfl, rfl, rfl, rfl, rfl, rfl, rfl, rfl, rfl, rfl, -- the touch sampler
    rfl, rfl, rfl, rfl, rfl, rfl, rfl, rfl, rfl, -- the host context
    bufByte_reset, rfl, rfl⟩ -- the client

end Sys2Proof.Machine
end
